-- ==== Sys2Proof/Word.lean ====
section
/-! DEFINITION. The word types of the Core: a command word and a register slot are 32 bits (R7, R8, R21), a half of a
slot, a stored depth and a palette entry are 16 bits, a block is made of bytes (R71). A stored colour is a 32-bit
value in both generations; generation 1 uses its low 16 bits (R35). -/

namespace Sys2Proof

/-- A byte of a memory block. -/
abbrev Byte := BitVec 8

/-- A 16-bit half of a slot, a depth, a palette entry. -/
abbrev Half := BitVec 16

/-- A command word, a register slot, an expanded address. -/
abbrev Word := BitVec 32

/-- A colour value as it is stored: 16 bits used in generation 1, 32 in generation 2 (R35). -/
abbrev Color := BitVec 32

/-- The number of a register slot, 0 to 127 (R21). -/
abbrev SlotNo := BitVec 7

end Sys2Proof
end

