-- ==== Sys2Proof/Config.lean ====
section
/-! DEFINITION. The configuration record `Cfg` of rule R6, as plain data, and the free values: constants with no body
for what the spec leaves arbitrary (R361, R316, R226) and for the functions a configuration may put in the place of the
spec's defaults (R6). The default record is Machine/Params.lean's; what a legal record is, WellFormed.lean says. -/

namespace Sys2Proof

/-- The hardware generation `GEN` (R2), fixed at construction. -/
inductive Gen where
  | gen1
  | gen2
  deriving DecidableEq, Repr

/-- The two memory banks (R34, R70). -/
inductive Bank where
  | bankA
  | bankB
  deriving DecidableEq, Repr

/-- The two contexts a command is read in (R111): the FIFO, or a model list in bank A. -/
inductive Ctx where
  | fifo
  | model
  deriving DecidableEq, Repr

/-- `UNSUPPORTED_FILL` (R275): what a polygon with an unsupported fill mode does. -/
inductive UnsupportedFill where
  | skip
  | solid
  deriving DecidableEq, Repr

/-- The quad payload size `P_QSIZE`, "one of the two values 10 and 14" (R27). -/
inductive QuadSize where
  | q10
  | q14
  deriving DecidableEq, Repr

/-- The number of words the quad payload size stands for. -/
def QuadSize.words : QuadSize → Nat
  | .q10 => 10
  | .q14 => 14

/-- The lane order of a block (R75): for each lane of a width, the byte positions it uses, least significant first. -/
structure Lanes where
  lane8 : List Nat
  lane16 : List (Nat × Nat)
  lane32 : List (Nat × Nat × Nat × Nat)
  deriving DecidableEq, Repr

/-- The opcode bytes `OP_*` (R114). -/
structure Opcodes where
  ptrset : Byte
  endModel : Byte
  chain : Byte
  drawmodel : Byte
  regw16 : Byte
  regw32 : Byte
  matrix : Byte
  light : Byte
  clear : Byte
  quad : Byte
  deriving DecidableEq, Repr

/-- The ten opcode bytes. -/
def Opcodes.all (o : Opcodes) : List Byte :=
  [o.ptrset, o.endModel, o.chain, o.drawmodel, o.regw16, o.regw32, o.matrix, o.light, o.clear, o.quad]

/-- The opcode bytes known in a context (R114): END and CHAIN in a model list only, DRAWMODEL in the FIFO only. -/
def Opcodes.known (o : Opcodes) : Ctx → List Byte
  | .fifo => [o.ptrset, o.drawmodel, o.regw16, o.regw32, o.matrix, o.light, o.clear, o.quad]
  | .model => [o.ptrset, o.endModel, o.chain, o.regw16, o.regw32, o.matrix, o.light, o.clear, o.quad]

/-- The slots with a function, `S_*` (R24). -/
structure Slots where
  color : SlotNo
  alpha : SlotNo
  texmode : SlotNo
  zbias : SlotNo
  ctrl : SlotNo
  page : SlotNo
  ibD0 : SlotNo
  ibD1 : SlotNo
  ibD2 : SlotNo
  ibAddr : SlotNo
  ibMode : SlotNo
  iaD0 : SlotNo
  iaD1 : SlotNo
  iaAddr : SlotNo
  iaMode : SlotNo
  tTotal : SlotNo
  tHvis : SlotNo
  tVvis : SlotNo
  fifo : SlotNo
  deriving DecidableEq, Repr

/-- The nineteen slots with a function. -/
def Slots.all (t : Slots) : List SlotNo :=
  [t.color, t.alpha, t.texmode, t.zbias, t.ctrl, t.page, t.ibD0, t.ibD1, t.ibD2, t.ibAddr, t.ibMode,
   t.iaD0, t.iaD1, t.iaAddr, t.iaMode, t.tTotal, t.tHvis, t.tVvis, t.fifo]

/-- The slots whose write runs a side effect (R24, R142): the push port, the two address slots, the data slots of the
two groups and the three timing slots. -/
def Slots.active (t : Slots) : List SlotNo :=
  [t.fifo, t.iaAddr, t.ibAddr, t.iaD0, t.iaD1, t.ibD0, t.ibD1, t.ibD2, t.tTotal, t.tHvis, t.tVvis]

/-- The pointer-slot selectors `PSEL_*` (R116). -/
structure Selectors where
  rt : BitVec 24
  tex : BitVec 24
  pal : BitVec 24
  qsize : BitVec 24
  deriving DecidableEq, Repr

/-! ### Small containers -/

/-- Three components, numbered 0, 1, 2. -/
structure Vec3 (α : Type) where
  e0 : α
  e1 : α
  e2 : α
  deriving DecidableEq, Repr

/-- A 3×3 matrix as its rows: `r0.e1` is entry [0][1]. -/
structure Mat3 (α : Type) where
  r0 : Vec3 α
  r1 : Vec3 α
  r2 : Vec3 α
  deriving DecidableEq, Repr

/-- Four like things, numbered 0 to 3. -/
structure Four (α : Type) where
  v0 : α
  v1 : α
  v2 : α
  v3 : α
  deriving DecidableEq, Repr

/-- A vector of three like components. -/
def Vec3.all {α : Type} (x : α) : Vec3 α := ⟨x, x, x⟩

/-- A matrix of nine like entries. -/
def Mat3.all {α : Type} (x : α) : Mat3 α := ⟨.all x, .all x, .all x⟩

/-- Component-wise image of a vector. -/
def Vec3.map {α β : Type} (f : α → β) (v : Vec3 α) : Vec3 β := ⟨f v.e0, f v.e1, f v.e2⟩

/-- Entry-wise image of a matrix. -/
def Mat3.map {α β : Type} (f : α → β) (m : Mat3 α) : Mat3 β := ⟨m.r0.map f, m.r1.map f, m.r2.map f⟩

/-- Member-wise image of four things. -/
def Four.map {α β : Type} (f : α → β) (q : Four α) : Four β := ⟨f q.v0, f q.v1, f q.v2, f q.v3⟩

/-- The components in order. -/
def Vec3.list {α : Type} (v : Vec3 α) : List α := [v.e0, v.e1, v.e2]

/-- The entries in order, row by row. -/
def Mat3.list {α : Type} (m : Mat3 α) : List α := m.r0.list ++ m.r1.list ++ m.r2.list

/-- The four in order. -/
def Four.list {α : Type} (q : Four α) : List α := [q.v0, q.v1, q.v2, q.v3]

/-- Column 0, 1, 2 of a matrix. -/
def Mat3.c0 {α : Type} (m : Mat3 α) : Vec3 α := ⟨m.r0.e0, m.r1.e0, m.r2.e0⟩
/-- Column 1 of a matrix. -/
def Mat3.c1 {α : Type} (m : Mat3 α) : Vec3 α := ⟨m.r0.e1, m.r1.e1, m.r2.e1⟩
/-- Column 2 of a matrix. -/
def Mat3.c2 {α : Type} (m : Mat3 α) : Vec3 α := ⟨m.r0.e2, m.r1.e2, m.r2.e2⟩

/-! ### Layouts of commands and registers (R116 to R122, R25 to R37) -/

/-- A bit range of a word or a byte: its lowest bit and its width. -/
structure BitField where
  lo : Nat
  width : Nat
  deriving DecidableEq, Repr

/-- A field of a command: a contiguous bit range of one of its words (R123). -/
structure Field where
  word : Nat
  lo : Nat
  width : Nat
  deriving DecidableEq, Repr

/-- Where the six parts of a quad's vertex stand (R122). -/
structure VertexFields where
  x : Field
  y : Field
  z : Field
  n : Field
  u : Field
  v : Field
  deriving DecidableEq, Repr

/-- The operand fields of every command (R116 to R119, R121, R122), and the two discriminators of the first word (R115):
the low bit of `MATRIX_DISC`'s place and the bit that selects the long LIGHT. `normal` is the split of a packed normal and
`qsizeBit` the bit of PTRSET's `DATA` that selects the quad payload size (R122, R161). The three codes are the values of a
bit that name the high half (R117), the long LIGHT (R119) and the size 14 (R161). -/
structure Formats where
  ptrsetSel : Field
  ptrsetData : Field
  regw16Half : Field
  halfCode : Bool
  regw16Slot : Field
  regw16Data : Field
  regw32Slot : Field
  regw32Data : Field
  drawCount : Field
  drawAddr : Field
  chainCount : Field
  chainAddr : Field
  discLo : Nat
  m1 : Mat3 Field
  t1 : Vec3 Field
  m2a : Mat3 Field
  m2b : Mat3 Field
  t2 : Vec3 Field
  longBit : Nat
  longCode : Bool
  lights : Vec3 Field
  lightl : Vec3 Field
  q10 : Four VertexFields
  q14 : Four VertexFields
  normal : Vec3 BitField
  qsizeBit : Nat
  qsizeCode : Bool
  deriving DecidableEq, Repr

/-- The word counts `N_*` (R115). The counts of a matrix load, 8 and 13, and of a quad, 10 and 14, are fixed by the
source and no parameters (R7). -/
structure Counts where
  ptrset : Nat
  endModel : Nat
  chain : Nat
  drawmodel : Nat
  regw16 : Nat
  regw32 : Nat
  lights : Nat
  lightl : Nat
  clear : Nat
  deriving DecidableEq, Repr

/-- The fields of the register slots with a function: the bit number of a one-bit field, the bit range of another (R25,
R26, R30, R36, R37). The two indirect-access groups have one layout of their mode slots (R30). -/
structure RegFields where
  fifoRdyEn : Nat
  halfMode : Nat
  rbase : BitField
  dbase : BitField
  latch : Nat
  wthru : Nat
  autoInc : Nat
  trig : BitField
  htotal : BitField
  vtotal : BitField
  xs : BitField
  xe : BitField
  ys : BitField
  ye : BitField
  solid : BitField
  alpha : BitField
  fill : BitField
  texwL2 : BitField
  transEn : Nat
  transIdx : BitField
  zbias : BitField
  fixedZ : BitField
  deriving DecidableEq, Repr

/-- A function-valued field of the configuration, as plain data (log entry 2): the spec's default function, or another
one, by number. What another one computes is a free value, `Config.fxRoundOther` and its like. -/
inductive Hook where
  | standard
  | other (n : Nat)
  deriving DecidableEq, Repr

/-- Which texel of a 4-bit pair stands in the low nibble of its byte (R81): the first, of even number, or the second. -/
inductive NibbleOrder where
  | lowFirst
  | highFirst
  deriving DecidableEq, Repr

/-- The codes of the five fill modes in `FILL`; another code is unsupported (R37, R275). -/
structure FillCodes where
  solid : Nat
  solidFixedDepth : Nat
  shaded : Nat
  textured4 : Nat
  textured8 : Nat
  deriving DecidableEq, Repr

/-- The five codes. -/
def FillCodes.all (f : FillCodes) : List Nat := [f.solid, f.solidFixedDepth, f.shaded, f.textured4, f.textured8]

/-- The numbers of the pixel formats: the lowest bits of red, green and blue in a colour (R35) and in a palette entry
(R283), the widening of a palette channel (R283), the lanes of colour and depth in a bank B block (R83), the nibble order
(R81, R281), the fractional bits of a texture coordinate (R221, R280) and of the alpha factor (R278), the
factor that signals black (R278), the fill codes (R275). The widths of the channels are the source's (R35). -/
structure PixelLayout where
  channelLo : Vec3 Nat
  paletteLo : Vec3 Nat
  widen : Hook
  colorLane : Nat
  depthLane : Nat
  nibbles : NibbleOrder
  uvFrac : Nat
  alphaFrac : Nat
  alphaBlack : Nat
  fill : FillCodes
  deriving DecidableEq, Repr

namespace Machine

/-- The display geometry in force, `disp` (R31). -/
structure Disp where
  valid : Bool
  htotal : Nat
  vtotal : Nat
  xs : Nat
  xe : Nat
  ys : Nat
  ye : Nat
  deriving DecidableEq, Repr

/-- A geometry that is not valid, every other field 0 (R31, R41). -/
def Disp.none : Disp := ⟨false, 0, 0, 0, 0, 0, 0⟩

end Machine

/-- The values reset puts into the state (R41, R360). What the rules fix after reset is no field: the FIFO buffer is empty
(R29), no visible row is copied (R42 (c)), the streams have nothing in them (R33), the banks and the bitmap are arbitrary
(R361). The matrix has one value for each generation (log entry 16). -/
structure ResetValues where
  regs : Vector Word 128
  pTex : Word
  pPal : Word
  pQsize : QuadSize
  matFix : Mat3 Half
  matFlt : Mat3 Word
  trans : Vec3 Word
  light : Vec3 Half
  aux : Vec3 Word
  disp : Machine.Disp
  beamRow : Nat
  deriving DecidableEq, Repr

/-- The configuration record of R6. Its functions `fxRound`, `F32`, `lightIntensity`, `applyIntensity`, and the two wraps
of R170, are `Hook`s (log entry 2). `pix` and `screenBits` hold the numbers that R35, R81, R83, R241, R275, R278, R280 and
R283 write as decisions, `reset` the values of R41, which R6 makes fields. One set of lane tables cannot serve blocks of two sizes, so each bank has
its own, and nothing makes the two agree (DESIGN CHOICE, safe, log entry 19: R6 and R75 give one set of names and do not
say).
`pixclk` is numerator and denominator in hertz, none where it is not given (log entry 5). -/
structure Cfg where
  gen : Gen
  aW : Nat
  aH : Nat
  bW : Nat
  bH : Nat
  colBits : Nat
  aBytes : Nat
  bBytes : Nat
  lanesA : Lanes
  lanesB : Lanes
  nslots : Nat
  slot : Slots
  reg : RegFields
  fifoCap : Nat
  op : Opcodes
  counts : Counts
  fmt : Formats
  matrixDisc : Half
  psel : Selectors
  maxChain : Nat
  fxFrac : Nat
  fxRound : Hook
  wrap16 : Hook
  wrap32 : Hook
  f32 : Hook
  lightIntensity : Hook
  applyIntensity : Hook
  nearZ : Nat
  projF : Int
  projCX : Int
  projCY : Int
  subpix : Nat
  screenBits : Nat
  zshift : Nat
  depthMax : Nat
  clearColor : Color
  pix : PixelLayout
  pixclk : Option (Nat × Nat)
  unsupportedFill : UnsupportedFill
  reset : ResetValues
  deriving DecidableEq, Repr

/-- Width of a bank in blocks. -/
def Cfg.width (c : Cfg) : Bank → Nat
  | .bankA => c.aW
  | .bankB => c.bW

/-- Height of a bank in blocks. -/
def Cfg.height (c : Cfg) : Bank → Nat
  | .bankA => c.aH
  | .bankB => c.bH

/-- Bytes per block of a bank (R71). -/
def Cfg.blockBytes (c : Cfg) : Bank → Nat
  | .bankA => c.aBytes
  | .bankB => c.bBytes

/-- The lane order of a bank's blocks (R75): a set of tables for each bank (DESIGN CHOICE, safe, log entry 19). -/
def Cfg.lanes (c : Cfg) : Bank → Lanes
  | .bankA => c.lanesA
  | .bankB => c.lanesB

/-- The number of data registers of a bank's group, the block size divided by 4 (R30). -/
def Cfg.ndata (c : Cfg) (b : Bank) : Nat := c.blockBytes b / 4

/-- Whether an opcode byte is known in a context (R114). -/
def Cfg.opKnown (c : Cfg) (ctx : Ctx) (op : Byte) : Bool := (c.op.known ctx).contains op

/-- FREE VALUE (log entry 3). The byte that bank A holds after reset at a byte address: "arbitrary, fixed" (R41, R361). -/
opaque Config.resetByteA : Nat → Byte

/-- FREE VALUE (log entry 3). The byte that bank B holds after reset at a byte address: "arbitrary, fixed" (R41, R361). -/
opaque Config.resetByteB : Nat → Byte

/-- FREE VALUE (log entry 4). What pixel `(y, x)` of the output bitmap holds before a scanout writes it, for each reconfiguration
that brought the pixel into the bitmap (R32, R316): arguments are the number of that reconfiguration, `y`, `x`. -/
opaque Config.unwrittenPixel : Nat → Nat → Nat → Color

/-- The operations of the `F32` record on two binary32 values (R226). -/
inductive F32Op where
  | add
  | sub
  | mul
  | div
  deriving DecidableEq, Repr

/-- FREE VALUE (log entry 6). Sign and payload of the NaN an operation on two binary32 values gives: "a NaN result is
some NaN" (R226). -/
opaque Config.nanBits : F32Op → Word → Word → Word

/-- FREE VALUE (log entry 5). Where the configuration gives no pixel clock, `PIXCLK` in hertz is
`(pixclkNum + 1) / (pixclkDen + 1)`: a positive rational with no default (R6, R316). -/
opaque Config.pixclkNum : Nat

/-- FREE VALUE (log entry 5). See `Config.pixclkNum`. -/
opaque Config.pixclkDen : Nat

/-! ### The functions a configuration may choose (R6; log entry 2): the first argument is the number of the function -/

/-- FREE VALUE (log entry 2). `fxRound(v, n)` of a non-zero `v`: an integer (R6, R221). -/
opaque Config.fxRoundOther : Nat → Int → Nat → Int

/-- FREE VALUE (log entry 2). The 16-bit entry another wrap makes of an integer outside the 16-bit range (R170). -/
opaque Config.wrap16Other : Nat → Int → Half

/-- FREE VALUE (log entry 2). The 32-bit value another wrap makes of an integer outside the 32-bit range (R221, R170). -/
opaque Config.wrap32Other : Nat → Int → Word

/-- FREE VALUE (log entry 2). `add`, `sub`, `mul`, `div` of another `F32` record (R226). -/
opaque Config.f32Binary : Nat → F32Op → Word → Word → Word

/-- FREE VALUE (log entry 2). `ofInt` of another `F32` record (R226). -/
opaque Config.f32OfInt : Nat → Int → Word

/-- FREE VALUE (log entry 2). `ofRat` of another `F32` record, on `i / 2^n` (R226). -/
opaque Config.f32OfRat : Nat → Int → Nat → Word

/-- FREE VALUE (log entry 2). `ge` of another `F32` record (R226). -/
opaque Config.f32Ge : Nat → Word → Word → Bool

/-- FREE VALUE (log entry 2). `isFinite` of another `F32` record (R226). -/
opaque Config.f32IsFinite : Nat → Word → Bool

/-- FREE VALUE (log entry 2). `toIntFloor` of another `F32` record (R226). -/
opaque Config.f32ToIntFloor : Nat → Word → Int

/-- FREE VALUE (log entry 2). `lightIntensity(M, (X, Y, Z), L, n)`, "an integer 0 to 255" (R231). -/
opaque Config.lightIntensityOther : Nat → Mat3 Half → Vec3 Int → Vec3 Half → Byte → Byte

/-- FREE VALUE (log entry 2). `applyIntensity(col, I)` (R285). -/
opaque Config.applyIntensityOther : Nat → Color → Int → Color

/-- FREE VALUE (log entry 2). The 8-bit channel another widening makes of a palette channel in generation 2 (R283). -/
opaque Config.widenOther : Nat → Nat → Byte

/-- The byte a bank holds after reset at a byte address. -/
def Config.resetByte : Bank → Nat → Byte
  | .bankA => Config.resetByteA
  | .bankB => Config.resetByteB

end Sys2Proof
end

