-- ==== Sys2Proof/Machine/Bits.lean ====
section
/-! DEFINITION. Bit fields of words (R8, R9): halves, bytes, the packing of fields, the signed reading of small fields. -/

namespace Sys2Proof.Machine

/-- `w[15:0]`. -/
def lo16 (w : Word) : Half := w.extractLsb' 0 16

/-- `w[31:16]`. -/
def hi16 (w : Word) : Half := w.extractLsb' 16 16

/-- The word whose field at bit `k` holds `x`, other bits zero. -/
def place {n : Nat} (x : BitVec n) (k : Nat) : Word := x.setWidth 32 <<< k

/-- `{hi, lo}`: the word with the given halves. -/
def joinHalves (hi lo : Half) : Word := place hi 16 ||| place lo 0

/-- `{hi, lo}`: the halfword with the given bytes. -/
def joinBytes (hi lo : Byte) : Half := hi.setWidth 16 <<< 8 ||| lo.setWidth 16

/-- The word with the given bytes, least significant last. -/
def joinFour (b3 b2 b1 b0 : Byte) : Word := place b3 24 ||| place b2 16 ||| place b1 8 ||| place b0 0

/-- Byte `i` of a word, `w[8i+7 : 8i]`. -/
def byteOf (w : Word) (i : Nat) : Byte := w.extractLsb' (8 * i) 8

/-- The opcode byte of an opcode word, `w[31:24]` (R113). -/
def opOf (w : Word) : Byte := w.extractLsb' 24 8

/-- The field `w[lo+n-1 : lo]` as an unsigned integer (R8). -/
def fieldNat (w : Word) (lo n : Nat) : Nat := (w.extractLsb' lo n).toNat

/-- The field `w[lo+n-1 : lo]` as a two's-complement integer, `sext_n` (R8). -/
def fieldInt (w : Word) (lo n : Nat) : Int := (w.extractLsb' lo n).toInt

end Sys2Proof.Machine

namespace Sys2Proof

/-- The field of a word as an unsigned integer (R8). -/
def BitField.nat (f : BitField) (w : Word) : Nat := Machine.fieldNat w f.lo f.width

/-- The field of a word as a two's-complement integer (R8). -/
def BitField.int (f : BitField) (w : Word) : Int := Machine.fieldInt w f.lo f.width

end Sys2Proof
end

