-- ==== Sys2Proof/Syntax.lean ====
section
/-! DEFINITION. The syntax: one constructor of `Instr` per row of spec/opcode_table.json, with the operands its format
(R116 to R122) gives it. Ignored fields are no operands (R113). -/

namespace Sys2Proof

/-- An input vertex `(x, y, z, n, U, V)` as the command words carry it (R220). -/
structure InVertex where
  x : Half
  y : Half
  z : Half
  n : Byte
  u : Byte
  v : Byte
  deriving DecidableEq, Repr

/-- The four vertices of a quad, numbered "0 to 3 in order round the quad" (R122). -/
abbrev Quad := Four InVertex

/-- The commands: one constructor per row of spec/opcode_table.json. -/
inductive Instr where
  /-- PTRSET (R116, R161). -/
  | ptrset (sel : BitVec 24) (data : Word)
  /-- END, the end-of-model terminator (R121, R196). -/
  | endModel
  /-- CHAIN (R121, R197). -/
  | chain (count : Half) (addr : Word)
  /-- DRAWMODEL (R121, R190). -/
  | drawmodel (count : Half) (addr : Word)
  /-- REGW16 (R117, R164); `high` is the field `HALF`. -/
  | regw16 (high : Bool) (slot : SlotNo) (data : Half)
  /-- REGW32 (R117, R166). -/
  | regw32 (slot : SlotNo) (data : Word)
  /-- MATRIX1, the single-matrix form (R118, R168, R169). -/
  | matrix1 (m : Mat3 Half) (t : Vec3 Word)
  /-- MATRIX2, the two-matrix form (R118, R170). -/
  | matrix2 (a : Mat3 Half) (b : Mat3 Half) (t : Vec3 Word)
  /-- LIGHTS, the short form of LIGHT (R119, R172). -/
  | lights (l : Vec3 Half)
  /-- LIGHTL, the long form of LIGHT (R119, R173). -/
  | lightl (a : Vec3 Word)
  /-- CLEAR (R121, R175). -/
  | clear
  /-- QUAD in layout Q10 (R122, R200). -/
  | quadQ10 (q : Quad)
  /-- QUAD in layout Q14 (R122, R200). -/
  | quadQ14 (q : Quad)
  /-- A word whose opcode is not known in the FIFO context (R120). -/
  | unknownFifo (w : Word)
  /-- A word whose opcode is not known in the model-list context (R120, R195). -/
  | unknownModel (w : Word)
  deriving DecidableEq, Repr

end Sys2Proof
end

