-- ==== Sys2Proof/Machine/Formats.lean ====
section
/-! DEFINITION. The layouts of the commands (R113 to R122), read from the configuration: the length and the fields of each
format, the operands an instruction puts into its fields, and how a field is read and written. Every number is the
configuration's (R2, R6); the opcode byte at `w[31:24]` is the source's own (R110). -/

namespace Sys2Proof

open Sys2Proof.Machine

/-- The formats of a command, two of each that has two (R115). -/
inductive Format where
  | ptrset
  | endModel
  | chain
  | drawmodel
  | regw16
  | regw32
  | matrix1
  | matrix2
  | lights
  | lightl
  | clear
  | quadQ10
  | quadQ14
  | unknown
  deriving DecidableEq, Repr

/-! ### Colours (R2, R35) -/

/-- The bits of a colour channel: 5-5-5 in generation 1, 8-8-8 in generation 2. -/
def channelWidth : Gen → Nat
  | .gen1 => 5
  | .gen2 => 8

/-- The bits of a colour value. -/
def colourWidth : Gen → Nat
  | .gen1 => 16
  | .gen2 => 32

/-! ### Fields -/

/-- `zext` or `sext` of a field to the width of its operand (R8, R123). -/
def extend (signed : Bool) (n : Nat) {w : Nat} (x : BitVec w) : BitVec n :=
  if signed then x.signExtend n else x.setWidth n

/-- The operand a field holds in the words of a command, sign-extended where it is signed (R123). -/
def Field.read (f : Field) (signed : Bool) (n : Nat) (ws : List Word) : BitVec n :=
  extend signed n ((ws.getD f.word 0).extractLsb' f.lo f.width)

/-- Two fields share no bit. -/
abbrev Field.apart (f g : Field) : Prop := f.word ≠ g.word ∨ f.lo + f.width ≤ g.lo ∨ g.lo + g.width ≤ f.lo

/-- The field lies in the first `n` words. -/
abbrev Field.inside (n : Nat) (f : Field) : Prop := f.word < n ∧ f.lo + f.width ≤ 32

/-- The opcode byte (R113). -/
def Field.opcode : Field := ⟨0, 24, 8⟩

/-- The whole of a word. -/
def Field.whole (word : Nat) : Field := ⟨word, 0, 32⟩

/-- The place of the matrix discriminator in the first word, 16 bits (R115, R118). -/
def Formats.disc (t : Formats) : Field := ⟨0, t.discLo, 16⟩

/-- The place of the bit that selects the long LIGHT (R115, R119). -/
def Formats.long (t : Formats) : Field := ⟨0, t.longBit, 1⟩

/-- The fields of a vertex. -/
def VertexFields.list (p : VertexFields) : List Field := [p.x, p.y, p.z, p.n, p.u, p.v]

/-! ### Formats -/

/-- The words a format has: the counts `N_*`, and the lengths the source fixes (R7, R115). A command has one or more words
(R110). -/
def Cfg.count (c : Cfg) : Format → Nat
  | .ptrset => max 1 c.counts.ptrset
  | .endModel => max 1 c.counts.endModel
  | .chain => max 1 c.counts.chain
  | .drawmodel => max 1 c.counts.drawmodel
  | .regw16 => max 1 c.counts.regw16
  | .regw32 => max 1 c.counts.regw32
  | .matrix1 => 8
  | .matrix2 => 13
  | .lights => max 1 c.counts.lights
  | .lightl => max 1 c.counts.lightl
  | .clear => max 1 c.counts.clear
  | .quadQ10 => QuadSize.q10.words
  | .quadQ14 => QuadSize.q14.words
  | .unknown => 1

/-- The fields of a format, the opcode byte and a discriminator among them. The discriminator of a MATRIX1 is its entry
[0][2] (R118). -/
def Cfg.fields (c : Cfg) : Format → List Field
  | .ptrset => [.opcode, c.fmt.ptrsetSel, c.fmt.ptrsetData]
  | .endModel => [.opcode]
  | .chain => [.opcode, c.fmt.chainCount, c.fmt.chainAddr]
  | .drawmodel => [.opcode, c.fmt.drawCount, c.fmt.drawAddr]
  | .regw16 => [.opcode, c.fmt.regw16Half, c.fmt.regw16Slot, c.fmt.regw16Data]
  | .regw32 => [.opcode, c.fmt.regw32Slot, c.fmt.regw32Data]
  | .matrix1 => .opcode :: (c.fmt.m1.list ++ c.fmt.t1.list)
  | .matrix2 => .opcode :: c.fmt.disc :: (c.fmt.m2a.list ++ c.fmt.m2b.list ++ c.fmt.t2.list)
  | .lights => .opcode :: c.fmt.long :: c.fmt.lights.list
  | .lightl => .opcode :: c.fmt.long :: c.fmt.lightl.list
  | .clear => [.opcode]
  | .quadQ10 => .opcode :: c.fmt.q10.list.flatMap VertexFields.list
  | .quadQ14 => .opcode :: c.fmt.q14.list.flatMap VertexFields.list
  | .unknown => [.whole 0]

/-- The format of an instruction. -/
def Instr.format : Instr → Format
  | .ptrset _ _ => .ptrset
  | .endModel => .endModel
  | .chain _ _ => .chain
  | .drawmodel _ _ => .drawmodel
  | .regw16 _ _ _ => .regw16
  | .regw32 _ _ => .regw32
  | .matrix1 _ _ => .matrix1
  | .matrix2 _ _ _ => .matrix2
  | .lights _ => .lights
  | .lightl _ => .lightl
  | .clear => .clear
  | .quadQ10 _ => .quadQ10
  | .quadQ14 _ => .quadQ14
  | .unknownFifo _ => .unknown
  | .unknownModel _ => .unknown

/-! ### Operands -/

/-- A value and the field it is written into. -/
structure Operand where
  field : Field
  signed : Bool
  size : Nat
  value : BitVec size

/-- The bits that go into the field. -/
def Operand.bits (o : Operand) : BitVec o.field.width := o.value.setWidth o.field.width

/-- The field is wide enough for the value: reading it back gives the value. -/
def Operand.fits (o : Operand) : Bool := extend o.signed o.size o.bits == o.value

/-- An unsigned operand (R123). -/
def Field.unsigned {n : Nat} (f : Field) (x : BitVec n) : Operand := ⟨f, false, n, x⟩

/-- A two's-complement operand (R123). -/
def Field.twos {n : Nat} (f : Field) (x : BitVec n) : Operand := ⟨f, true, n, x⟩

/-- The operands of a vector, each by `mk`. -/
def Vec3.operands {α : Type} (mk : Field → α → Operand) (f : Vec3 Field) (v : Vec3 α) : List Operand :=
  [mk f.e0 v.e0, mk f.e1 v.e1, mk f.e2 v.e2]

/-- The operands of a matrix. -/
def Mat3.operands {α : Type} (mk : Field → α → Operand) (f : Mat3 Field) (m : Mat3 α) : List Operand :=
  Vec3.operands mk f.r0 m.r0 ++ Vec3.operands mk f.r1 m.r1 ++ Vec3.operands mk f.r2 m.r2

/-- The operands of a vertex. -/
def VertexFields.operands (f : VertexFields) (p : InVertex) : List Operand :=
  [f.x.twos p.x, f.y.twos p.y, f.z.twos p.z, f.n.unsigned p.n, f.u.unsigned p.u, f.v.unsigned p.v]

/-- The operands of a quad. -/
def Four.operands (f : Four VertexFields) (q : Quad) : List Operand :=
  f.v0.operands q.v0 ++ f.v1.operands q.v1 ++ f.v2.operands q.v2 ++ f.v3.operands q.v3

/-- What an instruction writes into the fields of its format, in the order of `Cfg.fields`. -/
def Instr.operands (c : Cfg) : Instr → List Operand
  | .ptrset sel data => [Field.opcode.unsigned c.op.ptrset, c.fmt.ptrsetSel.unsigned sel, c.fmt.ptrsetData.unsigned data]
  | .endModel => [Field.opcode.unsigned c.op.endModel]
  | .chain count addr =>
    [Field.opcode.unsigned c.op.chain, c.fmt.chainCount.unsigned count, c.fmt.chainAddr.unsigned addr]
  | .drawmodel count addr =>
    [Field.opcode.unsigned c.op.drawmodel, c.fmt.drawCount.unsigned count, c.fmt.drawAddr.unsigned addr]
  | .regw16 high slot data =>
    [Field.opcode.unsigned c.op.regw16, c.fmt.regw16Half.unsigned (BitVec.ofBool (high == c.fmt.halfCode)),
     c.fmt.regw16Slot.unsigned slot, c.fmt.regw16Data.unsigned data]
  | .regw32 slot data =>
    [Field.opcode.unsigned c.op.regw32, c.fmt.regw32Slot.unsigned slot, c.fmt.regw32Data.unsigned data]
  | .matrix1 m t =>
    Field.opcode.unsigned c.op.matrix :: (Mat3.operands Field.twos c.fmt.m1 m ++ Vec3.operands Field.twos c.fmt.t1 t)
  | .matrix2 a b t =>
    Field.opcode.unsigned c.op.matrix :: c.fmt.disc.unsigned c.matrixDisc ::
      (Mat3.operands Field.twos c.fmt.m2a a ++ Mat3.operands Field.twos c.fmt.m2b b ++
        Vec3.operands Field.twos c.fmt.t2 t)
  | .lights l =>
    Field.opcode.unsigned c.op.light :: c.fmt.long.unsigned (BitVec.ofBool !c.fmt.longCode) :: Vec3.operands Field.twos c.fmt.lights l
  | .lightl a =>
    Field.opcode.unsigned c.op.light :: c.fmt.long.unsigned (BitVec.ofBool c.fmt.longCode) :: Vec3.operands Field.unsigned c.fmt.lightl a
  | .clear => [Field.opcode.unsigned c.op.clear]
  | .quadQ10 q => Field.opcode.unsigned c.op.quad :: Four.operands c.fmt.q10 q
  | .quadQ14 q => Field.opcode.unsigned c.op.quad :: Four.operands c.fmt.q14 q
  | .unknownFifo w => [(Field.whole 0).unsigned w]
  | .unknownModel w => [(Field.whole 0).unsigned w]

/-- Word `j` of a command with the given operands, every bit outside their fields zero (R125). -/
def operandWord : List Operand → Nat → Word
  | [], _ => 0
  | o :: r, j => (if o.field.word = j then place o.bits o.field.lo else 0) ||| operandWord r j

/-- The `n` words of a command with the given operands. -/
def operandWords (n : Nat) (os : List Operand) : List Word := (List.range n).map (operandWord os)

end Sys2Proof
end

