-- ==== Sys2Proof/Machine/Params.lean ====
section
/-! DEFINITION. The default configuration: the default column of R6, the slots of R24, the opcode bytes of R114, the counts
of R115, the layouts of R116 to R122, the register fields of R25 to R37, the pixel formats
of R35, R83 and R275 to R283, the reset values of R41, the little-endian lane tables of R75. The
generation has no default and is the argument (R2). -/

namespace Sys2Proof.Machine

/-- The little-endian identity lane tables of a block of `nb` bytes (R75). -/
def identityLanes (nb : Nat) : Lanes where
  lane8 := List.range nb
  lane16 := (List.range (nb / 2)).map (fun k => (2 * k, 2 * k + 1))
  lane32 := (List.range (nb / 4)).map (fun k => (4 * k, 4 * k + 1, 4 * k + 2, 4 * k + 3))

/-- The default slot numbers (R24). -/
def defaultSlots : Slots where
  color := 0x00
  alpha := 0x27
  texmode := 0x2F
  zbias := 0x3F
  ctrl := 0x40
  page := 0x42
  ibD0 := 0x50
  ibD1 := 0x51
  ibD2 := 0x52
  ibAddr := 0x53
  ibMode := 0x54
  iaD0 := 0x58
  iaD1 := 0x59
  iaAddr := 0x5A
  iaMode := 0x5B
  tTotal := 0x60
  tHvis := 0x61
  tVvis := 0x62
  fifo := 0x70

/-- The default opcode bytes (R114). -/
def defaultOpcodes : Opcodes where
  ptrset := 0x01
  endModel := 0x08
  chain := 0x0C
  drawmodel := 0x13
  regw16 := 0x17
  regw32 := 0x18
  matrix := 0x1C
  light := 0x23
  clear := 0x25
  quad := 0x38

/-- The default pointer-slot selectors (R116). -/
def defaultSelectors : Selectors where
  rt := 1
  tex := 2
  pal := 3
  qsize := 4

/-- The default word counts (R115). -/
def defaultCounts : Counts where
  ptrset := 2
  endModel := 1
  chain := 2
  drawmodel := 2
  regw16 := 1
  regw32 := 2
  lights := 2
  lightl := 4
  clear := 1

/-- `w(word)[15:0]`. -/
def loField (word : Nat) : Field := ⟨word, 0, 16⟩

/-- `w(word)[31:16]`. -/
def hiField (word : Nat) : Field := ⟨word, 16, 16⟩

/-- The halfword `h[j]` of a two-matrix load: `h[2k] = w(1+k)[15:0]`, `h[2k+1] = w(1+k)[31:16]` (R118). -/
def halfwordField (j : Nat) : Field := ⟨1 + j / 2, 16 * (j % 2), 16⟩

/-- The matrix whose entry `[r][c]` is the halfword `h[first+3r+c]` (R118). -/
def halfwordMatrix (first : Nat) : Mat3 Field :=
  ⟨⟨halfwordField first, halfwordField (first + 1), halfwordField (first + 2)⟩,
   ⟨halfwordField (first + 3), halfwordField (first + 4), halfwordField (first + 5)⟩,
   ⟨halfwordField (first + 6), halfwordField (first + 7), halfwordField (first + 8)⟩⟩

/-- Three whole words from a word on. -/
def wholeWords (word : Nat) : Vec3 Field := ⟨.whole word, .whole (word + 1), .whole (word + 2)⟩

/-- A vertex whose `x` and `y` stand in word `word`, `z`, `U`, `V` in the next, and its normal in the field given
(R122). -/
def vertexFields (word : Nat) (normal : Field) : VertexFields where
  x := loField word
  y := hiField word
  z := loField (word + 1)
  n := normal
  u := ⟨word + 1, 16, 8⟩
  v := ⟨word + 1, 24, 8⟩

/-- Vertex `i` of layout Q10 (R122). -/
def q10Fields (i : Nat) : VertexFields := vertexFields (2 + 2 * i) ⟨1, 8 * i, 8⟩

/-- Vertex `i` of layout Q14 (R122). -/
def q14Fields (i : Nat) : VertexFields := vertexFields (2 + 3 * i) ⟨4 + 3 * i, 0, 8⟩

/-- The default layouts of the commands (R116 to R122). -/
def defaultFormats : Formats where
  ptrsetSel := ⟨0, 0, 24⟩
  ptrsetData := .whole 1
  regw16Half := ⟨0, 23, 1⟩
  halfCode := true
  regw16Slot := ⟨0, 16, 7⟩
  regw16Data := loField 0
  regw32Slot := ⟨0, 16, 7⟩
  regw32Data := .whole 1
  drawCount := loField 0
  drawAddr := .whole 1
  chainCount := loField 0
  chainAddr := .whole 1
  discLo := 0
  m1 := ⟨⟨loField 2, hiField 2, loField 0⟩, ⟨loField 3, hiField 3, hiField 1⟩, ⟨loField 4, hiField 4, loField 1⟩⟩
  t1 := wholeWords 5
  m2a := halfwordMatrix 0
  m2b := halfwordMatrix 9
  t2 := wholeWords 10
  longBit := 23
  longCode := true
  lights := ⟨loField 0, hiField 1, loField 1⟩
  lightl := wholeWords 1
  q10 := ⟨q10Fields 0, q10Fields 1, q10Fields 2, q10Fields 3⟩
  q14 := ⟨q14Fields 0, q14Fields 1, q14Fields 2, q14Fields 3⟩
  normal := ⟨⟨5, 3⟩, ⟨2, 3⟩, ⟨0, 2⟩⟩
  qsizeBit := 0
  qsizeCode := true

/-- The default width of `SOLID`: 16 bits in generation 1, 24 in generation 2 (R37). -/
def defaultSolidWidth : Gen → Nat
  | .gen1 => 16
  | .gen2 => 24

/-- The default fields of the register slots (R25, R26, R30, R36, R37). -/
def defaultRegFields (g : Gen) : RegFields where
  fifoRdyEn := 25
  halfMode := 17
  rbase := ⟨0, 16⟩
  dbase := ⟨16, 16⟩
  latch := 0
  wthru := 1
  autoInc := 2
  trig := ⟨4, 2⟩
  htotal := ⟨0, 16⟩
  vtotal := ⟨16, 16⟩
  xs := ⟨0, 16⟩
  xe := ⟨16, 16⟩
  ys := ⟨0, 16⟩
  ye := ⟨16, 16⟩
  solid := ⟨0, defaultSolidWidth g⟩
  alpha := ⟨0, 8⟩
  fill := ⟨0, 3⟩
  texwL2 := ⟨4, 4⟩
  transEn := 8
  transIdx := ⟨16, 8⟩
  zbias := ⟨16, 16⟩
  fixedZ := ⟨0, 16⟩

/-- The default fill codes (R37, R275). -/
def defaultFillCodes : FillCodes where
  solid := 0
  solidFixedDepth := 1
  shaded := 2
  textured4 := 3
  textured8 := 4

/-- The default pixel formats (R35, R83, R278, R280, R281, R283). -/
def defaultPixels : Gen → PixelLayout
  | .gen1 =>
    { channelLo := ⟨10, 5, 0⟩, paletteLo := ⟨10, 5, 0⟩, widen := .standard, colorLane := 0, depthLane := 1
      nibbles := .lowFirst, uvFrac := 8, alphaFrac := 8, alphaBlack := 0, fill := defaultFillCodes }
  | .gen2 =>
    { channelLo := ⟨16, 8, 0⟩, paletteLo := ⟨10, 5, 0⟩, widen := .standard, colorLane := 0, depthLane := 2
      nibbles := .lowFirst, uvFrac := 8, alphaFrac := 8, alphaBlack := 0, fill := defaultFillCodes }

/-- The default reset value of `P_QSIZE` (R41). -/
def defaultQsize : Gen → QuadSize
  | .gen1 => .q10
  | .gen2 => .q14

/-- The default reset values (R41). -/
def defaultReset (g : Gen) : ResetValues where
  regs := Vector.replicate 128 0
  pTex := 0
  pPal := 0
  pQsize := defaultQsize g
  matFix := .all 0
  matFlt := .all 0
  trans := .all 0
  light := .all 0
  aux := .all 0
  disp := .none
  beamRow := 0

/-- `B_BYTES`: 8 in generation 1, 12 in generation 2 (R6, R71). -/
def defaultBBytes : Gen → Nat
  | .gen1 => 8
  | .gen2 => 12

/-- The default configuration of a generation (R6). -/
def defaultCfg (g : Gen) : Cfg where
  gen := g
  aW := 512
  aH := 2048
  bW := 512
  bH := 512
  colBits := 16
  aBytes := 8
  bBytes := defaultBBytes g
  lanesA := identityLanes 8
  lanesB := identityLanes (defaultBBytes g)
  nslots := 128
  slot := defaultSlots
  reg := defaultRegFields g
  fifoCap := 20
  op := defaultOpcodes
  counts := defaultCounts
  fmt := defaultFormats
  matrixDisc := 0x7FFF
  psel := defaultSelectors
  maxChain := 16
  fxFrac := 14
  fxRound := .standard
  wrap16 := .standard
  wrap32 := .standard
  f32 := .standard
  lightIntensity := .standard
  applyIntensity := .standard
  nearZ := 512
  projF := 512
  projCX := 256
  projCY := 200
  subpix := 4
  screenBits := 30
  zshift := 0
  depthMax := 0x7FFF
  clearColor := 0
  pix := defaultPixels g
  pixclk := none
  unsupportedFill := .skip
  reset := defaultReset g

end Sys2Proof.Machine
end

