-- ==== Sys2Proof/WellFormed.lean ====
section
/-! DEFINITION. Which configurations are legal, and which instructions some sequence of words encodes under one. Most
operands are free; an operand must fit its field, the entry [0][2] of a single-matrix load cannot be the discriminator
(R118), and the opcode byte of an unknown word is not known in its context (R120). -/

namespace Sys2Proof

/-- A table that uses every byte position of a block of `nb` bytes exactly once (R75). -/
structure Lanes.Wf (l : Lanes) (nb : Nat) : Prop where
  perm8 : l.lane8.Perm (List.range nb)
  perm16 : (l.lane16.flatMap (fun p => [p.1, p.2])).Perm (List.range nb)
  perm32 : (l.lane32.flatMap (fun p => [p.1, p.2.1, p.2.2.1, p.2.2.2])).Perm (List.range nb)

/-- The fields of a command of `n` words lie in them and share no bit. -/
structure FieldsWf (n : Nat) (fs : List Field) : Prop where
  apart : fs.Pairwise Field.apart
  inside : ∀ f ∈ fs, Field.inside n f

/-- What the register fields must satisfy: a timing value has at most 16 bits (R36), a generation-1 colour
at most 16 (R35). -/
structure RegFields.Wf (r : RegFields) (g : Gen) : Prop where
  timing_le : ∀ f ∈ [r.htotal, r.vtotal, r.xs, r.xe, r.ys, r.ye], f.width ≤ 16
  solid_le : g = .gen1 → r.solid.width ≤ 16

/-- What the pixel formats must satisfy: the channels lie in a colour of the generation and in a 16-bit palette entry, and
share no bit (R35, R283); colour and depth have lanes of a block of `nb` bytes, different ones in generation 1 (R83; for
generation 2 see `Cfg.Wf.pixel_disjoint`); the fill codes differ (R275). -/
structure PixelLayout.Wf (p : PixelLayout) (g : Gen) (nb : Nat) : Prop where
  channels_apart : (p.channelLo.list.map (fun lo => Field.mk 0 lo (channelWidth g))).Pairwise Field.apart
  channels_inside : ∀ lo ∈ p.channelLo.list, lo + channelWidth g ≤ colourWidth g
  palette_apart : (p.paletteLo.list.map (fun lo => Field.mk 0 lo 5)).Pairwise Field.apart
  palette_inside : ∀ lo ∈ p.paletteLo.list, lo + 5 ≤ 16
  colorLane_lt : p.colorLane < nb / (colourWidth g / 8)
  depthLane_lt : p.depthLane < nb / 2
  lanes_ne : g = .gen1 → p.colorLane ≠ p.depthLane
  fill_nodup : p.fill.all.Nodup

/-- What a configuration must satisfy: the bank dimensions of R72, the block sizes R71 and R83 need, the lane tables of
R75, a colour and a depth that share no byte (R83), 128 register slots (R21, R140), pairwise distinct slots, opcodes and
selectors (R24, R114, R161), fields that lie in their commands and share no bit, commands of at most 14 words (R29), the
matrix discriminator in the place of the entry [0][2] (R118), no valid geometry at reset (R31), the bounds of R6 (DEDUCED in part, safe, log entry 12). -/
structure Cfg.Wf (c : Cfg) : Prop where
  colBits_pos : 1 ≤ c.colBits
  colBits_le : c.colBits ≤ 31
  width_pos : ∀ b, 0 < c.width b
  width_le : ∀ b, c.width b ≤ 2 ^ c.colBits
  height_pos : ∀ b, 0 < c.height b
  height_le : ∀ b, c.height b ≤ 2 ^ (32 - c.colBits)
  aBytes_eq : c.aBytes = 4 ∨ c.aBytes = 8
  bBytes_eq : c.bBytes = 8 ∨ c.bBytes = 12
  lanes_wf : ∀ b, (c.lanes b).Wf (c.blockBytes b)
  pix_wf : c.pix.Wf c.gen c.bBytes
  pixel_disjoint : c.gen = .gen2 → ∀ p ∈ c.lanesB.lane32[c.pix.colorLane]?, ∀ q ∈ c.lanesB.lane16[c.pix.depthLane]?,
    List.Disjoint [p.1, p.2.1, p.2.2.1, p.2.2.2] [q.1, q.2]
  nslots_eq : c.nslots = 128
  slots_nodup : c.slot.all.Nodup
  reg_wf : c.reg.Wf c.gen
  alpha_le : c.reg.alpha.width ≤ c.pix.alphaFrac
  ops_nodup : c.op.all.Nodup
  fields_wf : ∀ f, FieldsWf (c.count f) (c.fields f)
  count_le : ∀ f, c.count f ≤ 14
  disc_place : c.fmt.m1.r0.e2 = c.fmt.disc
  psel_nodup : [c.psel.rt, c.psel.tex, c.psel.pal, c.psel.qsize].Nodup
  fifoCap_ge : 14 ≤ c.fifoCap
  nearZ_pos : 1 ≤ c.nearZ
  depthMax_le : c.depthMax ≤ 0x7FFF
  reset_invalid : c.reset.disp.valid = false
  pixclk_pos : ∀ p ∈ c.pixclk, 0 < p.1 ∧ 0 < p.2

/-- The first word of the instruction tells its format (R118, R120). -/
def Instr.formatShows (c : Cfg) : Instr → Bool
  | .ptrset _ _ => true
  | .endModel => true
  | .chain _ _ => true
  | .drawmodel _ _ => true
  | .regw16 _ _ _ => true
  | .regw32 _ _ => true
  | .matrix1 m _ => m.r0.e2 != c.matrixDisc
  | .matrix2 _ _ _ => true
  | .lights _ => true
  | .lightl _ => true
  | .clear => true
  | .quadQ10 _ => true
  | .quadQ14 _ => true
  | .unknownFifo w => !c.opKnown .fifo (w.extractLsb' 24 8)
  | .unknownModel w => !c.opKnown .model (w.extractLsb' 24 8)

/-- Some words decode to the instruction, under the configuration `c`: every operand fits its field (under the default
layouts every value does) and the first word tells the format. -/
def Instr.wf (c : Cfg) (i : Instr) : Bool := (i.operands c).all Operand.fits && i.formatShows c

/-- The instruction can be met in the context (R111, R114). -/
def Instr.inCtx : Instr → Ctx → Bool
  | .ptrset _ _, _ => true
  | .endModel, ctx => ctx == .model
  | .chain _ _, ctx => ctx == .model
  | .drawmodel _ _, ctx => ctx == .fifo
  | .regw16 _ _ _, _ => true
  | .regw32 _ _, _ => true
  | .matrix1 _ _, _ => true
  | .matrix2 _ _ _, _ => true
  | .lights _, _ => true
  | .lightl _, _ => true
  | .clear, _ => true
  | .quadQ10 _, _ => true
  | .quadQ14 _, _ => true
  | .unknownFifo _, ctx => ctx == .fifo
  | .unknownModel _, ctx => ctx == .model

/-- The instruction can be met under a quad payload size: a QUAD only in the layout the size selects (R115, R122). -/
def Instr.underSize : Instr → QuadSize → Bool
  | .quadQ10 _, q => q == .q10
  | .quadQ14 _, q => q == .q14
  | _, _ => true

end Sys2Proof
end

