-- ==== Sys2Proof/Decode.lean ====
section
/-! DEFINITION. The command decoder (R110 to R124), total on any list of words and rejecting by name, the count table
`need` (R115), the encoder, and the host's decoding of one opcode-table word. -/

namespace Sys2Proof

open Sys2Proof.Machine

/-- Why a list of words is not yet a command. -/
inductive DecodeError where
  /-- There is no word to decode. -/
  | noWord
  /-- The command its first word opens is longer than the list (R110); argument: the words it needs. -/
  | incomplete (need : Nat)
  deriving DecidableEq, Repr

/-- The format the first word of a command opens in a context (R110, R114, R115). The quad's layout is the pointer slot
`P_QSIZE`'s. -/
def formatOf (c : Cfg) (ctx : Ctx) (q : QuadSize) (w0 : Word) : Format :=
  let op := opOf w0
  if !c.opKnown ctx op then .unknown
  else if op = c.op.ptrset then .ptrset
  else if op = c.op.endModel then .endModel
  else if op = c.op.chain then .chain
  else if op = c.op.drawmodel then .drawmodel
  else if op = c.op.regw16 then .regw16
  else if op = c.op.regw32 then .regw32
  else if op = c.op.matrix then
    (if w0.extractLsb' c.fmt.discLo 16 = c.matrixDisc then .matrix2 else .matrix1)
  else if op = c.op.light then 
    (if w0.getLsbD c.fmt.longBit = c.fmt.longCode then .lightl else .lights)
  else if op = c.op.clear then .clear
  else
    match q with
    | .q10 => .quadQ10
    | .q14 => .quadQ14

/-- The count table `need(w0)` of a context (R115). -/
def need (c : Cfg) (ctx : Ctx) (q : QuadSize) (w0 : Word) : Nat := c.count (formatOf c ctx q w0)

/-- A vertex, from the words of its command (R122, R123). -/
def VertexFields.read (f : VertexFields) (ws : List Word) : InVertex where
  x := f.x.read true 16 ws
  y := f.y.read true 16 ws
  z := f.z.read true 16 ws
  n := f.n.read false 8 ws
  u := f.u.read false 8 ws
  v := f.v.read false 8 ws

/-- A word whose opcode byte is not known in the context (R120). -/
def unknownIn : Ctx → Word → Instr
  | .fifo, w => .unknownFifo w
  | .model, w => .unknownModel w

/-- The instruction of a format whose words these are (R116 to R123). -/
def readFormat (c : Cfg) (ctx : Ctx) (ws : List Word) : Format → Instr
  | .ptrset => .ptrset (c.fmt.ptrsetSel.read false 24 ws) (c.fmt.ptrsetData.read false 32 ws)
  | .endModel => .endModel
  | .chain => .chain (c.fmt.chainCount.read false 16 ws) (c.fmt.chainAddr.read false 32 ws)
  | .drawmodel => .drawmodel (c.fmt.drawCount.read false 16 ws) (c.fmt.drawAddr.read false 32 ws)
  | .regw16 =>
    .regw16 ((c.fmt.regw16Half.read false 1 ws).getLsbD 0 == c.fmt.halfCode) (c.fmt.regw16Slot.read false 7 ws)
      (c.fmt.regw16Data.read false 16 ws)
  | .regw32 => .regw32 (c.fmt.regw32Slot.read false 7 ws) (c.fmt.regw32Data.read false 32 ws)
  | .matrix1 => .matrix1 (c.fmt.m1.map (fun f => f.read true 16 ws)) (c.fmt.t1.map (fun f => f.read true 32 ws))
  | .matrix2 =>
    .matrix2 (c.fmt.m2a.map (fun f => f.read true 16 ws)) (c.fmt.m2b.map (fun f => f.read true 16 ws))
      (c.fmt.t2.map (fun f => f.read true 32 ws))
  | .lights => .lights (c.fmt.lights.map (fun f => f.read true 16 ws))
  | .lightl => .lightl (c.fmt.lightl.map (fun f => f.read false 32 ws))
  | .clear => .clear
  | .quadQ10 => .quadQ10 (c.fmt.q10.map (fun f => f.read ws))
  | .quadQ14 => .quadQ14 (c.fmt.q14.map (fun f => f.read ws))
  | .unknown => unknownIn ctx (ws.headD 0)

/-- The command that begins a list of words, and the words after it. The first word alone tells the length (R110). -/
def decode (c : Cfg) (ctx : Ctx) (q : QuadSize) (ws : List Word) : Except DecodeError (Instr × List Word) :=
  match ws with
  | [] => .error .noWord
  | w0 :: r =>
    let n := need c ctx q w0
    if r.length + 1 < n then .error (.incomplete n)
    else .ok (readFormat c ctx (w0 :: r) (formatOf c ctx q w0), (w0 :: r).drop n)

/-- The words of an instruction, every ignored field zero (R116 to R122, R125). -/
def encode (c : Cfg) (i : Instr) : List Word := operandWords (c.count i.format) (i.operands c)

/-- The first `n` 32-bit words of a string of `nbits` bits whose bit 0 is the least significant bit of the first word;
every bit from `nbits` up is zero. -/
def wordsOf : Nat → Nat → Nat → List Word
  | 0, _, _ => []
  | n + 1, nbits, w => BitVec.ofNat 32 (w % 2 ^ min nbits 32) :: wordsOf n (nbits - 32) (w >>> 32)

/-- The context an opcode-table word is read in: the model list where only the model list knows its opcode byte
(END, CHAIN), the FIFO otherwise (DESIGN CHOICE, safe, log entry 10). -/
def tableCtx (c : Cfg) (w0 : Word) : Ctx :=
  if !c.opKnown .fifo (opOf w0) && c.opKnown .model (opOf w0) then .model else .fifo

/-- The quad payload size an opcode-table word is read under: 14 where the table gives more bits than ten words. -/
def tableSize (nbits : Nat) : QuadSize := if nbits > 320 then .q14 else .q10

/-- The instruction the decoder reads from an opcode-table word under the default generation-1 configuration; every bit
from `nbits` up is zero, up to the fourteen words of the longest command. -/
def decodeTableWord (nbits w : Nat) : Option Instr :=
  let ws := wordsOf 14 nbits w
  let c := defaultCfg .gen1
  match decode c (tableCtx c (ws.headD 0)) (tableSize nbits) ws with
  | .ok (i, _) => some i
  | .error _ => none

end Sys2Proof
end

