-- ==== Sys2Proof/Machine/Arith.lean ====
section
/-! DEFINITION. Integer arithmetic of the spec's notation (R8), and the rounding `fxRound` and the two wraps of generation 1,
which are fields of the configuration (R6, R170, R221, D28). -/

namespace Sys2Proof.Machine

/-- `floor(a / b)`, used only where `b ≠ 0` (R8). -/
def floorDiv (a b : Int) : Int := Int.fdiv a b

/-- `asr(v, n) = floor(v / 2^n)` (R8). -/
def asr (v : Int) (n : Nat) : Int := floorDiv v (2 ^ n)

/-- `clamp(v, lo, hi)` (R8). -/
def clampInt (v lo hi : Int) : Int := if v < lo then lo else if v > hi then hi else v

/-- `fxRound(v, n)`, the rounding of a fixed-point multiply-then-shift: the default is `floor(v / 2^n)`; another takes 0 to
0, as is "required of every `fxRound`", and any other integer to a free value (R6, R221, R223; log entry 2). -/
def fxRound (c : Cfg) (v : Int) (n : Nat) : Int :=
  match c.fxRound with
  | .standard => asr v n
  | .other k => if v = 0 then 0 else Config.fxRoundOther k v n

/-- The configured wrap to `w` bits: the default is the value congruent modulo `2^w`; another keeps a value in range and
takes one out of range to a free value (R8, R170, R223; DESIGN CHOICE, safe, log entry 2). -/
def wrapBy {w : Nat} (h : Hook) (free : Nat → Int → BitVec w) (i : Int) : BitVec w :=
  match h with
  | .standard => BitVec.ofInt w i
  | .other k => if (BitVec.ofInt w i).toInt = i then BitVec.ofInt w i else free k i

/-- `wrap16`, as the 16-bit entry (R8, R170). -/
def wrap16 (c : Cfg) (i : Int) : Half := wrapBy c.wrap16 Config.wrap16Other i

/-- `wrap32`, as a signed integer (R8, R221). -/
def wrap32 (c : Cfg) (i : Int) : Int := (wrapBy c.wrap32 Config.wrap32Other i).toInt

end Sys2Proof.Machine
end

