-- ==== Sys2Proof/Machine/F32.lean ====
section
/-! DEFINITION. The binary32 record `F32` of generation 2 (R226). In the namespace `F32` stands its default: IEEE 754
binary32, round to nearest ties to even, subnormals kept, no traps. Every finite value is an integer multiple of
2^-149; each operation computes the exact result in those units and rounds once. After it stand the operations of the
record the configuration chooses, the default or another one (log entry 2). -/

namespace Sys2Proof.Machine.F32

/-- The sign bit. -/
def signBit (x : Word) : Bool := x.getLsbD 31

/-- The exponent field. -/
def expField (x : Word) : Nat := (x.toNat / 2 ^ 23) % 256

/-- The fraction field. -/
def fracField (x : Word) : Nat := x.toNat % 2 ^ 23

/-- The value is neither infinite nor a NaN (R226). -/
def isFinite (x : Word) : Bool := expField x != 255

/-- The value is a NaN. -/
def isNaN (x : Word) : Bool := expField x == 255 && fracField x != 0

/-- The value is an infinity. -/
def isInf (x : Word) : Bool := expField x == 255 && fracField x == 0

/-- The magnitude of a finite value in units of 2^-149. -/
def magUnits (x : Word) : Nat :=
  if expField x = 0 then fracField x else (2 ^ 23 + fracField x) * 2 ^ (expField x - 1)

/-- A finite value in units of 2^-149. -/
def units (x : Word) : Int := if signBit x then -(magUnits x : Int) else magUnits x

/-- The zero, infinity or other encoding with a sign. -/
def withSign (neg : Bool) (mag : Nat) : Word := BitVec.ofNat 32 ((if neg then 2 ^ 31 else 0) + mag)

/-- The signed infinity. -/
def inf (neg : Bool) : Word := withSign neg (255 * 2 ^ 23)

/-- The NaN that operation `op` on `x` and `y` gives: any NaN, with a free sign and payload (R226). -/
def someNaN (op : F32Op) (x y : Word) : Word :=
  let w := Config.nanBits op x y ||| 0x7F800000
  if isNaN w then w else w ||| 1

/-- `num / den` rounded to the nearest integer, ties to even. -/
def divEven (num den : Nat) : Nat :=
  let q := num / den
  let r := num % den
  if 2 * r < den then q else if 2 * r > den then q + 1 else if q % 2 = 0 then q else q + 1

/-- The exponent of the quantum 2^(e-149) to which `num / den`, in units of 2^-149, is rounded: it leaves 24 significant
bits, or is the least one. -/
def quantumExp (num den : Nat) : Nat := (num / den).log2 - 23

/-- The magnitude bits of `num / den`, in units of 2^-149, rounded to nearest ties to even: infinity on overflow.
A significand of 2^24 carries into the exponent field by the sum. -/
def roundMag (num den : Nat) : Nat :=
  let e := quantumExp num den
  min (e * 2 ^ 23 + divEven num (den * 2 ^ e)) (255 * 2 ^ 23)

/-- The binary32 nearest to `num / den` in units of 2^-149; an exact zero takes the sign given. -/
def ofUnits (neg : Bool) (num den : Nat) : Word := withSign neg (roundMag num den)

/-- `ofRat` on the dyadic rational `i / 2^n` (R226); zero is positive. -/
def ofRat (i : Int) (n : Nat) : Word := ofUnits (i < 0) (i.natAbs * 2 ^ 149) (2 ^ n)

/-- `ofInt` (R226). -/
def ofInt (i : Int) : Word := ofRat i 0

/-- The sign changed. -/
def neg (x : Word) : Word := x ^^^ 0x80000000

/-- `add` (R226): an exact zero sum is positive unless both operands are negative. -/
def add (x y : Word) : Word :=
  if isNaN x || isNaN y then someNaN .add x y
  else if isInf x then (if isInf y && signBit x != signBit y then someNaN .add x y else x)
  else if isInf y then y
  else
    let z := units x + units y
    ofUnits (if z = 0 then signBit x && signBit y else z < 0) z.natAbs 1

/-- `sub` (R226). -/
def sub (x y : Word) : Word := if isNaN y then someNaN .sub x y else add x (neg y)

/-- `mul` (R226). -/
def mul (x y : Word) : Word :=
  let s := signBit x != signBit y
  if isNaN x || isNaN y then someNaN .mul x y
  else if isInf x || isInf y then
    (if (isFinite x && magUnits x == 0) || (isFinite y && magUnits y == 0) then someNaN .mul x y else inf s)
  else ofUnits s (magUnits x * magUnits y) (2 ^ 149)

/-- `div` (R226): a finite non-zero value divided by zero is an infinity. -/
def div (x y : Word) : Word :=
  let s := signBit x != signBit y
  if isNaN x || isNaN y then someNaN .div x y
  else if isInf x then (if isInf y then someNaN .div x y else inf s)
  else if isInf y then withSign s 0
  else if magUnits y = 0 then (if magUnits x = 0 then someNaN .div x y else inf s)
  else ofUnits s (magUnits x * 2 ^ 149) (magUnits y)

/-- The value of a non-NaN operand, ordered: an infinity lies beyond every finite value. -/
def ordKey (x : Word) : Int :=
  if isInf x then (if signBit x then -(2 ^ 300 : Int) else 2 ^ 300) else units x

/-- `ge`, the ordered comparison: false if either operand is a NaN (R226). -/
def ge (x y : Word) : Bool := !isNaN x && !isNaN y && decide (ordKey y ≤ ordKey x)

/-- `toIntFloor`: the greatest integer not above a finite value (R226). Used only on finite values (R241; log entry 17). -/
def toIntFloor (x : Word) : Int := floorDiv (units x) (2 ^ 149)

end Sys2Proof.Machine.F32

namespace Sys2Proof.Machine

/-! ### The configuration's record -/

/-- `add` of the configuration's `F32` (R226). -/
def fAdd (c : Cfg) (x y : Word) : Word :=
  match c.f32 with
  | .standard => F32.add x y
  | .other k => Config.f32Binary k .add x y

/-- `sub` of the configuration's `F32` (R226). -/
def fSub (c : Cfg) (x y : Word) : Word :=
  match c.f32 with
  | .standard => F32.sub x y
  | .other k => Config.f32Binary k .sub x y

/-- `mul` of the configuration's `F32` (R226). -/
def fMul (c : Cfg) (x y : Word) : Word :=
  match c.f32 with
  | .standard => F32.mul x y
  | .other k => Config.f32Binary k .mul x y

/-- `div` of the configuration's `F32` (R226). -/
def fDiv (c : Cfg) (x y : Word) : Word :=
  match c.f32 with
  | .standard => F32.div x y
  | .other k => Config.f32Binary k .div x y

/-- `ofInt` of the configuration's `F32` (R226). -/
def fOfInt (c : Cfg) (i : Int) : Word :=
  match c.f32 with
  | .standard => F32.ofInt i
  | .other k => Config.f32OfInt k i

/-- `ofRat` of the configuration's `F32`, on `i / 2^n` (R226). -/
def fOfRat (c : Cfg) (i : Int) (n : Nat) : Word :=
  match c.f32 with
  | .standard => F32.ofRat i n
  | .other k => Config.f32OfRat k i n

/-- `ge` of the configuration's `F32` (R226). -/
def fGe (c : Cfg) (x y : Word) : Bool :=
  match c.f32 with
  | .standard => F32.ge x y
  | .other k => Config.f32Ge k x y

/-- `isFinite` of the configuration's `F32` (R226). -/
def fIsFinite (c : Cfg) (x : Word) : Bool :=
  match c.f32 with
  | .standard => F32.isFinite x
  | .other k => Config.f32IsFinite k x

/-- `toIntFloor` of the configuration's `F32` (R226). -/
def fToIntFloor (c : Cfg) (x : Word) : Int :=
  match c.f32 with
  | .standard => F32.toIntFloor x
  | .other k => Config.f32ToIntFloor k x

end Sys2Proof.Machine
end

