-- ==== Sys2Proof/Machine/State.lean ====
section
/-! DEFINITION. The state of the Core (R20) as plain data, the reasons a step can stop, and the state after reset (R41).
Beside R20's eight items stand the configuration (R6), the walker of a dispatch in progress (R191), the operations the
environment has issued and the Core has not yet performed (R12), and the outputs of R13. -/

namespace Sys2Proof.Machine

/-- Data by key, in one canonical form: keys strictly rising. A key that is not listed holds nothing written since
reset. -/
abbrev Cells (α : Type) := List (Nat × α)

/-- The bytes of a bank that something has written since reset, by byte address `blocknum * NB + position` (R71, R72). -/
abbrev Memory := Cells (BitVec 8)

/-- The canonical form of keyed data: keys strictly rising. -/
abbrev Cells.Wf {α : Type} (m : Cells α) : Prop := m.Pairwise (fun p q => p.1 < q.1)

/-- The canonical form of a bank's memory. An unlisted byte holds no value of the model's own (it reads as a free
value), so no entry can equal it. -/
abbrev Memory.wf (m : Memory) : Prop := Cells.Wf m

/-- The requested width of a host register access (R140). -/
inductive Width where
  | w16
  | w32
  deriving DecidableEq, Repr

/-- The operations the environment issues (R12): RegWrite, RegRead and FifoPush by the host, HLine by the video timer.
`high` is the half select. -/
inductive HostOp where
  | regWrite (slot : SlotNo) (high : Bool) (value : Word) (width : Width)
  | regRead (slot : SlotNo) (high : Bool) (width : Width)
  | fifoPush (word : Word)
  | hLine
  deriving DecidableEq, Repr

/-- The events of the log stream (R33). -/
inductive Event where
  | unknownOpcode (word : Word)
  | unknownSubcommand (addr : Word) (word : Word)
  | unknownPointerSlot (selector : BitVec 24) (data : Word)
  | unsupportedFillMode (code : Nat)
  | chainLimit (addr : Word)
  | scanout (y0 y1 : Nat) (isPartial : Bool)
  | frame
  | reconfigured (htotal vtotal xs xe ys ye : Nat)
  deriving DecidableEq, Repr

/-- What a successful reconfiguration tells the environment (R316): the total, the visible window, the size of the
output bitmap, and the refresh rate as `PIXCLK / refreshDiv`. -/
structure Announcement where
  htotal : Nat
  vtotal : Nat
  xs : Nat
  xe : Nat
  ys : Nat
  ye : Nat
  visW : Nat
  visH : Nat
  refreshDiv : Nat
  deriving DecidableEq, Repr

/-- The output bitmap `O` (R32): the pixels a scanout has written, by key `y * 65536 + x`, and the sizes
`(VIS_W, VIS_H)` of the bitmap since reset, newest first, which say when an unwritten pixel entered it (R316). -/
structure Output where
  pixels : Cells Color
  windows : List (Nat × Nat)
  deriving DecidableEq, Repr

/-- The walker of a DRAWMODEL dispatch (R191): segment address, index of the next word, words left, CHAINs followed. -/
structure Walker where
  mp : Word
  k : Nat
  mrem : Nat
  mchain : Nat
  deriving DecidableEq, Repr

/-- The reasons a step stops with a fault. There are none: "no operation can fault" (R5, R330). The type has no
constructor, so every proof that a step does not fault is immediate (safe: the spec says the same of the Core). -/
inductive Fault where
  deriving DecidableEq, Repr

/-- The reasons a step is refused. -/
inductive Refusal where
  /-- Raised by an arm of `exec` whose instruction has no meaning in the model; no arm is such. Safe: a claim about a
  refused instruction is unprovable, never wrongly proved. -/
  | notModelled (mnemonic : String)
  deriving DecidableEq, Repr

/-- The state of the Core (R20). -/
structure State where
  /-- The configuration record (R6), fixed at construction and changed by no step. -/
  cfg : Cfg
  /-- The register file `R[0]` to `R[127]` (R21); `P_RT` is a name for `R[S_PAGE]` (R27). -/
  regs : Vector Word 128
  /-- Texture base `P_TEX`, an expanded address into bank A (R27). -/
  pTex : Word
  /-- Palette base `P_PAL`, an expanded address into bank A (R27). -/
  pPal : Word
  /-- Quad payload size `P_QSIZE` (R27). -/
  pQsize : QuadSize
  /-- The matrix `M` of generation 1: signed 16-bit entries (R28). -/
  matFix : Mat3 Half
  /-- The matrix `M` of generation 2: binary32 entries (R28). -/
  matFlt : Mat3 Word
  /-- The translation `T`: signed 32-bit integers in generation 1, binary32 in generation 2 (R28). -/
  trans : Vec3 Word
  /-- The light vector `L`: signed 16-bit components (R28). -/
  light : Vec3 Half
  /-- The secondary point `AUX` (R28). -/
  aux : Vec3 Word
  /-- The FIFO buffer (R29), oldest word first. -/
  fifo : List Word
  /-- Bank A, the object and texture store (R34). -/
  bankA : Memory
  /-- Bank B, the render target store (R34). -/
  bankB : Memory
  /-- The display geometry in force (R31). -/
  disp : Disp
  /-- The line the display beam is on (R31). -/
  beamRow : Nat
  /-- The visible rows already copied in the current frame (R31). -/
  scanRow : Nat
  /-- The output bitmap `O` (R32). -/
  out : Output
  /-- The log stream, oldest event first (R33). -/
  log : List Event
  /-- The geometries and refresh rates announced to the environment, oldest first (R13, R316; log entry 15). -/
  announced : List Announcement
  /-- The values RegRead has returned to the host, oldest first (R13, R143; log entry 15). -/
  replies : List Word
  /-- The model's own (DESIGN CHOICE, safe, log entry 8): the walker while a DRAWMODEL dispatch is in progress (R191). No step from a state without one
  ends in a state with one (R10). -/
  walk : Option Walker
  /-- The model's own (DESIGN CHOICE, safe, log entry 7): the operations issued and not yet performed, next first (R12, R101). -/
  inputs : List HostOp
  deriving DecidableEq, Repr

/-- The state right after reset under a configuration (R41, R360): every piece takes the configuration's reset value, by
default zero; nothing in the banks and the bitmap has been written. -/
def State.resetOf (c : Cfg) : State where
  cfg := c
  regs := c.reset.regs
  pTex := c.reset.pTex
  pPal := c.reset.pPal
  pQsize := c.reset.pQsize
  matFix := c.reset.matFix
  matFlt := c.reset.matFlt
  trans := c.reset.trans
  light := c.reset.light
  aux := c.reset.aux
  fifo := []
  bankA := []
  bankB := []
  disp := c.reset.disp
  beamRow := c.reset.beamRow
  scanRow := 0
  out := ⟨[], []⟩
  log := []
  announced := []
  replies := []
  walk := none
  inputs := []

/-- The machine right after reset: the default configuration of generation 1 (DESIGN CHOICE, unsafe, log entry 1: `GEN` has no
default). -/
def State.reset : State := State.resetOf (defaultCfg .gen1)

end Sys2Proof.Machine
end

