-- ==== Sys2Proof/Machine/Ops.lean ====
section
/-! DEFINITION. The shared operations over state: keyed data, the register file, the log, the tiled address translator
(R72 to R74), lanes and bank accesses (R75 to R78), the word stream of bank A (R80), the pixel fields of bank B (R83,
R84). The Core takes no exception and returns from none (R330, R338): where another machine would take one it appends
to the log and goes on, so `State.logEvent` stands here in place of exception entry. -/

namespace Sys2Proof.Machine

/-! ### Keyed data -/

/-- What is listed under a key. -/
def Cells.get {α : Type} : Cells α → Nat → Option α
  | [], _ => none
  | (k, v) :: r, a => if a = k then some v else Cells.get r a

/-- The data with `v` under key `a`, keys rising. -/
def Cells.put {α : Type} : Cells α → Nat → α → Cells α
  | [], a, v => [(a, v)]
  | (k, w) :: r, a, v =>
    if a < k then (a, v) :: (k, w) :: r
    else if a = k then (a, v) :: r
    else (k, w) :: Cells.put r a v

/-! ### The register file (R21 to R23) -/

/-- `R[i]`. -/
def State.reg (s : State) (i : SlotNo) : Word := s.regs[i.toNat]'i.isLt

/-- `R[i] <- v`, a plain store: no side effect. -/
def State.setReg (s : State) (i : SlotNo) (v : Word) : State :=
  { s with regs := s.regs.set i.toNat v i.isLt }

/-- The slot's value with its high or low half replaced (R141, R164). -/
def replaceHalf (old : Word) (high : Bool) (h : Half) : Word :=
  if high then joinHalves h (lo16 old) else joinHalves (hi16 old) h

/-! ### The log (R33) and the condition of R331 -/

/-- `log <Event>(info)`: append one event. -/
def State.logEvent (s : State) (e : Event) : State := { s with log := s.log ++ [e] }

/-! ### The tiled address translator (R72 to R74) -/

/-- `col(a)`, the column an expanded address selects. -/
def col (c : Cfg) (bk : Bank) (a : Word) : Nat := a.toNat % 2 ^ c.colBits % c.width bk

/-- `row(a)`, the row an expanded address selects. -/
def row (c : Cfg) (bk : Bank) (a : Word) : Nat := a.toNat / 2 ^ c.colBits % c.height bk

/-- `blocknum(a)`, the block an expanded address selects. -/
def blockNum (c : Cfg) (bk : Bank) (a : Word) : Nat := row c bk a * c.width bk + col c bk a

/-- The expanded address of column `x` of row `y` in normal form, `(y << COLBITS) | x`. -/
def mkAddr (c : Cfg) (y x : Nat) : Word := BitVec.ofNat 32 (y * 2 ^ c.colBits + x)

/-- `advance(a, n)`, the linear advance of R74: the result is in normal form. -/
def advance (c : Cfg) (bk : Bank) (a : Word) (n : Nat) : Word :=
  let lin := (blockNum c bk a + n) % (c.width bk * c.height bk)
  mkAddr c (lin / c.width bk) (lin % c.width bk)

/-! ### Lanes of a block (R75 to R77) -/

/-- The byte address of byte `p` of block `blk`. -/
def byteAddr (c : Cfg) (bk : Bank) (blk p : Nat) : Nat := blk * c.blockBytes bk + p

/-- Byte `p` of block `blk`: what was written there, or the byte the bank held at reset. -/
def byteAt (c : Cfg) (bk : Bank) (m : Memory) (blk p : Nat) : Byte :=
  (m.get (byteAddr c bk blk p)).getD (Config.resetByte bk (byteAddr c bk blk p))

/-- Byte `p` of block `blk` set. -/
def setByteAt (c : Cfg) (bk : Bank) (m : Memory) (blk p : Nat) (v : Byte) : Memory :=
  m.put (byteAddr c bk blk p) v

/-- The byte position of byte lane `k`. -/
def pos8 (c : Cfg) (bk : Bank) (k : Nat) : Nat := (c.lanes bk).lane8.getD k 0

/-- The byte positions of halfword lane `k`, least significant first. -/
def pos16 (c : Cfg) (bk : Bank) (k : Nat) : Nat × Nat := (c.lanes bk).lane16.getD k (0, 0)

/-- The byte positions of word lane `k`, least significant first. -/
def pos32 (c : Cfg) (bk : Bank) (k : Nat) : Nat × Nat × Nat × Nat := (c.lanes bk).lane32.getD k (0, 0, 0, 0)

/-- `lane8(b, k)`. -/
def lane8 (c : Cfg) (bk : Bank) (m : Memory) (blk k : Nat) : Byte := byteAt c bk m blk (pos8 c bk k)

/-- `lane16(b, k)`. -/
def lane16 (c : Cfg) (bk : Bank) (m : Memory) (blk k : Nat) : Half :=
  let p := pos16 c bk k
  joinBytes (byteAt c bk m blk p.2) (byteAt c bk m blk p.1)

/-- `lane32(b, k)`. -/
def lane32 (c : Cfg) (bk : Bank) (m : Memory) (blk k : Nat) : Word :=
  let p := pos32 c bk k
  joinFour (byteAt c bk m blk p.2.2.2) (byteAt c bk m blk p.2.2.1) (byteAt c bk m blk p.2.1) (byteAt c bk m blk p.1)

/-- `setlane8(b, k, v)`. -/
def setLane8 (c : Cfg) (bk : Bank) (m : Memory) (blk k : Nat) (v : Byte) : Memory :=
  setByteAt c bk m blk (pos8 c bk k) v

/-- `setlane16(b, k, v)`. -/
def setLane16 (c : Cfg) (bk : Bank) (m : Memory) (blk k : Nat) (v : Half) : Memory :=
  let p := pos16 c bk k
  setByteAt c bk (setByteAt c bk m blk p.1 (v.extractLsb' 0 8)) blk p.2 (v.extractLsb' 8 8)

/-- `setlane32(b, k, v)`. -/
def setLane32 (c : Cfg) (bk : Bank) (m : Memory) (blk k : Nat) (v : Word) : Memory :=
  let p := pos32 c bk k
  let m := setByteAt c bk m blk p.1 (byteOf v 0)
  let m := setByteAt c bk m blk p.2.1 (byteOf v 1)
  let m := setByteAt c bk m blk p.2.2.1 (byteOf v 2)
  setByteAt c bk m blk p.2.2.2 (byteOf v 3)

/-! ### The bytes of a lane -/

/-- The byte addresses of byte lane `k`. -/
def laneAddrs8 (c : Cfg) (bk : Bank) (blk k : Nat) : List Nat := [byteAddr c bk blk (pos8 c bk k)]

/-- The byte addresses of halfword lane `k`. -/
def laneAddrs16 (c : Cfg) (bk : Bank) (blk k : Nat) : List Nat :=
  [byteAddr c bk blk (pos16 c bk k).1, byteAddr c bk blk (pos16 c bk k).2]

/-- The byte addresses of word lane `k`. -/
def laneAddrs32 (c : Cfg) (bk : Bank) (blk k : Nat) : List Nat :=
  [byteAddr c bk blk (pos32 c bk k).1, byteAddr c bk blk (pos32 c bk k).2.1,
   byteAddr c bk blk (pos32 c bk k).2.2.1, byteAddr c bk blk (pos32 c bk k).2.2.2]

/-! ### Bank accesses (R78) -/

/-- The memory of a bank. -/
def State.mem (s : State) : Bank → Memory
  | .bankA => s.bankA
  | .bankB => s.bankB

/-- The memory of a bank replaced. -/
def State.setMem (s : State) : Bank → Memory → State
  | .bankA, m => { s with bankA := m }
  | .bankB, m => { s with bankB := m }

/-- `MemRead(bank, a, 1, k)`. -/
def memRead8 (c : Cfg) (bk : Bank) (m : Memory) (a : Word) (k : Nat) : Byte := lane8 c bk m (blockNum c bk a) k

/-- `MemRead(bank, a, 2, k)`. -/
def memRead16 (c : Cfg) (bk : Bank) (m : Memory) (a : Word) (k : Nat) : Half := lane16 c bk m (blockNum c bk a) k

/-- `MemRead(bank, a, 4, k)`. -/
def memRead32 (c : Cfg) (bk : Bank) (m : Memory) (a : Word) (k : Nat) : Word := lane32 c bk m (blockNum c bk a) k

/-- `MemWrite(bank, a, 1, k, v)`. -/
def memWrite8 (c : Cfg) (bk : Bank) (m : Memory) (a : Word) (k : Nat) (v : Byte) : Memory :=
  setLane8 c bk m (blockNum c bk a) k v

/-- `MemWrite(bank, a, 2, k, v)`. -/
def memWrite16 (c : Cfg) (bk : Bank) (m : Memory) (a : Word) (k : Nat) (v : Half) : Memory :=
  setLane16 c bk m (blockNum c bk a) k v

/-- `MemWrite(bank, a, 4, k, v)`. -/
def memWrite32 (c : Cfg) (bk : Bank) (m : Memory) (a : Word) (k : Nat) (v : Word) : Memory :=
  setLane32 c bk m (blockNum c bk a) k v

/-! ### Bank A as a stream of words (R80) -/

/-- The words of a bank A block, `WPB`. -/
def wordsPerBlock (c : Cfg) : Nat := c.aBytes / 4

/-- The address of the block that holds word `k` of the stream at `a`. -/
def streamAddr (c : Cfg) (a : Word) (k : Nat) : Word := advance c .bankA a (k / wordsPerBlock c)

/-- `StreamWord(a, k)`. -/
def streamWord (c : Cfg) (m : Memory) (a : Word) (k : Nat) : Word :=
  memRead32 c .bankA m (streamAddr c a k) (k % wordsPerBlock c)

/-! ### Bank B as pixels (R83, R84) -/

/-- The block of pixel `(x, y)` of the region with base row `base` (R84). -/
def pixelBlock (c : Cfg) (base x y : Nat) : Nat := (base + y) % c.bH * c.bW + x % c.bW

/-- `PixColor(b)`. -/
def pixColor (c : Cfg) (m : Memory) (blk : Nat) : Color :=
  match c.gen with
  | .gen1 => (lane16 c .bankB m blk c.pix.colorLane).setWidth 32
  | .gen2 => lane32 c .bankB m blk c.pix.colorLane

/-- `PixDepth(b)`. -/
def pixDepth (c : Cfg) (m : Memory) (blk : Nat) : Half := lane16 c .bankB m blk c.pix.depthLane

/-- `SetPixColor(b, v)`. -/
def setPixColor (c : Cfg) (m : Memory) (blk : Nat) (v : Color) : Memory :=
  match c.gen with
  | .gen1 => setLane16 c .bankB m blk c.pix.colorLane (lo16 v)
  | .gen2 => setLane32 c .bankB m blk c.pix.colorLane v

/-- `SetPixDepth(b, d)`. -/
def setPixDepth (c : Cfg) (m : Memory) (blk : Nat) (d : Half) : Memory :=
  setLane16 c .bankB m blk c.pix.depthLane d

/-- The byte addresses of the colour of a pixel (R83). -/
def colorAddrs (c : Cfg) (blk : Nat) : List Nat :=
  match c.gen with
  | .gen1 => laneAddrs16 c .bankB blk c.pix.colorLane
  | .gen2 => laneAddrs32 c .bankB blk c.pix.colorLane

/-- The byte addresses of the colour and the depth of a pixel: all that a pixel write touches (R272). -/
def pixelAddrs (c : Cfg) (blk : Nat) : List Nat := colorAddrs c blk ++ laneAddrs16 c .bankB blk c.pix.depthLane

/-- Colour and depth of a pixel written, and no other byte of its block (R272). -/
def setPixel (c : Cfg) (m : Memory) (blk : Nat) (v : Color) (d : Half) : Memory :=
  setPixDepth c (setPixColor c m blk v) blk d

/-- A colour value as the machine keeps it: 16 bits in generation 1, 32 in generation 2 (R35, R83). -/
def storedColour (g : Gen) (v : Color) : Color :=
  match g with
  | .gen1 => (lo16 v).setWidth 32
  | .gen2 => v

/-! ### Loops over a rectangle -/

/-- `for y in 0 .. h-1: for x in 0 .. w-1: m <- f(m, x, y)`, rows and then columns ascending. -/
def forRect {σ : Type} (w h : Nat) (f : σ → Nat → Nat → σ) (m : σ) : σ :=
  (List.range h).foldl (fun m y => (List.range w).foldl (fun m x => f m x y) m) m

/-! ### The display geometry (R31) -/

/-- `VIS_W`: 0 while the geometry is not valid. -/
def Disp.visW (d : Disp) : Nat := if d.valid then d.xe - d.xs else 0

/-- `VIS_H`: 0 while the geometry is not valid. -/
def Disp.visH (d : Disp) : Nat := if d.valid then d.ye - d.ys else 0

end Sys2Proof.Machine
end

