-- ==== Sys2Proof/Machine/Operands.lean ====
section
/-! DEFINITION. The fields of the register slots with a function (R25, R26, R30, R36, R37), at the places the
configuration gives them (the docstrings name the defaults), and the slots of the two indirect-access groups (R30). -/

namespace Sys2Proof.Machine

/-! ### `R[S_CTRL]` (R25) -/

/-- `HALFMODE`, bit 17. -/
def State.halfMode (s : State) : Bool := (s.reg s.cfg.slot.ctrl).getLsbD s.cfg.reg.halfMode

/-! ### `R[S_PAGE]` (R26) -/

/-- `RBASE`, the base row of the render region. -/
def State.rbase (s : State) : Nat := s.cfg.reg.rbase.nat (s.reg s.cfg.slot.page)

/-- `DBASE`, the base row of the display region. -/
def State.dbase (s : State) : Nat := s.cfg.reg.dbase.nat (s.reg s.cfg.slot.page)

/-! ### The indirect-access groups (R30) -/

/-- The data slots of a bank's group, by index; a group has no more of them than `NDATA`. -/
def dataSlots (c : Cfg) : Bank → List SlotNo
  | .bankA => [c.slot.iaD0, c.slot.iaD1]
  | .bankB => [c.slot.ibD0, c.slot.ibD1, c.slot.ibD2]

/-- The address slot of a bank's group. -/
def addrSlot (c : Cfg) : Bank → SlotNo
  | .bankA => c.slot.iaAddr
  | .bankB => c.slot.ibAddr

/-- The mode slot of a bank's group. -/
def modeSlot (c : Cfg) : Bank → SlotNo
  | .bankA => c.slot.iaMode
  | .bankB => c.slot.ibMode

/-- `LATCH`, bit 0 of the mode slot. -/
def State.latchOn (s : State) (bk : Bank) : Bool := (s.reg (modeSlot s.cfg bk)).getLsbD s.cfg.reg.latch

/-- `WTHRU`, bit 1 of the mode slot. -/
def State.writeThrough (s : State) (bk : Bank) : Bool := (s.reg (modeSlot s.cfg bk)).getLsbD s.cfg.reg.wthru

/-- `AUTOINC`, bit 2 of the mode slot. -/
def State.autoInc (s : State) (bk : Bank) : Bool := (s.reg (modeSlot s.cfg bk)).getLsbD s.cfg.reg.autoInc

/-- `TRIG`, bits 5:4 of the mode slot. -/
def State.trig (s : State) (bk : Bank) : Nat := s.cfg.reg.trig.nat (s.reg (modeSlot s.cfg bk))

/-! ### The timing slots (R36) -/

/-- The configuration the three timing slots hold, marked valid. -/
def State.timing (s : State) : Disp where
  valid := true
  htotal := s.cfg.reg.htotal.nat (s.reg s.cfg.slot.tTotal)
  vtotal := s.cfg.reg.vtotal.nat (s.reg s.cfg.slot.tTotal)
  xs := s.cfg.reg.xs.nat (s.reg s.cfg.slot.tHvis)
  xe := s.cfg.reg.xe.nat (s.reg s.cfg.slot.tHvis)
  ys := s.cfg.reg.ys.nat (s.reg s.cfg.slot.tVvis)
  ye := s.cfg.reg.ye.nat (s.reg s.cfg.slot.tVvis)

/-! ### The drawing-parameter slots (R37) -/

/-- `SolidColour()` (R276): 16 bits in generation 1, 24 bits in generation 2. -/
def State.solidColour (s : State) : Color :=
  ((s.reg s.cfg.slot.color).extractLsb' s.cfg.reg.solid.lo s.cfg.reg.solid.width).setWidth 32

/-- `ALPHA`, bits 7:0 of `R[S_ALPHA]`. -/
def State.alphaFactor (s : State) : Nat := s.cfg.reg.alpha.nat (s.reg s.cfg.slot.alpha)

/-- `FILL`, bits 2:0 of `R[S_TEXMODE]`. -/
def State.fillCode (s : State) : Nat := s.cfg.reg.fill.nat (s.reg s.cfg.slot.texmode)

/-- The texture width in texels, `2^TEXW_L2` with `TEXW_L2` in bits 7:4 of `R[S_TEXMODE]`. -/
def State.texWidth (s : State) : Nat := 2 ^ s.cfg.reg.texwL2.nat (s.reg s.cfg.slot.texmode)

/-- `TRANS_EN`, bit 8 of `R[S_TEXMODE]`. -/
def State.transEn (s : State) : Bool := (s.reg s.cfg.slot.texmode).getLsbD s.cfg.reg.transEn

/-- `TRANS_IDX`, bits 23:16 of `R[S_TEXMODE]`. -/
def State.transIdx (s : State) : Nat := s.cfg.reg.transIdx.nat (s.reg s.cfg.slot.texmode)

/-- `ZBIAS`, bits 31:16 of `R[S_ZBIAS]`, signed. -/
def State.zbiasVal (s : State) : Int := s.cfg.reg.zbias.int (s.reg s.cfg.slot.zbias)

/-- `FIXEDZ`, bits 15:0 of `R[S_ZBIAS]`. -/
def State.fixedZ (s : State) : Half :=
  ((s.reg s.cfg.slot.zbias).extractLsb' s.cfg.reg.fixedZ.lo s.cfg.reg.fixedZ.width).setWidth 16

end Sys2Proof.Machine
end

