-- ==== Sys2Proof/Machine/Geometry.lean ====
section
/-! DEFINITION. The geometry pipeline (R220 to R241): transform, lighting, near-plane clip, projection, as two distinct
pipelines, integers in generation 1 and binary32 in generation 2. -/

namespace Sys2Proof.Machine

/-- A camera vertex of generation 1 (R220). -/
structure CamFix where
  x : Int
  y : Int
  z : Int
  up : Int
  vp : Int
  i : Int
  deriving DecidableEq, Repr

/-- A camera vertex of generation 2 (R220); its intensity is always 0. -/
structure CamFlt where
  x : Word
  y : Word
  z : Word
  up : Word
  vp : Word
  deriving DecidableEq, Repr

/-- A screen vertex, integers in both generations (R220). -/
structure ScreenVertex where
  sx : Int
  sy : Int
  zs : Int
  us : Int
  vs : Int
  is : Int
  deriving DecidableEq, Repr

/-! ### Lighting, generation 1 (R231, R232) -/

/-- The packed normal: `sext_3(n[7:5])`, `sext_3(n[4:2])`, `sext_2(n[1:0])` under the default layout (R122). -/
def unpackNormal (c : Cfg) (n : Byte) : Vec3 Int := c.fmt.normal.map (fun f => (n.extractLsb' f.lo f.width).toInt)

/-- The inner product of two integer vectors. -/
def dotInt (a b : Vec3 Int) : Int := a.e0 * b.e0 + a.e1 * b.e1 + a.e2 * b.e2

/-- The default `lightIntensity` (R232). -/
def defaultIntensity (c : Cfg) (m : Mat3 Half) (p : Vec3 Int) (l : Vec3 Half) (n : Byte) : Int :=
  let nv := unpackNormal c n
  let mi := m.map BitVec.toInt
  let r : Vec3 Int := ⟨dotInt mi.r0 nv, dotInt mi.r1 nv, dotInt mi.r2 nv⟩
  let lv : Vec3 Int := ⟨p.e0 + l.e0.toInt, p.e1 + l.e1.toInt, l.e2.toInt⟩
  clampInt (fxRound c (dotInt r lv) 22) 0 255

/-- `lightIntensity(M, (X, Y, Z), L, n)` of the configuration, "an integer 0 to 255": the default, or another function
(R231, R232; log entry 2). -/
def lightIntensity (c : Cfg) (m : Mat3 Half) (p : Vec3 Int) (l : Vec3 Half) (n : Byte) : Int :=
  match c.lightIntensity with
  | .standard => defaultIntensity c m p l n
  | .other k => (Config.lightIntensityOther k m p l n).toNat

/-! ### Transform (R221, R225) -/

/-- One camera coordinate of generation 1 (R221). -/
def camFix (c : Cfg) (r : Vec3 Half) (t : Word) (x y z : Int) : Int :=
  wrap32 c (fxRound c (r.e0.toInt * x + r.e1.toInt * y + r.e2.toInt * z) c.fxFrac + t.toInt)

/-- `Transform`, generation 1 (R221). -/
def transformFix (c : Cfg) (m : Mat3 Half) (t : Vec3 Word) (l : Vec3 Half) (v : InVertex) : CamFix :=
  let x := camFix c m.r0 t.e0 v.x.toInt v.y.toInt v.z.toInt
  let y := camFix c m.r1 t.e1 v.x.toInt v.y.toInt v.z.toInt
  let z := camFix c m.r2 t.e2 v.x.toInt v.y.toInt v.z.toInt
  { x := x, y := y, z := z, up := v.u.toNat * 2 ^ c.pix.uvFrac, vp := v.v.toNat * 2 ^ c.pix.uvFrac,
    i := lightIntensity c m ⟨x, y, z⟩ l v.n }

/-- One camera coordinate of generation 2: the additions in the written order, no fusing (R225). -/
def camFlt (c : Cfg) (r : Vec3 Word) (t xf yf zf : Word) : Word :=
  fAdd c (fAdd c (fAdd c (fMul c r.e0 xf) (fMul c r.e1 yf)) (fMul c r.e2 zf)) t

/-- `Transform`, generation 2 (R225). -/
def transformFlt (c : Cfg) (m : Mat3 Word) (t : Vec3 Word) (v : InVertex) : CamFlt :=
  let xf := fOfInt c v.x.toInt
  let yf := fOfInt c v.y.toInt
  let zf := fOfInt c v.z.toInt
  { x := camFlt c m.r0 t.e0 xf yf zf, y := camFlt c m.r1 t.e1 xf yf zf, z := camFlt c m.r2 t.e2 xf yf zf,
    up := fOfInt c v.u.toNat, vp := fOfInt c v.v.toNat }

/-! ### Near-plane clip (R235 to R238) -/

/-- What one edge, from `cur` to `nxt`, adds to the clipped polygon (R235). -/
def clipEdge {ν : Type} (inside : ν → Bool) (cut : ν → ν → ν) (cur nxt : ν) : List ν :=
  if inside cur then (if inside nxt then [cur] else [cur, cut cur nxt])
  else (if inside nxt then [cut cur nxt] else [])

/-- The edges of a polygon: each vertex with the next, the last with the first. -/
def polyEdges {ν : Type} (vs : List ν) : List (ν × ν) := vs.zip (vs.tail ++ vs.take 1)

/-- `ClipNear` (R235). -/
def clipNear {ν : Type} (inside : ν → Bool) (cut : ν → ν → ν) (vs : List ν) : List ν :=
  (polyEdges vs).flatMap (fun e => clipEdge inside cut e.1 e.2)

/-- `Inside(v)`, generation 1 (R236). -/
def insideFix (c : Cfg) (v : CamFix) : Bool := decide ((c.nearZ : Int) ≤ v.z)

/-- `NEAR_Z` as binary32. -/
def nearFlt (c : Cfg) : Word := fOfInt c c.nearZ

/-- `Inside(v)`, generation 2 (R236). -/
def insideFlt (c : Cfg) (v : CamFlt) : Bool := fGe c v.z (nearFlt c)

/-- `Cut(a, b)`, generation 1 (R237). -/
def cutFix (c : Cfg) (a b : CamFix) : CamFix :=
  let num := (c.nearZ : Int) - a.z
  let den := b.z - a.z
  let cutP (p q : Int) : Int := p + floorDiv ((q - p) * num) den
  { x := cutP a.x b.x, y := cutP a.y b.y, z := c.nearZ, up := cutP a.up b.up, vp := cutP a.vp b.vp,
    i := cutP a.i b.i }

/-- `Cut(a, b)`, generation 2 (R238). -/
def cutFlt (c : Cfg) (a b : CamFlt) : CamFlt :=
  let nz := nearFlt c
  let t := fDiv c (fSub c nz a.z) (fSub c b.z a.z)
  let cutP (p q : Word) : Word := fAdd c p (fMul c (fSub c q p) t)
  { x := cutP a.x b.x, y := cutP a.y b.y, z := nz, up := cutP a.up b.up, vp := cutP a.vp b.vp }

/-! ### Projection (R240, R241) -/

/-- One screen coordinate of generation 1 (R240). -/
def projCoordFix (c : Cfg) (centre p z : Int) : Int :=
  centre * 2 ^ c.subpix + floorDiv (p * c.projF * 2 ^ c.subpix) z

/-- `Project`, generation 1 (R240). -/
def projectFix (c : Cfg) (v : CamFix) : ScreenVertex where
  sx := projCoordFix c c.projCX v.x v.z
  sy := projCoordFix c c.projCY v.y v.z
  zs := v.z
  us := v.up
  vs := v.vp
  is := v.i

/-- One screen coordinate of generation 2 before the floor (R240). -/
def projCoordFlt (c : Cfg) (centre : Int) (p z : Word) : Word :=
  fMul c (fAdd c (fMul c p (fDiv c (fOfInt c c.projF) z)) (fOfInt c centre)) (fOfInt c (2 ^ c.subpix))

/-- A texture coordinate of generation 2 scaled to its fractional bits, before the floor (R240). -/
def texCoordFlt (c : Cfg) (p : Word) : Word := fMul c p (fOfInt c (2 ^ c.pix.uvFrac))

/-- The binary32 values of a vertex that enter a `toIntFloor` (R240, R241). -/
def floorArgs (c : Cfg) (v : CamFlt) : List Word :=
  [projCoordFlt c c.projCX v.x v.z, projCoordFlt c c.projCY v.y v.z, v.z, texCoordFlt c v.up, texCoordFlt c v.vp]

/-- `Project`, generation 2 (R240). -/
def projectFlt (c : Cfg) (v : CamFlt) : ScreenVertex where
  sx := fToIntFloor c (projCoordFlt c c.projCX v.x v.z)
  sy := fToIntFloor c (projCoordFlt c c.projCY v.y v.z)
  zs := fToIntFloor c v.z
  us := fToIntFloor c (texCoordFlt c v.up)
  vs := fToIntFloor c (texCoordFlt c v.vp)
  is := 0

/-- `|sx| < 2^30` and `|sy| < 2^30`, 30 the default of `screenBits` (R241). -/
def ScreenVertex.inRange (c : Cfg) (v : ScreenVertex) : Bool :=
  decide (v.sx.natAbs < 2 ^ c.screenBits ∧ v.sy.natAbs < 2 ^ c.screenBits)

/-- The screen polygon of clipped camera vertices, or none where the polygon is dropped: fewer than 3 vertices, a
coordinate out of range (R201, R241). -/
def screenPoly {ν : Type} (c : Cfg) (ok : ν → Bool) (project : ν → ScreenVertex) (poly : List ν) :
    Option (List ScreenVertex) :=
  if poly.length < 3 then none
  else if poly.all (fun v => ok v && (project v).inRange c) then some (poly.map project)
  else none

/-- Transform, clip and projection of the vertices of a polygon by the generation's pipeline (R201). -/
def State.screenOf (s : State) (vin : List InVertex) : Option (List ScreenVertex) :=
  match s.cfg.gen with
  | .gen1 =>
    screenPoly s.cfg (fun _ => true) (projectFix s.cfg)
      (clipNear (insideFix s.cfg) (cutFix s.cfg) (vin.map (transformFix s.cfg s.matFix s.trans s.light)))
  | .gen2 =>
    screenPoly s.cfg (fun v => (floorArgs s.cfg v).all (fIsFinite s.cfg)) (projectFlt s.cfg)
      (clipNear (insideFlt s.cfg) (cutFlt s.cfg) (vin.map (transformFlt s.cfg s.matFlt s.trans)))

end Sys2Proof.Machine
end

