-- ==== Sys2Proof/Machine/Raster.lean ====
section
/-! DEFINITION. The rasterizer (R260 to R287): scan conversion, fill modes, texture fetch, depth test, pixel write. -/

namespace Sys2Proof.Machine

/-- The fill modes (R275). -/
inductive FillMode where
  | solid
  | solidFixedDepth
  | shaded
  | textured4
  | textured8
  deriving DecidableEq, Repr

/-- The fill mode of a code, none for an unsupported code, by default 5, 6 and 7 (R275). -/
def fillModeOfCode (f : FillCodes) (n : Nat) : Option FillMode :=
  if n = f.solid then some .solid
  else if n = f.solidFixedDepth then some .solidFixedDepth
  else if n = f.shaded then some .shaded
  else if n = f.textured4 then some .textured4
  else if n = f.textured8 then some .textured8
  else none

/-- The fill mode `R[S_TEXMODE]` selects, `FillModeOf` without its log and its fallback (R275). -/
def State.fillMode (s : State) : Option FillMode := fillModeOfCode s.cfg.pix.fill s.fillCode

/-- What the rasterizer holds for a whole polygon: "determined once per polygon ..., not per pixel" (R201, R270). -/
structure Poly where
  cfg : Cfg
  mode : FillMode
  visW : Nat
  visH : Nat
  rbase : Nat
  solid : Color
  alpha : Nat
  texWidth : Nat
  transEn : Bool
  transIdx : Nat
  zbias : Int
  fixedZ : Half
  pTex : Word
  pPal : Word
  bankA : Memory
  deriving DecidableEq, Repr

/-- The polygon parameters read at a dispatch (R201). -/
def State.poly (s : State) (mode : FillMode) : Poly where
  cfg := s.cfg
  mode := mode
  visW := s.disp.visW
  visH := s.disp.visH
  rbase := s.rbase
  solid := s.solidColour
  alpha := s.alphaFactor
  texWidth := s.texWidth
  transEn := s.transEn
  transIdx := s.transIdx
  zbias := s.zbiasVal
  fixedZ := s.fixedZ
  pTex := s.pTex
  pPal := s.pPal
  bankA := s.bankA

/-! ### Colours (R35) -/

/-- The red, green and blue channels of a colour value. -/
def channels (c : Cfg) (v : Color) : Vec3 Nat := c.pix.channelLo.map (fun lo => fieldNat v lo (channelWidth c.gen))

/-- A channel of a colour in its place. -/
def placeChannel (c : Cfg) (lo ch : Nat) : Color := place (BitVec.ofNat (channelWidth c.gen) ch) lo

/-- The colour value with the given channels, non-colour bits zero. -/
def packColour (c : Cfg) (ch : Vec3 Nat) : Color :=
  placeChannel c c.pix.channelLo.e0 ch.e0 ||| placeChannel c c.pix.channelLo.e1 ch.e1 |||
    placeChannel c c.pix.channelLo.e2 ch.e2

/-- The bits of a colour value that are no colour, by default bit 15, or bits 31:24 (R35). -/
def nonColourBits (c : Cfg) (v : Color) : Color := v &&& ~~~(packColour c (.all (2 ^ channelWidth c.gen - 1)))

/-! ### Fill modes (R276 to R285) -/

/-- `Shade(old)`: zero where the factor signals black, by default 0; else each channel times the factor over `2^alphaFrac`, by
default 256 (R278). -/
def shade (c : Cfg) (a : Nat) (old : Color) : Color :=
  if a = c.pix.alphaBlack then 0
  else nonColourBits c old ||| packColour c ((channels c old).map (fun ch => ch * a / 2 ^ c.pix.alphaFrac))

/-- `TexByte(o)`, the offset reduced modulo the byte size of the bank (R81, R281). -/
def Poly.texByte (p : Poly) (o : Int) : Byte :=
  let o := (o % ((p.cfg.aW * p.cfg.aH * p.cfg.aBytes : Nat) : Int)).toNat
  memRead8 p.cfg .bankA p.bankA (advance p.cfg .bankA p.pTex (o / p.cfg.aBytes)) (o % p.cfg.aBytes)

/-- The even or the odd texel of a byte of the 4-bit format (R81). -/
def texelNibble (even : Bool) (byte : Byte) : NibbleOrder → Nat
  | .lowFirst => if even then (byte.extractLsb' 0 4).toNat else (byte.extractLsb' 4 4).toNat
  | .highFirst => if even then (byte.extractLsb' 4 4).toNat else (byte.extractLsb' 0 4).toNat

/-- `Texel(u, v)`: the raw index (R281). -/
def Poly.texel (p : Poly) (u v : Int) : Nat :=
  let t := v * (p.texWidth : Int) + u
  match p.mode with
  | .textured4 => texelNibble (decide (t % 2 = 0)) (p.texByte (floorDiv t 2)) p.cfg.pix.nibbles
  | _ => (p.texByte t).toNat

/-- `PalEntry(i)` (R82). -/
def Poly.palEntry (p : Poly) (i : Nat) : Half :=
  let n := p.cfg.aBytes / 2
  memRead16 p.cfg .bankA p.bankA (advance p.cfg .bankA p.pPal (i / n)) (i % n)

/-- The red, green and blue channels of a palette entry, 5 bits each (R35, R283). -/
def paletteChannels (c : Cfg) (e : Half) : Vec3 Nat := c.pix.paletteLo.map (fun lo => (e.extractLsb' lo 5).toNat)

/-- A 5-bit channel widened to 8 bits: by default `(c << 3) | (c >> 2)` (R283; log entry 2). -/
def widen5 (c : Cfg) (ch : Nat) : Nat :=
  match c.pix.widen with
  | .standard => ch <<< 3 ||| ch >>> 2
  | .other k => (Config.widenOther k ch).toNat

/-- A palette channel as a channel of the generation's colours (R283). -/
def paletteChannel (c : Cfg) (ch : Nat) : Nat :=
  match c.gen with
  | .gen1 => ch
  | .gen2 => widen5 c ch

/-- `Pal(i)`: in generation 1 the entry without bit 15, by default (R283). -/
def Poly.pal (p : Poly) (i : Nat) : Color :=
  packColour p.cfg ((paletteChannels p.cfg (p.palEntry i)).map (paletteChannel p.cfg))

/-- One channel of the bilinear filter, `one` the weight of a whole texel, by default 256 (R284). -/
def bilinearChannel (one c00 c01 c10 c11 uf vf : Nat) : Nat :=
  let top := c00 * (one - uf) + c01 * uf
  let bot := c10 * (one - uf) + c11 * uf
  (top * (one - vf) + bot * vf) / (one * one)

/-- `Bilinear(c00, c01, c10, c11, uf, vf)` (R284). -/
def bilinear (cfg : Cfg) (c00 c01 c10 c11 : Color) (uf vf : Nat) : Color :=
  let a := channels cfg c00
  let b := channels cfg c01
  let c := channels cfg c10
  let d := channels cfg c11
  let one := 2 ^ cfg.pix.uvFrac
  packColour cfg
    ⟨bilinearChannel one a.e0 b.e0 c.e0 d.e0 uf vf, bilinearChannel one a.e1 b.e1 c.e1 d.e1 uf vf,
     bilinearChannel one a.e2 b.e2 c.e2 d.e2 uf vf⟩

/-- `Texture(U, V, mode)`; none where the top-left texel is transparent (R280, R282). -/
def Poly.texture (p : Poly) (u v : Int) : Option Color :=
  let one : Int := 2 ^ p.cfg.pix.uvFrac
  let u0 := floorDiv u one
  let uf := (u % one).toNat
  let v0 := floorDiv v one
  let vf := (v % one).toNat
  let i00 := p.texel u0 v0
  if p.transEn ∧ i00 = p.transIdx then none
  else
    some (bilinear p.cfg (p.pal i00) (p.pal (p.texel (u0 + 1) v0)) (p.pal (p.texel u0 (v0 + 1)))
      (p.pal (p.texel (u0 + 1) (v0 + 1))) uf vf)

/-- `applyIntensity(col, I)` of the configuration: the default leaves the colour unchanged (R285; log entry 2). -/
def applyIntensity (c : Cfg) (v : Color) (i : Int) : Color :=
  match c.applyIntensity with
  | .standard => v
  | .other k => Config.applyIntensityOther k v i

/-! ### The per-pixel operation (R270 to R272) -/

/-- `Depth(Z)` (R271). -/
def Poly.depth (p : Poly) (z : Int) : Half :=
  BitVec.ofInt 16 (clampInt (asr z p.cfg.zshift + p.zbias) 0 p.cfg.depthMax)

/-- The colour a pixel that passed its depth test receives, none where its texel is transparent (R270). -/
def Poly.colour (p : Poly) (old : Color) (u v i : Int) : Option Color :=
  match p.mode with
  | .solid => some p.solid
  | .solidFixedDepth => some p.solid
  | .shaded => some (shade p.cfg p.alpha old)
  | .textured4 => (p.texture u v).map (fun r => applyIntensity p.cfg r i)
  | .textured8 => (p.texture u v).map (fun r => applyIntensity p.cfg r i)

/-- `PixelOp` on the block of a pixel (R270). -/
def Poly.pixelOp (p : Poly) (blk : Nat) (z u v i : Int) (m : Memory) : Memory :=
  match p.mode with
  | .solidFixedDepth => setPixel p.cfg m blk p.solid p.fixedZ
  | _ =>
    if (p.depth z).toNat ≤ (pixDepth p.cfg m blk).toNat then
      match p.colour (pixColor p.cfg m blk) u v i with
      | some col => setPixel p.cfg m blk col (p.depth z)
      | none => m
    else m

/-! ### Scan conversion (R260 to R266) -/

/-- `E(a, b, p)`, the edge function (R262). -/
def edgeFn (a b : ScreenVertex) (px py : Int) : Int :=
  (b.sx - a.sx) * (py - a.sy) - (b.sy - a.sy) * (px - a.sx)

/-- `TopLeft(s, e)` (R263). -/
def topLeft (s e : ScreenVertex) : Bool :=
  decide (e.sy - s.sy < 0) || (decide (e.sy - s.sy = 0) && decide (0 < e.sx - s.sx))

/-- `Covered(w, s, e)` (R263). -/
def covered (w : Int) (s e : ScreenVertex) : Bool := decide (0 < w) || (decide (w = 0) && topLeft s e)

/-- One parameter at a covered pixel: the exact sum, one floor division (R266). -/
def interp (w0 w1 w2 area p0 p1 p2 : Int) : Int := floorDiv (w0 * p0 + w1 * p1 + w2 * p2) area

/-- Pixel `(px, py)` of a triangle of positive area (R262). -/
def Poly.trianglePixel (p : Poly) (a b c : ScreenVertex) (area : Int) (m : Memory) (px py : Nat) : Memory :=
  let x : Int := (px : Int) * 2 ^ p.cfg.subpix
  let y : Int := (py : Int) * 2 ^ p.cfg.subpix
  let w0 := edgeFn b c x y
  let w1 := edgeFn c a x y
  let w2 := edgeFn a b x y
  if covered w0 b c && covered w1 c a && covered w2 a b then
    p.pixelOp (pixelBlock p.cfg p.rbase px py) (interp w0 w1 w2 area a.zs b.zs c.zs)
      (interp w0 w1 w2 area a.us b.us c.us) (interp w0 w1 w2 area a.vs b.vs c.vs)
      (interp w0 w1 w2 area a.is b.is c.is) m
  else m

/-- A triangle of positive area over the visible rectangle (R262). -/
def Poly.triangle (p : Poly) (a b c : ScreenVertex) (area : Int) (m : Memory) : Memory :=
  forRect p.visW p.visH (p.trianglePixel a b c area) m

/-- `RasterTri(a, b, c, mode)` (R262). -/
def Poly.rasterTri (p : Poly) (a b c : ScreenVertex) (m : Memory) : Memory :=
  let area := edgeFn a b c.sx c.sy
  if area = 0 then m
  else if area < 0 then p.triangle a c b (-area) m
  else p.triangle a b c area m

/-- The fan from `a` over the remaining vertices, in order (R260). -/
def Poly.fanFrom (p : Poly) (a : ScreenVertex) : List ScreenVertex → Memory → Memory
  | b :: c :: r, m => p.fanFrom a (c :: r) (p.rasterTri a b c m)
  | [_], m => m
  | [], m => m

/-- `RasterFan(scr, mode)` (R260). -/
def Poly.rasterFan (p : Poly) (scr : List ScreenVertex) (m : Memory) : Memory :=
  match scr with
  | [] => m
  | a :: r => p.fanFrom a r m

end Sys2Proof.Machine
end

