-- ==== Sys2Proof/Machine/Scanout.lean ====
section
/-! DEFINITION. The display scanout controller (R310 to R318): scanout, frame end, reconfiguration. -/

namespace Sys2Proof.Machine

/-- The key of pixel `(y, x)` of the output bitmap; a bitmap is at most 65535 pixels wide (R36). -/
def outKey (y x : Nat) : Nat := y * 65536 + x

/-- The number of the reconfiguration that brought pixel `(y, x)` into the bitmap, from the bitmap's sizes, newest
first (R316). -/
def pixelBirth (y x : Nat) : List (Nat × Nat) → Nat
  | [] => 0
  | (w, h) :: older => if x < w ∧ y < h then pixelBirth y x older else older.length + 1

/-- Pixel `O[y][x]` of the output bitmap, a colour in the generation's format: the colour the last scanout wrote, or a free
value, of 16 bits in generation 1 (R32, R35). -/
def State.outPixel (s : State) (y x : Nat) : Color :=
  (s.out.pixels.get (outKey y x)).getD
    (storedColour s.cfg.gen (Config.unwrittenPixel (pixelBirth y x s.out.windows) y x))

/-- The pixels of rows `y0` to `y1 - 1` copied from the display region into the bitmap (R311). -/
def copyRows (c : Cfg) (m : Memory) (dbase visW y0 y1 : Nat) (o : Cells Color) : Cells Color :=
  forRect visW (y1 - y0)
    (fun o x dy => o.put (outKey (y0 + dy) x) (pixColor c m (pixelBlock c dbase x (y0 + dy)))) o

/-- `Scanout(y0, y1, partial)` (R311). -/
def scanout (y0 y1 : Nat) (isPartial : Bool) (s : State) : State :=
  { s with
    out := { s.out with pixels := copyRows s.cfg s.bankB s.dbase s.disp.visW y0 y1 s.out.pixels }
    log := s.log ++ [.scanout y0 y1 isPartial] }

/-- `FrameEnd()` (R312). -/
def frameEnd (s : State) : State :=
  { (scanout s.scanRow s.disp.visH false s).logEvent .frame with scanRow := 0 }

/-- `Valid(new)` (R315). -/
def Disp.acceptable (d : Disp) : Bool :=
  decide (0 < d.htotal ∧ 0 < d.vtotal ∧ d.xs < d.xe ∧ d.xe ≤ d.htotal ∧ d.ys < d.ye ∧ d.ye ≤ d.vtotal)

/-- The bitmap after a reconfiguration to `w × h`: the pixels common to the old and the new size are kept (R316). -/
def Output.resize (o : Output) (w h : Nat) : Output where
  pixels := o.pixels.filter (fun p => decide (p.1 % 65536 < w ∧ p.1 / 65536 < h))
  windows := (w, h) :: o.windows

/-- What a reconfiguration announces (R316). -/
def Disp.announcement (d : Disp) : Announcement where
  htotal := d.htotal
  vtotal := d.vtotal
  xs := d.xs
  xe := d.xe
  ys := d.ys
  ye := d.ye
  visW := d.visW
  visH := d.visH
  refreshDiv := d.htotal * d.vtotal

/-- The log event of a reconfiguration (R314). -/
def Disp.event (d : Disp) : Event := .reconfigured d.htotal d.vtotal d.xs d.xe d.ys d.ye

/-- The visible rows the beam has passed, `clamp(beam_row - YS, 0, VIS_H)` (R314). -/
def State.rowsPassed (s : State) : Nat := min (s.beamRow - s.disp.ys) s.disp.visH

/-- Part (a) of `Retime()`: the partial scanout under the old configuration (R314). -/
def retimeScanout (s : State) : State :=
  if s.disp.valid ∧ s.scanRow < s.rowsPassed then
    { scanout s.scanRow s.rowsPassed true s with scanRow := s.rowsPassed }
  else s

/-- Part (b) of `Retime()`: the new configuration taken (R314, R316). -/
def reconfigure (d : Disp) (s : State) : State :=
  { s with
    disp := d
    beamRow := s.beamRow % d.vtotal
    scanRow := min s.scanRow d.visH
    out := s.out.resize d.visW d.visH
    log := s.log ++ [d.event]
    announced := s.announced ++ [d.announcement] }

/-- `Retime()`, the side effect of a write to a timing slot (R314). -/
def retime (s : State) : State :=
  let s := retimeScanout s
  if s.timing.acceptable then reconfigure s.timing s else s

/-- `HLine`, one line of the display beam (R147). -/
def hLine (s : State) : State :=
  if !s.disp.valid then s
  else if s.beamRow + 1 < s.disp.vtotal then { s with beamRow := s.beamRow + 1 }
  else { frameEnd s with beamRow := 0 }

end Sys2Proof.Machine
end

