-- ==== Sys2Proof/Machine/Indirect.lean ====
section
/-! DEFINITION. The indirect-access groups (R85 to R88) and the side effects of a slot write (R142). -/

namespace Sys2Proof.Machine

/-- The address slot of a group advanced by one block, a plain store (R87). -/
def autoIncrement (bk : Bank) (s : State) : State :=
  if s.autoInc bk then
    s.setReg (addrSlot s.cfg bk) (advance s.cfg bk (s.reg (addrSlot s.cfg bk)) 1)
  else s

/-- The block of a bank that its group's address slot names. -/
def State.groupBlock (s : State) (bk : Bank) : Nat := blockNum s.cfg bk (s.reg (addrSlot s.cfg bk))

/-- The data slots of a group in use, with their index: the first `NDATA` of them (R30, R88). -/
def usedData (c : Cfg) (bk : Bank) : List (SlotNo × Nat) := ((dataSlots c bk).take (c.ndata bk)).zipIdx

/-- The addressed block read into the data slots, plain stores (R85). -/
def loadData (bk : Bank) (s : State) : State :=
  (usedData s.cfg bk).foldl
    (fun t p => t.setReg p.1 (lane32 s.cfg bk (s.mem bk) (s.groupBlock bk) p.2)) s

/-- `Latch(g)`, the side effect of a write to an address slot (R85). -/
def latch (bk : Bank) (s : State) : State :=
  if s.latchOn bk then autoIncrement bk (loadData bk s) else s

/-- The data slots written into the addressed block (R86). -/
def storeData (bk : Bank) (s : State) : State :=
  s.setMem bk ((usedData s.cfg bk).foldl
    (fun m p => setLane32 s.cfg bk m (s.groupBlock bk) p.2 (s.reg p.1)) (s.mem bk))

/-- `Commit(g, j)`, the side effect of a write to data slot `j` (R86). -/
def commit (bk : Bank) (j : Nat) (s : State) : State :=
  if s.writeThrough bk ∧ s.trig bk = j ∧ j < s.cfg.ndata bk then autoIncrement bk (storeData bk s) else s

/-- `SideEffect(slot, command)` (R142). A store into `S_FIFO` from inside a dispatch does not push; the host's push is
Machine/HostOps.lean's. -/
def sideEffect (slot : SlotNo) (s : State) : State :=
  if slot = s.cfg.slot.fifo then s
  else if slot = s.cfg.slot.iaAddr then latch .bankA s
  else if slot = s.cfg.slot.ibAddr then latch .bankB s
  else if slot = s.cfg.slot.iaD0 then commit .bankA 0 s
  else if slot = s.cfg.slot.iaD1 then commit .bankA 1 s
  else if slot = s.cfg.slot.ibD0 then commit .bankB 0 s
  else if slot = s.cfg.slot.ibD1 then commit .bankB 1 s
  else if slot = s.cfg.slot.ibD2 then commit .bankB 2 s
  else if slot = s.cfg.slot.tTotal then retime s
  else if slot = s.cfg.slot.tHvis then retime s
  else if slot = s.cfg.slot.tVvis then retime s
  else s

/-- A full store and its side effect, `R[slot] <- v ; SideEffect(slot, command)` (R161, R166). -/
def storeSlot (slot : SlotNo) (v : Word) (s : State) : State := sideEffect slot (s.setReg slot v)

/-- A store of one half: only the low half runs the side effect (R142, R164). -/
def storeHalf (high : Bool) (slot : SlotNo) (h : Half) (s : State) : State :=
  let t := s.setReg slot (replaceHalf (s.reg slot) high h)
  if high then t else sideEffect slot t

end Sys2Proof.Machine
end

