-- ==== Sys2Proof/Machine/StateCommands.lean ====
section
/-! DEFINITION. The state-setting commands (R160 to R175): PTRSET, REGW16, REGW32, MATRIX1, MATRIX2, LIGHTS, LIGHTL,
CLEAR. Each has an effect on the state, which a model list runs too (R160), and a meaning, which is that effect as
the next state: no command faults (R5). -/

namespace Sys2Proof.Machine

/-! ### PTRSET (R161) -/

/-- `DATA[0]: 0 -> 10, 1 -> 14` under the default layout (R161). -/
def quadSizeOf (c : Cfg) (data : Word) : QuadSize :=
  if data.getLsbD c.fmt.qsizeBit = c.fmt.qsizeCode then .q14 else .q10

/-- The effect of PTRSET (R161). -/
def ptrset (sel : BitVec 24) (data : Word) (s : State) : State :=
  if sel = s.cfg.psel.rt then storeSlot s.cfg.slot.page data s
  else if sel = s.cfg.psel.tex then { s with pTex := data }
  else if sel = s.cfg.psel.pal then { s with pPal := data }
  else if sel = s.cfg.psel.qsize then { s with pQsize := quadSizeOf s.cfg data }
  else s.logEvent (.unknownPointerSlot sel data)

/-- PTRSET. -/
def execPtrset (sel : BitVec 24) (data : Word) (s : State) : Host.Outcome State Fault Refusal :=
  .next (ptrset sel data s)

/-! ### REGW16, REGW32 (R164, R166) -/

/-- REGW16 (R164). -/
def execRegw16 (high : Bool) (slot : SlotNo) (data : Half) (s : State) : Host.Outcome State Fault Refusal :=
  .next (storeHalf high slot data s)

/-- REGW32 (R166). -/
def execRegw32 (slot : SlotNo) (data : Word) (s : State) : Host.Outcome State Fault Refusal :=
  .next (storeSlot slot data s)

/-! ### MATRIX (R168 to R170) -/

/-- `toF(e)`: a wire entry converted to binary32, `F32.ofRat(e / 2^FX_FRAC)` (R169). -/
def toF (c : Cfg) (e : Half) : Word := fOfRat c e.toInt c.fxFrac

/-- A wire translation component converted to binary32 (R169). -/
def transToF (c : Cfg) (t : Word) : Word := fOfInt c t.toInt

/-- The effect of MATRIX1: R168 in generation 1, R169 in generation 2. -/
def matrix1 (m : Mat3 Half) (t : Vec3 Word) (s : State) : State :=
  match s.cfg.gen with
  | .gen1 => { s with matFix := m, trans := t }
  | .gen2 => { s with matFlt := m.map (toF s.cfg), trans := t.map (transToF s.cfg) }

/-- MATRIX1. -/
def execMatrix1 (m : Mat3 Half) (t : Vec3 Word) (s : State) : Host.Outcome State Fault Refusal :=
  .next (matrix1 m t s)

/-- One entry of the generation-1 product: the exact sum, one rounding shift, `wrap16` (R170). -/
def dotFix (c : Cfg) (r k : Vec3 Half) : Half :=
  wrap16 c
    (fxRound c (r.e0.toInt * k.e0.toInt + r.e1.toInt * k.e1.toInt + r.e2.toInt * k.e2.toInt) c.fxFrac)

/-- One entry of the generation-2 product, in the written order (R170). -/
def dotFlt (c : Cfg) (r k : Vec3 Half) : Word :=
  fAdd c (fAdd c (fMul c (toF c r.e0) (toF c k.e0)) (fMul c (toF c r.e1) (toF c k.e1)))
    (fMul c (toF c r.e2) (toF c k.e2))

/-- The product of two matrices, row by column, with the generation's inner product. -/
def matMul {α β : Type} (dot : Vec3 α → Vec3 α → β) (a b : Mat3 α) : Mat3 β where
  r0 := ⟨dot a.r0 b.c0, dot a.r0 b.c1, dot a.r0 b.c2⟩
  r1 := ⟨dot a.r1 b.c0, dot a.r1 b.c1, dot a.r1 b.c2⟩
  r2 := ⟨dot a.r2 b.c0, dot a.r2 b.c1, dot a.r2 b.c2⟩

/-- The effect of MATRIX2 (R170). -/
def matrix2 (a b : Mat3 Half) (t : Vec3 Word) (s : State) : State :=
  match s.cfg.gen with
  | .gen1 => { s with matFix := matMul (dotFix s.cfg) a b, trans := t }
  | .gen2 => { s with matFlt := matMul (dotFlt s.cfg) a b, trans := t.map (transToF s.cfg) }

/-- MATRIX2. -/
def execMatrix2 (a b : Mat3 Half) (t : Vec3 Word) (s : State) : Host.Outcome State Fault Refusal :=
  .next (matrix2 a b t s)

/-! ### LIGHT (R172, R173) -/

/-- The effect of LIGHTS, in both generations (R172). -/
def lights (l : Vec3 Half) (s : State) : State := { s with light := l }

/-- LIGHTS. -/
def execLights (l : Vec3 Half) (s : State) : Host.Outcome State Fault Refusal := .next (lights l s)

/-- The effect of LIGHTL (R173). -/
def lightl (a : Vec3 Word) (s : State) : State := { s with aux := a }

/-- LIGHTL. -/
def execLightl (a : Vec3 Word) (s : State) : Host.Outcome State Fault Refusal := .next (lightl a s)

/-! ### CLEAR (R175) -/

/-- `DEPTH_MAX` as a stored depth. -/
def depthMaxHalf (c : Cfg) : Half := BitVec.ofNat 16 c.depthMax

/-- The visible rectangle of a region cleared: colour `CLEAR_COLOR`, depth `DEPTH_MAX`, no depth test (R175). -/
def clearRect (c : Cfg) (base w h : Nat) (m : Memory) : Memory :=
  forRect w h (fun m x y => setPixel c m (pixelBlock c base x y) c.clearColor (depthMaxHalf c)) m

/-- The effect of CLEAR (R175). -/
def clear (s : State) : State :=
  { s with bankB := clearRect s.cfg s.rbase s.disp.visW s.disp.visH s.bankB }

/-- CLEAR. -/
def execClear (s : State) : Host.Outcome State Fault Refusal := .next (clear s)

end Sys2Proof.Machine
end

