-- ==== Sys2Proof/Machine/DrawCommands.lean ====
section
/-! DEFINITION. The drawing commands (R190 to R202): QUAD, the model-list walker with DRAWMODEL, END and CHAIN, and the
unknown words of both contexts (R120, R195). -/

namespace Sys2Proof.Machine

/-! ### QUAD (R200, R201) -/

/-- The fill mode a polygon is drawn in, none where it is skipped (R275, R201). -/
def State.drawMode (s : State) : Option FillMode :=
  match s.fillMode with
  | some m => some m
  | none =>
    match s.cfg.unsupportedFill with
    | .skip => none
    | .solid => some .solid

/-- `FillModeOf`'s log: an unsupported code is logged once per QUAD, before the transform (R275). -/
def logFillMode (s : State) : State :=
  match s.fillMode with
  | some _ => s
  | none => s.logEvent (.unsupportedFillMode s.fillCode)

/-- `DrawQuad(vin)` (R201). -/
def drawQuad (vin : List InVertex) (s : State) : State :=
  let t := logFillMode s
  match s.drawMode with
  | none => t
  | some mode =>
    match s.screenOf vin with
    | none => t
    | some scr => { t with bankB := (s.poly mode).rasterFan scr s.bankB }

/-- QUAD in layout Q10 (R200). -/
def execQuadQ10 (q : Quad) (s : State) : Host.Outcome State Fault Refusal := .next (drawQuad q.list s)

/-- QUAD in layout Q14 (R200). -/
def execQuadQ14 (q : Quad) (s : State) : Host.Outcome State Fault Refusal := .next (drawQuad q.list s)

/-! ### Unknown words (R120, R195) -/

/-- An unknown opcode in the FIFO: logged, the buffer cleared, nothing else (R120). -/
def unknownFifo (w : Word) (s : State) : State := { s.logEvent (.unknownOpcode w) with fifo := [] }

/-- UNKNOWN.FIFO. -/
def execUnknownFifo (w : Word) (s : State) : Host.Outcome State Fault Refusal := .next (unknownFifo w s)

/-- An unknown word of a model list: logged with the address of its block, one word skipped (R192, R195). Outside a walk
there is no list to skip in. -/
def unknownModel (w : Word) (s : State) : State :=
  match s.walk with
  | none => s
  | some k =>
    { s.logEvent (.unknownSubcommand (streamAddr s.cfg k.mp k.k) w) with
      walk := some { k with k := k.k + 1, mrem := k.mrem - 1 } }

/-- UNKNOWN.MODEL. -/
def execUnknownModel (w : Word) (s : State) : Host.Outcome State Fault Refusal := .next (unknownModel w s)

/-! ### END, CHAIN (R196, R197) -/

/-- END: the walk stops (R196). -/
def endModel (s : State) : State := { s with walk := none }

/-- END. -/
def execEnd (s : State) : Host.Outcome State Fault Refusal := .next (endModel s)

/-- CHAIN: the walk continues at word lane 0 of the block at `addr` with `count` words to go; past `MAX_CHAIN` it is
logged and the walk stops (R192, R197; DEDUCED, safe, log entry 14). Outside a walk there is nothing to continue. -/
def chain (count : Half) (addr : Word) (s : State) : State :=
  match s.walk with
  | none => s
  | some k =>
    if s.cfg.maxChain ≤ k.mchain then { s.logEvent (.chainLimit addr) with walk := none }
    else { s with walk := some { mp := addr, k := 0, mrem := count.toNat, mchain := k.mchain + 1 } }

/-- CHAIN. -/
def execChain (count : Half) (addr : Word) (s : State) : Host.Outcome State Fault Refusal := .next (chain count addr s)

/-! ### The walker and DRAWMODEL (R190 to R195) -/

/-- The effect of a sub-command of a model list (R160, R192, R198). DRAWMODEL and the FIFO's unknown word are not read
in this context (R195). -/
def runSub (i : Instr) (s : State) : State :=
  match i with
  | .ptrset sel data => ptrset sel data s
  | .endModel => endModel s
  | .chain count addr => chain count addr s
  | .drawmodel _ _ => s
  | .regw16 high slot data => storeHalf high slot data s
  | .regw32 slot data => storeSlot slot data s
  | .matrix1 m t => matrix1 m t s
  | .matrix2 a b t => matrix2 a b t s
  | .lights l => lights l s
  | .lightl a => lightl a s
  | .clear => clear s
  | .quadQ10 q => drawQuad q.list s
  | .quadQ14 q => drawQuad q.list s
  | .unknownFifo _ => s
  | .unknownModel w => unknownModel w s

/-- The words `StreamWord(mp, k), …, StreamWord(mp, k+n-1)` (R192). -/
def streamWords (c : Cfg) (m : Memory) (mp : Word) (k n : Nat) : List Word :=
  (List.range n).map (fun j => streamWord c m mp (k + j))

/-- The walker moved past a known sub-command of `n` words (R192). -/
def Walker.past (k : Walker) (n : Nat) : Walker := { k with k := k.k + n, mrem := k.mrem - n }

/-- The instruction at the walker's position, read now (R192, R193); none where it would run past the count (R194). -/
def State.subAt (s : State) (k : Walker) : Option (Instr × Nat) :=
  let h := streamWord s.cfg s.bankA k.mp k.k
  let n := need s.cfg .model s.pQsize h
  if k.mrem < n then none
  else
    match decode s.cfg .model s.pQsize (streamWords s.cfg s.bankA k.mp k.k n) with
    | .ok (i, _) => some (i, n)
    | .error _ => none

/-- The state a sub-command of `n` words runs in: the walker has moved past its words (R192). An unknown word is skipped
by its own meaning, after it is logged. -/
def State.atSub (s : State) (k : Walker) (i : Instr) (n : Nat) : State :=
  match i with
  | .unknownModel _ => s
  | _ => { s with walk := some (k.past n) }

/-- One turn of the walker's loop (R192). -/
def walkTurn (s : State) : State :=
  match s.walk with
  | none => s
  | some k =>
    if k.mrem = 0 then { s with walk := none }
    else
      match s.subAt k with
      | none => { s with walk := none }
      | some (i, n) => runSub i (s.atSub k i n)

/-- Turns of the walker until the walk has ended, at most `n` of them. -/
def walkLoop : Nat → State → State
  | 0, s => s
  | n + 1, s =>
    match s.walk with
    | none => s
    | some _ => walkLoop n (walkTurn s)

/-- A bound on the turns of one walk: every turn but the last consumes a word or follows a CHAIN (R192). -/
def walkBound (c : Cfg) : Nat := (c.maxChain + 1) * 65536

/-- The effect of DRAWMODEL, `Walk(addr, count)` (R190, R192). -/
def drawmodel (count : Half) (addr : Word) (s : State) : State :=
  walkLoop (walkBound s.cfg) { s with walk := some { mp := addr, k := 0, mrem := count.toNat, mchain := 0 } }

/-- DRAWMODEL. -/
def execDrawmodel (count : Half) (addr : Word) (s : State) : Host.Outcome State Fault Refusal :=
  .next (drawmodel count addr s)

end Sys2Proof.Machine
end

