-- ==== Sys2Proof/Machine/Dispatch.lean ====
section
/-! DEFINITION. `exec`: one arm per constructor of `Instr`, each one direct call of its meaning. -/

namespace Sys2Proof.Machine

def exec (i : Instr) (s : State) : Host.Outcome State Fault Refusal :=
  match i with
  | .ptrset sel data => Sys2Proof.Machine.execPtrset sel data s
  | .endModel => Sys2Proof.Machine.execEnd s
  | .chain count addr => Sys2Proof.Machine.execChain count addr s
  | .drawmodel count addr => Sys2Proof.Machine.execDrawmodel count addr s
  | .regw16 high slot data => Sys2Proof.Machine.execRegw16 high slot data s
  | .regw32 slot data => Sys2Proof.Machine.execRegw32 slot data s
  | .matrix1 m t => Sys2Proof.Machine.execMatrix1 m t s
  | .matrix2 a b t => Sys2Proof.Machine.execMatrix2 a b t s
  | .lights l => Sys2Proof.Machine.execLights l s
  | .lightl a => Sys2Proof.Machine.execLightl a s
  | .clear => Sys2Proof.Machine.execClear s
  | .quadQ10 q => Sys2Proof.Machine.execQuadQ10 q s
  | .quadQ14 q => Sys2Proof.Machine.execQuadQ14 q s
  | .unknownFifo w => Sys2Proof.Machine.execUnknownFifo w s
  | .unknownModel w => Sys2Proof.Machine.execUnknownModel w s

end Sys2Proof.Machine
end

