-- ==== Sys2Proof/Machine/Flags.lean ====
section
/-! DEFINITION. "The Core has no condition codes, status flags or predicates" (R39). Its one status output is the
interrupt line (R335); beside it stands the refresh rate announced to the environment (R316). -/

namespace Sys2Proof.Machine

/-- The interrupt line `irq_fifo`: `R[S_CTRL].FIFO_RDY_EN`, bit 25 by default (R335, R25). -/
def State.irqFifo (s : State) : Bool := (s.reg s.cfg.slot.ctrl).getLsbD s.cfg.reg.fifoRdyEn

/-- `PIXCLK` in hertz: the configuration's, or a free positive rational where it gives none (R6, R316; log entry 5). -/
def pixclk (c : Cfg) : ℚ :=
  match c.pixclk with
  | some (num, den) => (num : ℚ) / (den : ℚ)
  | none => ((Config.pixclkNum : ℚ) + 1) / ((Config.pixclkDen : ℚ) + 1)

/-- The announced refresh rate, `PIXCLK / (HTOTAL × VTOTAL)` frames per second (R316). -/
def Announcement.refreshRate (c : Cfg) (a : Announcement) : ℚ := pixclk c / (a.refreshDiv : ℚ)

end Sys2Proof.Machine
end

