-- ==== Sys2Proof/Machine/HostOps.lean ====
section
/-! DEFINITION. The host-level operations (R140 to R147): register access, the FIFO push, the display line. -/

namespace Sys2Proof.Machine

/-- The access is a half access: generation 1, `HALFMODE` set before the access, requested width 16 (R140). -/
def State.halfAccess (s : State) (w : Width) : Bool := s.cfg.gen == .gen1 && s.halfMode && w == .w16

/-- The FIFO emptied after a command has run (R145). -/
def clearFifo : Host.Outcome State Fault Refusal → Host.Outcome State Fault Refusal
  | .next t => .next { t with fifo := [] }
  | .fault r => .fault r
  | .refused r => .refused r

/-- `FifoPush(word)` (R145): the word is appended; a command that is complete runs and the buffer is emptied. -/
def fifoPush (w : Word) (s : State) : Host.Outcome State Fault Refusal :=
  let t : State := { s with fifo := s.fifo ++ [w] }
  match decode s.cfg .fifo s.pQsize t.fifo with
  | .error _ => .next t
  | .ok (i, _) => clearFifo (exec i t)

/-- `SideEffect(slot, host)` (R142): the push port pushes the slot's whole content (R144). -/
def hostSideEffect (slot : SlotNo) (s : State) : Host.Outcome State Fault Refusal :=
  if slot = s.cfg.slot.fifo then fifoPush (s.reg slot) s else .next (sideEffect slot s)

/-- `RegWrite(slot, half, value, width)` (R141). -/
def regWrite (slot : SlotNo) (high : Bool) (value : Word) (w : Width) (s : State) :
    Host.Outcome State Fault Refusal :=
  if s.halfAccess w then
    let t := s.setReg slot (replaceHalf (s.reg slot) high (lo16 value))
    if high then .next t else hostSideEffect slot t
  else hostSideEffect slot (s.setReg slot value)

/-- The value `RegRead(slot, half, width)` returns (R143). -/
def regReadValue (slot : SlotNo) (high : Bool) (w : Width) (s : State) : Word :=
  if s.halfAccess w then (if high then hi16 (s.reg slot) else lo16 (s.reg slot)).setWidth 32 else s.reg slot

/-- `RegRead(slot, half, width)`: the value goes to the host; no state of the Core changes (R143). -/
def regRead (slot : SlotNo) (high : Bool) (w : Width) (s : State) : State :=
  { s with replies := s.replies ++ [regReadValue slot high w s] }

/-- One operation of the environment, run to completion (R10, R12). -/
def hostOp (op : HostOp) (s : State) : Host.Outcome State Fault Refusal :=
  match op with
  | .regWrite slot high value w => regWrite slot high value w s
  | .regRead slot high w => .next (regRead slot high w s)
  | .fifoPush w => fifoPush w s
  | .hLine => .next (hLine s)

/-- The next operation issued, or nothing where none is: "Between operations it is idle with all state held" (R345). -/
def nextOp (s : State) : Host.Outcome State Fault Refusal :=
  match s.inputs with
  | [] => .next s
  | op :: rest => hostOp op { s with inputs := rest }

/-- One turn of a walk in progress, the sub-command run by `exec` (R192). -/
def walkStep (k : Walker) (s : State) : Host.Outcome State Fault Refusal :=
  if k.mrem = 0 then .next { s with walk := none }
  else
    match s.subAt k with
    | none => .next { s with walk := none }
    | some (i, n) => exec i (s.atSub k i n)

end Sys2Proof.Machine
end

