-- ==== Sys2Proof/Machine/Step.lean ====
section
/-! DEFINITION. The step function: one operation of the environment, atomic (R10), or one turn of a walk where the state
is in the middle of one; and the host's way to place one instruction where the next step runs it. -/

namespace Sys2Proof.Machine

/-- One step. No state a run from reset meets has a walk in progress. -/
def step (s : State) : Host.Outcome State Fault Refusal :=
  match s.walk with
  | some k => walkStep k s
  | none => nextOp s

/-- Words stored in bank A as the stream that begins at an expanded address (R80). -/
def storeStream (c : Cfg) (a : Word) : Nat → List Word → Memory → Memory
  | _, [], m => m
  | k, w :: ws, m =>
    storeStream c a (k + 1) ws (memWrite32 c .bankA m (streamAddr c a k) (k % wordsPerBlock c) w)

/-- The state in which the very next step runs the instruction with bits `w`: a FIFO command has all its words but the
last in the buffer and the last in a push that is next; a command only a model list knows lies in bank A at address 0,
under a walk whose count is its length. A fifteenth or later word has no place: no command is longer than fourteen
(DESIGN CHOICE, safe, log entry 10). -/
def State.withFetchWord (s : State) (nbits w : Nat) : State :=
  let ws := wordsOf 14 nbits w
  let w0 := ws.headD 0
  match tableCtx s.cfg w0 with
  | .fifo =>
    let q := if opOf w0 = s.cfg.op.quad then tableSize nbits else s.pQsize
    let n := need s.cfg .fifo q w0
    { s with
      pQsize := q
      fifo := ws.take (n - 1)
      walk := none
      inputs := .fifoPush ((ws.drop (n - 1)).headD 0) :: s.inputs }
  | .model =>
    let n := need s.cfg .model s.pQsize w0
    { s with
      bankA := storeStream s.cfg 0 0 (ws.take n) s.bankA
      walk := some { mp := 0, k := 0, mrem := n, mchain := 0 } }

end Sys2Proof.Machine
end

