-- ==== Sys2Proof/Safety.lean ====
section
/-! DEFINITION. What claims are stated in: the invariants of R42 and of the model's data, the part of the state no slot
write touches, and the words in which claims about runs, walks and pixels are put. "No operation can fault" (R5): a
safe run is one that goes on, so safety here is that every step answers a next state. -/

/-- Component `i` of a vector. -/
def Sys2Proof.Vec3.get {α : Type} (v : Sys2Proof.Vec3 α) : Fin 3 → α
  | 0 => v.e0
  | 1 => v.e1
  | 2 => v.e2

/-- Entry `[r][c]` of a matrix. -/
def Sys2Proof.Mat3.entry {α : Type} (m : Sys2Proof.Mat3 α) (r c : Fin 3) : α :=
  (Sys2Proof.Vec3.get (Sys2Proof.Vec3.mk m.r0 m.r1 m.r2) r).get c

/-- The layouts of the commands and their word counts are the spec's defaults (R115 to R122). -/
def Sys2Proof.Cfg.DefaultEncoding (c : Sys2Proof.Cfg) : Prop :=
  c.fmt = Sys2Proof.Machine.defaultFormats ∧ c.counts = Sys2Proof.Machine.defaultCounts

/-- The fields of the register slots stand where the spec's defaults put them (R25, R26, R30, R36, R37). -/
def Sys2Proof.Cfg.DefaultRegFields (c : Sys2Proof.Cfg) : Prop := c.reg = Sys2Proof.Machine.defaultRegFields c.gen

/-- The reset values are the spec's defaults (R41). -/
def Sys2Proof.Cfg.DefaultReset (c : Sys2Proof.Cfg) : Prop := c.reset = Sys2Proof.Machine.defaultReset c.gen

/-- The numbers of the pixel formats are the spec's defaults (R35, R83, R275 to R283). -/
def Sys2Proof.Cfg.DefaultPixels (c : Sys2Proof.Cfg) : Prop := c.pix = Sys2Proof.Machine.defaultPixels c.gen

namespace Sys2Proof.Machine

/-- The machine goes on: the step answers a next state (R5). -/
def State.goesOn (s : State) : Prop := ∃ t, step s = .next t

/-! ### Invariants -/

/-- R42 (a): a complete command never rests in the buffer, and the command that rests in it is a known one. -/
def State.pendingIncomplete (s : State) : Prop :=
  ∀ w0 ∈ s.fifo.head?, s.cfg.opKnown .fifo (opOf w0) = true ∧ s.fifo.length < need s.cfg .fifo s.pQsize w0

/-- R42 (c): the display state is consistent. -/
structure State.displayOk (s : State) : Prop where
  scan_le : s.scanRow ≤ s.disp.visH
  beam_lt : s.disp.valid = true → s.beamRow < s.disp.vtotal
  acceptable : s.disp.valid = true → s.disp.acceptable = true

/-- R42 (a) to (d). Part (b), `P_QSIZE ∈ {10, 14}`, is the type `QuadSize`. -/
structure State.r42 (s : State) : Prop where
  pending : s.pendingIncomplete
  qsize : s.pQsize.words = 10 ∨ s.pQsize.words = 14
  display : s.displayOk
  fifo_le : s.fifo.length ≤ 13

/-- The number of bytes of a bank (R34). -/
def bankBytes (c : Cfg) (bk : Bank) : Nat := c.height bk * c.width bk * c.blockBytes bk

/-- The written bytes of a bank are in canonical form and lie inside the bank (R34, R72). -/
structure bankOk (c : Cfg) (bk : Bank) (m : Memory) : Prop where
  wf : Memory.wf m
  inside : ∀ p ∈ m, p.1 < bankBytes c bk

/-- The written pixels of the output bitmap are in canonical form, lie inside it and are colours in the generation's
format (R32, R35). -/
structure State.outOk (s : State) : Prop where
  wf : Cells.Wf s.out.pixels
  inside : ∀ p ∈ s.out.pixels, p.1 % 65536 < s.disp.visW ∧ p.1 / 65536 < s.disp.visH
  format : ∀ p ∈ s.out.pixels, storedColour s.cfg.gen p.2 = p.2

/-- The invariant of every state between two operations. -/
structure State.Inv (s : State) : Prop where
  cfg_wf : s.cfg.Wf
  r42 : s.r42
  bankA_ok : bankOk s.cfg .bankA s.bankA
  bankB_ok : bankOk s.cfg .bankB s.bankB
  out_ok : s.outOk
  visW_le : s.disp.visW ≤ 65535
  no_walk : s.walk = none

/-! ### Frames -/

/-- The part of the state that no slot write and no side effect of one touches (R142). -/
structure SlotFrame where
  cfg : Cfg
  pTex : Word
  pPal : Word
  pQsize : QuadSize
  matFix : Mat3 Half
  matFlt : Mat3 Word
  trans : Vec3 Word
  light : Vec3 Half
  aux : Vec3 Word
  fifo : List Word
  replies : List Word
  walk : Option Walker
  inputs : List HostOp

/-- See `SlotFrame`. -/
def State.slotFrame (s : State) : SlotFrame :=
  ⟨s.cfg, s.pTex, s.pPal, s.pQsize, s.matFix, s.matFlt, s.trans, s.light, s.aux, s.fifo, s.replies, s.walk, s.inputs⟩

/-! ### Binary32 -/

/-- A row of a matrix and a translation component are finite binary32 values. -/
def finiteRow (r : Vec3 Word) (t : Word) : Prop :=
  F32.isFinite r.e0 = true ∧ F32.isFinite r.e1 = true ∧ F32.isFinite r.e2 = true ∧ F32.isFinite t = true

/-- Two binary32 values compare equal: they are the same, or both are zeros of any sign (R223). -/
def sameValue (x t : Word) : Prop := (F32.magUnits t ≠ 0 → x = t) ∧ (F32.magUnits t = 0 → F32.magUnits x = 0)

/-! ### Scanout -/

/-- A write of a timing slot copies rows of the old geometry first: the beam has passed rows not yet copied (R314). -/
def State.rowsDue (s : State) : Bool :=
  s.disp.valid && decide (s.scanRow < min (s.beamRow - s.disp.ys) s.disp.visH)

/-! ### Walks, pixels -/

/-- A sample lies in a triangle of positive area, by the rule of its three edges (R262, R263). -/
def triangleCovers (a b c : ScreenVertex) (px py : Int) : Bool :=
  covered (edgeFn b c px py) b c && covered (edgeFn c a px py) c a && covered (edgeFn a b px py) a b

/-- `n` turns of the walker. -/
def walkTurns : Nat → State → State
  | 0, s => s
  | n + 1, s => walkTurns n (walkTurn s)

/-- A block of the visible rectangle of the render region (R84, R262). -/
def State.visibleBlock (s : State) (blk : Nat) : Prop :=
  ∃ x y, x < s.disp.visW ∧ y < s.disp.visH ∧ blk = pixelBlock s.cfg s.rbase x y

/-- A byte of bank B that a drawing command may store to: the colour or the depth of a visible pixel. -/
def State.drawableByte (s : State) (a : Nat) : Prop := ∃ blk, s.visibleBlock blk ∧ a ∈ pixelAddrs s.cfg blk

end Sys2Proof.Machine
end

