-- ==== Sys2Proof/Certificates/Slice0/Obligations.lean ====
section
/-! DEFINITION. The statements for the provers, one `def Obligations.<Name> : Prop` each, listed in OBLIGATIONS.json.
An equation `exec i s = .next { s with … }` is a completion statement, a result and a frame at once: every register,
every byte of both banks and every other field that the record does not name is as before. -/

open Sys2Proof Sys2Proof.Machine

/-! ### Encoding -/

/-- R110 to R122: the decoder reads back every well-formed instruction from its words, in every context and under every
quad payload size it can be met in, whatever words follow. -/
def Obligations.DecodeReadsBackEncode : Prop :=
  ∀ (c : Cfg), c.Wf → ∀ (ctx : Ctx) (q : QuadSize) (i : Instr) (rest : List Word),
    i.wf c = true → i.inCtx ctx = true → i.underSize q = true →
    decode c ctx q (encode c i ++ rest) = .ok (i, rest)

/-- R110, R112, R115: the first word alone tells the length; the decoder takes exactly `need` words, and answers that
the command is incomplete exactly where there are fewer. -/
def Obligations.DecodeTakesExactlyNeed : Prop :=
  ∀ (c : Cfg) (ctx : Ctx) (q : QuadSize) (w0 : Word) (ws : List Word),
    (need c ctx q w0 ≤ (w0 :: ws).length →
      ∃ i, decode c ctx q (w0 :: ws) = .ok (i, (w0 :: ws).drop (need c ctx q w0))) ∧
    ((w0 :: ws).length < need c ctx q w0 →
      decode c ctx q (w0 :: ws) = .error (.incomplete (need c ctx q w0)))

/-- R113, R116 to R119: a few words of the spec's own examples decode to what they stand for. -/
def Obligations.DecodeReadsExampleWords : Prop :=
  decode (defaultCfg .gen1) .fifo .q10 [0x01000002, 0x00100008] = .ok (.ptrset 2 0x00100008, []) ∧
  decode (defaultCfg .gen1) .fifo .q10 [0x17C00200] = .ok (.regw16 true 0x40 0x0200, []) ∧
  decode (defaultCfg .gen1) .fifo .q10 [0x182F0000, 0x00000054] = .ok (.regw32 0x2F 0x54, []) ∧
  decode (defaultCfg .gen1) .fifo .q10 [0x23000010, 0xFFF00100] = .ok (.lights ⟨16, -16, 256⟩, []) ∧
  decode (defaultCfg .gen1) .model .q10 [0x0C000004, 0x00210000] = .ok (.chain 4 0x00210000, []) ∧
  decode (defaultCfg .gen1) .fifo .q10 [0x0C000001] = .ok (.unknownFifo 0x0C000001, [])

/-! ### The step -/

/-- R145 (R10): the push of the word that completes a command runs the decoded instruction, with the whole command still
in the buffer, and then empties the buffer. A push through the port is `HostPushesThroughPort` and
`HostWriteByWidth`. -/
def Obligations.StepRunsPushedCommand : Prop :=
  ∀ (s : State) (w : Word) (rest : List HostOp) (i : Instr) (r : List Word),
    s.walk = none → s.inputs = .fifoPush w :: rest →
    decode s.cfg .fifo s.pQsize (s.fifo ++ [w]) = .ok (i, r) →
    ∃ t, exec i { s with inputs := rest, fifo := s.fifo ++ [w] } = .next t ∧ step s = .next { t with fifo := [] }

/-- R145: "If the buffer has not yet reached that count, the call returns with no other effect". -/
def Obligations.PartialCommandOnlyBuffers : Prop :=
  ∀ (s : State) (w : Word) (rest : List HostOp),
    s.walk = none → s.inputs = .fifoPush w :: rest →
    (∀ w0 ∈ (s.fifo ++ [w]).head?, (s.fifo ++ [w]).length < need s.cfg .fifo s.pQsize w0) →
    step s = .next { s with inputs := rest, fifo := s.fifo ++ [w] }

/-- R192, R193: inside a walk the instruction at the walker's position, decoded from the words bank A holds now, runs
with the walker past its words (an unknown word is skipped by its own meaning); the turn a DRAWMODEL takes is the same.
That a walk can be stepped is the model's own device (DESIGN CHOICE, log entry 8). -/
def Obligations.StepRunsListCommand : Prop :=
  ∀ (s : State) (k : Walker) (i : Instr) (r : List Word), s.cfg.Wf →
    s.walk = some k →
    need s.cfg .model s.pQsize (streamWord s.cfg s.bankA k.mp k.k) ≤ k.mrem →
    decode s.cfg .model s.pQsize (streamWords s.cfg s.bankA k.mp k.k
      (need s.cfg .model s.pQsize (streamWord s.cfg s.bankA k.mp k.k))) = .ok (i, r) →
    ∃ t, exec i (s.atSub k i (need s.cfg .model s.pQsize (streamWord s.cfg s.bankA k.mp k.k))) = .next t ∧
      step s = .next t ∧ walkTurn s = t

/-- R192, R194: a sub-command that would run past the count is not executed, nothing is logged, and the walk ends. That
a state can hold a walk, and that a step takes one turn of it, is the model's own device (DESIGN CHOICE, log entry 8). -/
def Obligations.TruncatedSubcommandEndsWalk : Prop :=
  ∀ (s : State) (k : Walker), s.walk = some k →
    k.mrem < need s.cfg .model s.pQsize (streamWord s.cfg s.bankA k.mp k.k) →
    step s = .next { s with walk := none } ∧ walkTurn s = { s with walk := none }

/-- R5, R330: "no operation can fault". Every instruction and every step answers a next state, in every state. -/
def Obligations.NoOperationStops : Prop :=
  (∀ (i : Instr) (s : State), ∃ t, exec i s = .next t) ∧ ∀ s : State, s.goesOn

/-! ### Invariants -/

/-- R41, R42, R360: the invariant holds right after reset under every legal configuration, and of `State.reset`, whose
generation is the model's choice (DESIGN CHOICE, log entry 1). -/
def Obligations.ResetMeetsInvariant : Prop :=
  (∀ c : Cfg, c.Wf → (State.resetOf c).Inv) ∧ State.reset.Inv

/-- The invariant is kept by every step: R42's display and FIFO conditions, the canonical form and the bounds of both
banks and of the bitmap, no walk between operations, a legal configuration. -/
def Obligations.StepKeepsInvariant : Prop :=
  ∀ s t : State, s.Inv → step s = .next t → t.Inv

/-- R42: its conditions hold after reset and after every operation. -/
def Obligations.R42HoldsAlways : Prop :=
  (∀ c : Cfg, c.Wf → (State.resetOf c).r42) ∧ ∀ s t : State, s.Inv → step s = .next t → t.r42

/-- R2, R6: the configuration, the generation with it, is "never changed by any operation". -/
def Obligations.StepKeepsConfiguration : Prop :=
  ∀ s t : State, step s = .next t → t.cfg = s.cfg

/-- R33: the log is append-only. So are the lists of the replies to the host and of the announcements, which are the
model's own record of R13's outputs (DESIGN CHOICE, log entry 15). -/
def Obligations.OutputsOnlyGrow : Prop :=
  ∀ s t : State, step s = .next t →
    s.log <+: t.log ∧ s.replies <+: t.replies ∧ s.announced <+: t.announced

/-- R33: "No rule reads `log`; it is an output": a step from a state with another log takes the same state in all else
and appends the same events. -/
def Obligations.NoRuleReadsLog : Prop :=
  ∀ (s t : State) (l : List Event), step s = .next t →
    ∃ e, t.log = s.log ++ e ∧ step { s with log := l } = .next { t with log := l ++ e }

/-! ### PTRSET, REGW16, REGW32 -/

/-- R161: under the default layout `SEL` and `DATA` come from the two words and bit 0 of `DATA` selects the quad size; each
selector writes its pointer slot and nothing else; the
render-target base is the page-select slot, whose store has no further effect; another selector is logged and has no
other effect. R161 writes bit 0 of `DATA`: that the quad size follows bit `s.cfg.fmt.qsizeBit` under any layout, by
its code `qsizeCode`, is the model's inference (DEDUCED, log entry 11). -/
def Obligations.PtrsetWritesItsSlot : Prop :=
  ∀ (s : State) (data : Word), s.cfg.Wf →
    (s.cfg.DefaultEncoding →
      (∀ ctx w0 r, opOf w0 = s.cfg.op.ptrset →
        decode s.cfg ctx s.pQsize (w0 :: data :: r) = .ok (.ptrset (w0.extractLsb' 0 24) data, r)) ∧
      exec (.ptrset s.cfg.psel.qsize data) s =
        .next { s with pQsize := if data.getLsbD 0 then QuadSize.q14 else QuadSize.q10 }) ∧
    exec (.ptrset s.cfg.psel.rt data) s = .next (s.setReg s.cfg.slot.page data) ∧
    exec (.ptrset s.cfg.psel.tex data) s = .next { s with pTex := data } ∧
    exec (.ptrset s.cfg.psel.pal data) s = .next { s with pPal := data } ∧
    exec (.ptrset s.cfg.psel.qsize data) s =
      .next { s with pQsize := if data.getLsbD s.cfg.fmt.qsizeBit = s.cfg.fmt.qsizeCode then QuadSize.q14 else QuadSize.q10 } ∧
    ∀ sel, sel ∉ [s.cfg.psel.rt, s.cfg.psel.tex, s.cfg.psel.pal, s.cfg.psel.qsize] →
      exec (.ptrset sel data) s = .next { s with log := s.log ++ [.unknownPointerSlot sel data] }

/-- R164: under the default layout `HALF`, `SLOT` and `DATA16` come from the one word; the low half is replaced and the side effect runs; the high
half is replaced and none runs; a store into the push port does not push, a slot with no function only stores. -/
def Obligations.Regw16WritesHalf : Prop :=
  ∀ (s : State) (slot : SlotNo) (d : Half), s.cfg.Wf →
    (s.cfg.DefaultEncoding → ∀ ctx w0 r, opOf w0 = s.cfg.op.regw16 →
      decode s.cfg ctx s.pQsize (w0 :: r) = .ok (.regw16 (w0.getLsbD 23) (w0.extractLsb' 16 7) (lo16 w0), r)) ∧
    exec (.regw16 true slot d) s = .next (s.setReg slot (joinHalves d (lo16 (s.reg slot)))) ∧
    exec (.regw16 false slot d) s =
      .next (sideEffect slot (s.setReg slot (joinHalves (hi16 (s.reg slot)) d))) ∧
    (slot ∉ s.cfg.slot.active ∨ slot = s.cfg.slot.fifo →
      exec (.regw16 false slot d) s = .next (s.setReg slot (joinHalves (hi16 (s.reg slot)) d)))

/-- R166, R142: under the default layout `SLOT` and `DATA` come from the two words; the whole slot is written and its side effect runs: none for a
slot with no function and for the push port (which stores and does not push), a latch for an address slot, a commit for
a data slot, a retime for a timing slot. -/
def Obligations.Regw32WritesSlot : Prop :=
  ∀ (s : State) (slot : SlotNo) (v : Word), s.cfg.Wf →
    (s.cfg.DefaultEncoding → ∀ ctx w0 r, opOf w0 = s.cfg.op.regw32 →
      decode s.cfg ctx s.pQsize (w0 :: v :: r) = .ok (.regw32 (w0.extractLsb' 16 7) v, r)) ∧
    exec (.regw32 slot v) s = .next (sideEffect slot (s.setReg slot v)) ∧
    (slot ∉ s.cfg.slot.active ∨ slot = s.cfg.slot.fifo → exec (.regw32 slot v) s = .next (s.setReg slot v)) ∧
    (∀ bk, slot = addrSlot s.cfg bk → exec (.regw32 slot v) s = .next (latch bk (s.setReg slot v))) ∧
    (∀ bk j, (dataSlots s.cfg bk)[j]? = some slot →
      exec (.regw32 slot v) s = .next (commit bk j (s.setReg slot v))) ∧
    (slot ∈ [s.cfg.slot.tTotal, s.cfg.slot.tHvis, s.cfg.slot.tVvis] →
      exec (.regw32 slot v) s = .next (retime (s.setReg slot v)))

/-- R21, R24, R142: no slot write, whatever its side effect, touches a pointer slot, the transform state, the FIFO or the
configuration; this is the frame of REGW16 and REGW32. -/
def Obligations.SlotWriteFrame : Prop :=
  ∀ (s : State) (slot : SlotNo) (v : Word) (high : Bool) (d : Half),
    (∃ t, exec (.regw32 slot v) s = .next t ∧ t.slotFrame = s.slotFrame) ∧
    (∃ t, exec (.regw16 high slot d) s = .next t ∧ t.slotFrame = s.slotFrame)

/-! ### Indirect access -/

/-- R85, R87: under `LATCH` a write of an address slot reads the addressed block into the data slots and, under
`AUTOINC`, advances the address by one block; no other register and nothing else changes. Without `LATCH` it only
stores. -/
def Obligations.LatchReadsBlock : Prop :=
  ∀ (s : State) (bk : Bank) (v : Word), s.cfg.Wf →
    (s.latchOn bk = false → exec (.regw32 (addrSlot s.cfg bk) v) s = .next (s.setReg (addrSlot s.cfg bk) v)) ∧
    (s.latchOn bk = true →
      ∃ t, exec (.regw32 (addrSlot s.cfg bk) v) s = .next t ∧
        t = { s with regs := t.regs } ∧
        (∀ p ∈ usedData s.cfg bk, t.reg p.1 = lane32 s.cfg bk (s.mem bk) (blockNum s.cfg bk v) p.2) ∧
        t.reg (addrSlot s.cfg bk) = (if s.autoInc bk then advance s.cfg bk v 1 else v) ∧
        ∀ i, i ≠ addrSlot s.cfg bk → i ∉ (usedData s.cfg bk).map Prod.fst → t.reg i = s.reg i)

/-- R86, R87: under `WTHRU` a write of the trigger data slot stores all the data slots into the addressed block, word
lane by word lane, and, under `AUTOINC`, advances the address; no other block, no other register and nothing else
changes. A write of another data slot, or without `WTHRU`, only stores. -/
def Obligations.CommitWritesBlock : Prop :=
  ∀ (s : State) (bk : Bank) (j : Nat) (slot : SlotNo) (v : Word), s.cfg.Wf →
    (dataSlots s.cfg bk)[j]? = some slot →
    (¬ (s.writeThrough bk = true ∧ s.trig bk = j ∧ j < s.cfg.ndata bk) →
      exec (.regw32 slot v) s = .next (s.setReg slot v)) ∧
    (s.writeThrough bk = true → s.trig bk = j → j < s.cfg.ndata bk →
      ∃ t, exec (.regw32 slot v) s = .next t ∧
        t = { s with regs := t.regs, bankA := t.bankA, bankB := t.bankB } ∧
        (∀ p ∈ usedData s.cfg bk,
          lane32 s.cfg bk (t.mem bk) (s.groupBlock bk) p.2 = (if p.1 = slot then v else s.reg p.1)) ∧
        (∀ a, (∀ p ∈ usedData s.cfg bk, a ∉ laneAddrs32 s.cfg bk (s.groupBlock bk) p.2) →
          (t.mem bk).get a = (s.mem bk).get a) ∧
        (∀ bk', bk' ≠ bk → t.mem bk' = s.mem bk') ∧
        t.reg slot = v ∧
        t.reg (addrSlot s.cfg bk) =
          (if s.autoInc bk then advance s.cfg bk (s.reg (addrSlot s.cfg bk)) 1 else s.reg (addrSlot s.cfg bk)) ∧
        ∀ i, i ≠ slot → i ≠ addrSlot s.cfg bk → t.reg i = s.reg i)

/-! ### MATRIX, LIGHT -/

/-- R168: a single-matrix load of generation 1, from the eight words of the wire in the default layout: each entry and each
translation component comes from its place in the words; nothing else changes. -/
def Obligations.Matrix1LoadsGen1 : Prop :=
  ∀ s : State, s.cfg.Wf → s.cfg.gen = .gen1 →
    (∀ m t, exec (.matrix1 m t) s = .next { s with matFix := m, trans := t }) ∧
    (s.cfg.DefaultEncoding → ∀ w0 w1 w2 w3 w4 w5 w6 w7 : Word, opOf w0 = s.cfg.op.matrix → lo16 w0 ≠ s.cfg.matrixDisc →
      decode s.cfg .fifo s.pQsize [w0, w1, w2, w3, w4, w5, w6, w7] =
        .ok (.matrix1
          ⟨⟨lo16 w2, hi16 w2, lo16 w0⟩, ⟨lo16 w3, hi16 w3, hi16 w1⟩, ⟨lo16 w4, hi16 w4, lo16 w1⟩⟩ ⟨w5, w6, w7⟩, []))

/-- R169: in generation 2 the same operands are converted by the configuration's `F32`, the entries as `e / 2^FX_FRAC`, the
translation as integers. R169 writes `e / 2^14`; that 14 stands for the field `FX_FRAC` is an inference (DEDUCED, log
entry 11). -/
def Obligations.Matrix1LoadsGen2 : Prop :=
  ∀ (s : State) (m : Mat3 Half) (t : Vec3 Word), s.cfg.gen = .gen2 →
    exec (.matrix1 m t) s = .next { s with
      matFlt := m.map (fun e => fOfRat s.cfg e.toInt s.cfg.fxFrac)
      trans := t.map (fun v => fOfInt s.cfg v.toInt) }

/-- R169: the conversion of a wire entry is exact in binary32 for the default 14 fractional bits. It speaks of the default
`F32` record, as the model writes it (log entry 2); another record's conversion is free. -/
def Obligations.EntryConversionIsExact : Prop :=
  ∀ e : Half, F32.isFinite (F32.ofRat e.toInt 14) = true ∧
    F32.units (F32.ofRat e.toInt 14) * 2 ^ 14 = e.toInt * 2 ^ 149

/-- R170: a two-matrix load multiplies row by column: in generation 1 each entry is the wrap of the rounding of the exact
sum, by the configuration's `fxRound` and `wrap16`, which by default is the 16-bit wrap of the floor of the sum over
`2^FX_FRAC`; in generation 2 it is the sum in the written order, by the configuration's `F32`. The default functions are
the model's writing of R6's (log entry 2); `toF` divides by `2^FX_FRAC` where R169 writes `2^14` (DEDUCED, log
entry 11). R118: under the default layout each entry and each translation component comes from its place in the thirteen
words. -/
def Obligations.Matrix2LoadsProduct : Prop :=
  (∀ s : State, s.cfg.Wf → s.cfg.DefaultEncoding →
    ∀ (ctx : Ctx) (w0 w1 w2 w3 w4 w5 w6 w7 w8 w9 w10 w11 w12 : Word) (r : List Word),
      opOf w0 = s.cfg.op.matrix → lo16 w0 = s.cfg.matrixDisc →
      decode s.cfg ctx s.pQsize (w0 :: w1 :: w2 :: w3 :: w4 :: w5 :: w6 :: w7 :: w8 :: w9 :: w10 :: w11 :: w12 :: r) =
        .ok (.matrix2
          ⟨⟨lo16 w1, hi16 w1, lo16 w2⟩, ⟨hi16 w2, lo16 w3, hi16 w3⟩, ⟨lo16 w4, hi16 w4, lo16 w5⟩⟩
          ⟨⟨hi16 w5, lo16 w6, hi16 w6⟩, ⟨lo16 w7, hi16 w7, lo16 w8⟩, ⟨hi16 w8, lo16 w9, hi16 w9⟩⟩
          ⟨w10, w11, w12⟩, r)) ∧
  ∀ (s : State) (a b : Mat3 Half) (t : Vec3 Word),
    (s.cfg.gen = .gen1 →
      ∃ m, exec (.matrix2 a b t) s = .next { s with matFix := m, trans := t } ∧
        ∀ r c : Fin 3,
          m.entry r c = wrap16 s.cfg (fxRound s.cfg
            ((a.entry r 0).toInt * (b.entry 0 c).toInt + (a.entry r 1).toInt * (b.entry 1 c).toInt +
              (a.entry r 2).toInt * (b.entry 2 c).toInt) s.cfg.fxFrac) ∧
          (s.cfg.fxRound = .standard → s.cfg.wrap16 = .standard →
            (m.entry r c).toInt = Int.bmod
              (((a.entry r 0).toInt * (b.entry 0 c).toInt + (a.entry r 1).toInt * (b.entry 1 c).toInt +
                (a.entry r 2).toInt * (b.entry 2 c).toInt) / 2 ^ s.cfg.fxFrac) (2 ^ 16))) ∧
    (s.cfg.gen = .gen2 →
      ∃ m, exec (.matrix2 a b t) s = .next { s with
          matFlt := m, trans := t.map (fun v => fOfInt s.cfg v.toInt) } ∧
        ∀ r c : Fin 3, m.entry r c =
          fAdd s.cfg (fAdd s.cfg (fMul s.cfg (toF s.cfg (a.entry r 0)) (toF s.cfg (b.entry 0 c)))
            (fMul s.cfg (toF s.cfg (a.entry r 1)) (toF s.cfg (b.entry 1 c))))
            (fMul s.cfg (toF s.cfg (a.entry r 2)) (toF s.cfg (b.entry 2 c))))

/-- R172, R173: the short form loads `L`, the long form `AUX`, in both generations, and nothing else. R119: under the
default layout bit 23 of the first word selects the long form, and each component comes from its place in the words. -/
def Obligations.LightLoadsItsVector : Prop :=
  (∀ (s : State) (l : Vec3 Half) (a : Vec3 Word),
    exec (.lights l) s = .next { s with light := l } ∧ exec (.lightl a) s = .next { s with aux := a }) ∧
  ∀ s : State, s.cfg.Wf → s.cfg.DefaultEncoding →
    ∀ (ctx : Ctx) (w0 w1 w2 w3 : Word) (r : List Word), opOf w0 = s.cfg.op.light →
      (w0.getLsbD 23 = false →
        decode s.cfg ctx s.pQsize (w0 :: w1 :: r) = .ok (.lights ⟨lo16 w0, hi16 w1, lo16 w1⟩, r)) ∧
      (w0.getLsbD 23 = true →
        decode s.cfg ctx s.pQsize (w0 :: w1 :: w2 :: w3 :: r) = .ok (.lightl ⟨w1, w2, w3⟩, r))

/-- R28: the matrix and the translation are written only by MATRIX, the light vector only by LIGHTS, the secondary point
only by LIGHTL: no other instruction changes them (a DRAWMODEL runs such commands of its list). -/
def Obligations.TransformWrittenOnlyByItsCommands : Prop :=
  ∀ (i : Instr) (s t : State), exec i s = .next t → (∀ n a, i ≠ .drawmodel n a) →
    ((∀ m v, i ≠ .matrix1 m v) → (∀ a b v, i ≠ .matrix2 a b v) →
      t.matFix = s.matFix ∧ t.matFlt = s.matFlt ∧ t.trans = s.trans) ∧
    ((∀ l, i ≠ .lights l) → t.light = s.light) ∧ ((∀ a, i ≠ .lightl a) → t.aux = s.aux)

/-! ### CLEAR -/

/-- R175: CLEAR is one word by default; every pixel of the visible rectangle of the render region gets the clear colour and the
greatest depth, with no depth test; no other byte of bank B and nothing else changes. -/
def Obligations.ClearFillsVisibleRectangle : Prop :=
  ∀ s : State, s.cfg.Wf →
    (s.cfg.DefaultEncoding → ∀ ctx w r, opOf w = s.cfg.op.clear → decode s.cfg ctx s.pQsize (w :: r) = .ok (.clear, r)) ∧
    ∃ t, exec .clear s = .next t ∧ t = { s with bankB := t.bankB } ∧
      (∀ x y, x < s.disp.visW → y < s.disp.visH →
        pixColor s.cfg t.bankB (pixelBlock s.cfg s.rbase x y) = storedColour s.cfg.gen s.cfg.clearColor ∧
        (pixDepth s.cfg t.bankB (pixelBlock s.cfg s.rbase x y)).toNat = s.cfg.depthMax) ∧
      ∀ a, ¬ s.drawableByte a → t.bankB.get a = s.bankB.get a

/-- R360, R31: while no valid timing has been taken, CLEAR, QUAD and HLine touch no pixel and no scanout runs. -/
def Obligations.NothingVisibleBeforeTiming : Prop :=
  ∀ (s : State) (q : Quad), s.disp.valid = false →
    exec .clear s = .next s ∧ hLine s = s ∧
    (∃ t, exec (.quadQ10 q) s = .next t ∧ t.bankB = s.bankB) ∧
    (∃ t, exec (.quadQ14 q) s = .next t ∧ t.bankB = s.bankB)

/-! ### DRAWMODEL, END, CHAIN, unknown words -/

/-- R190, R192: a DRAWMODEL takes the turns of the walker, from the start of its list, until the walk has ended, and
stops at the first state in which it has. That the walker is a field of the state is the model's own device (DESIGN
CHOICE, log entry 8). R121: under the default layout the count and the address come from the two words; the command is
known in the FIFO and unknown in a model list (R114). -/
def Obligations.DrawmodelTakesWalkTurns : Prop :=
  (∀ s : State, s.cfg.Wf → ∀ (w0 w1 : Word) (r : List Word), opOf w0 = s.cfg.op.drawmodel →
    (s.cfg.DefaultEncoding →
      decode s.cfg .fifo s.pQsize (w0 :: w1 :: r) = .ok (.drawmodel (lo16 w0) w1, r)) ∧
    decode s.cfg .model s.pQsize (w0 :: w1 :: r) = .ok (.unknownModel w0, w1 :: r)) ∧
  ∀ (s : State) (count : Half) (addr : Word),
    ∃ n, exec (.drawmodel count addr) s =
        .next (walkTurns n { s with walk := some { mp := addr, k := 0, mrem := count.toNat, mchain := 0 } }) ∧
      (walkTurns n { s with walk := some { mp := addr, k := 0, mrem := count.toNat, mchain := 0 } }).walk = none ∧
      ∀ m, m < n →
        (walkTurns m { s with walk := some { mp := addr, k := 0, mrem := count.toNat, mchain := 0 } }).walk ≠ none

/-- R196: END stops the walk; it is one word by default, whose bits 23:0 are ignored, known in a model list and unknown in
the FIFO. -/
def Obligations.EndStopsWalk : Prop :=
  ∀ (s : State) (w : Word) (r : List Word), s.cfg.Wf → opOf w = s.cfg.op.endModel →
    exec .endModel s = .next { s with walk := none } ∧
    (s.cfg.DefaultEncoding → decode s.cfg .model s.pQsize (w :: r) = .ok (.endModel, r)) ∧
    decode s.cfg .fifo s.pQsize (w :: r) = .ok (.unknownFifo w, r)

/-- R197, R192: a CHAIN is two words by default, known in a model list and unknown in the FIFO; it is a jump: the walk continues at
word 0 of its target with its own count, up to `MAX_CHAIN` times in one dispatch; the next one is logged and ends the
walk. -/
def Obligations.ChainJumpsUpToLimit : Prop :=
  ∀ (s : State) (k : Walker) (count : Half) (addr : Word), s.cfg.Wf → s.walk = some k →
    (∀ w0 r, opOf w0 = s.cfg.op.chain →
      (s.cfg.DefaultEncoding →
        decode s.cfg .model s.pQsize (w0 :: addr :: r) = .ok (.chain (lo16 w0) addr, r)) ∧
      decode s.cfg .fifo s.pQsize (w0 :: addr :: r) = .ok (.unknownFifo w0, addr :: r)) ∧
    (k.mchain < s.cfg.maxChain →
      exec (.chain count addr) s =
        .next { s with walk := some { mp := addr, k := 0, mrem := count.toNat, mchain := k.mchain + 1 } }) ∧
    (k.mchain = s.cfg.maxChain →
      exec (.chain count addr) s = .next { s with log := s.log ++ [.chainLimit addr], walk := none })

/-- R120: an opcode unknown in the FIFO is logged and the buffer cleared, one unknown in a model list is logged with the
address of its block and one word is skipped; nothing else changes, and each is a command of one word. The address and
the skip are R192, R195 and R331, with a block's words taken as `A_BYTES / 4` (DEDUCED, log entry 11), on the walker the
model keeps in its state (DESIGN CHOICE, log entry 8). -/
def Obligations.UnknownWordIsLoggedAndDropped : Prop :=
  ∀ (s : State) (w : Word) (r : List Word),
    (s.cfg.opKnown .fifo (opOf w) = false →
      decode s.cfg .fifo s.pQsize (w :: r) = .ok (.unknownFifo w, r) ∧
      exec (.unknownFifo w) s = .next { s with log := s.log ++ [.unknownOpcode w], fifo := [] }) ∧
    (s.cfg.opKnown .model (opOf w) = false →
      decode s.cfg .model s.pQsize (w :: r) = .ok (.unknownModel w, r) ∧
      ∀ k, s.walk = some k →
        exec (.unknownModel w) s = .next { s with
          log := s.log ++ [.unknownSubcommand (advance s.cfg .bankA k.mp (k.k / wordsPerBlock s.cfg)) w]
          walk := some { k with k := k.k + 1, mrem := k.mrem - 1 } })

/-! ### QUAD -/

/-- R201, R275, R241: a quad in an unsupported fill mode is logged, and then skipped or drawn Solid as configured; the
vertices are transformed, clipped and projected by the generation's pipeline; the polygon is dropped exactly where fewer
than three vertices are left, a screen coordinate reaches `2^30` (30 the default of `screenBits`), or, in generation 2, a
value to be floored is not finite; another is rasterized. Both layouts run the same pipeline. R122: under the default
layouts each part of each vertex comes from its place in the words. R37, R201: under the default register fields and fill
codes the mode is that of the low three bits of `R[S_TEXMODE]`, and what the rasterizer takes is what the registers and
pointer slots hold at the start of the dispatch. -/
def Obligations.QuadRunsPipeline : Prop :=
  (∀ s : State, s.cfg.Wf → s.cfg.DefaultEncoding →
    ∀ (ctx : Ctx) (w0 w1 w2 w3 w4 w5 w6 w7 w8 w9 w10 w11 w12 w13 : Word) (r : List Word), opOf w0 = s.cfg.op.quad →
      decode s.cfg ctx .q10 (w0 :: w1 :: w2 :: w3 :: w4 :: w5 :: w6 :: w7 :: w8 :: w9 :: r) =
        .ok (.quadQ10
          ⟨⟨lo16 w2, hi16 w2, lo16 w3, byteOf w1 0, byteOf w3 2, byteOf w3 3⟩,
           ⟨lo16 w4, hi16 w4, lo16 w5, byteOf w1 1, byteOf w5 2, byteOf w5 3⟩,
           ⟨lo16 w6, hi16 w6, lo16 w7, byteOf w1 2, byteOf w7 2, byteOf w7 3⟩,
           ⟨lo16 w8, hi16 w8, lo16 w9, byteOf w1 3, byteOf w9 2, byteOf w9 3⟩⟩, r) ∧
      decode s.cfg ctx .q14
          (w0 :: w1 :: w2 :: w3 :: w4 :: w5 :: w6 :: w7 :: w8 :: w9 :: w10 :: w11 :: w12 :: w13 :: r) =
        .ok (.quadQ14
          ⟨⟨lo16 w2, hi16 w2, lo16 w3, byteOf w4 0, byteOf w3 2, byteOf w3 3⟩,
           ⟨lo16 w5, hi16 w5, lo16 w6, byteOf w7 0, byteOf w6 2, byteOf w6 3⟩,
           ⟨lo16 w8, hi16 w8, lo16 w9, byteOf w10 0, byteOf w9 2, byteOf w9 3⟩,
           ⟨lo16 w11, hi16 w11, lo16 w12, byteOf w13 0, byteOf w12 2, byteOf w12 3⟩⟩, r)) ∧
  (∀ s : State, s.cfg.DefaultRegFields → s.cfg.DefaultPixels →
    s.fillMode = [.solid, .solidFixedDepth, .shaded, .textured4, .textured8][s.fillCode]? ∧
    s.fillCode = (s.reg s.cfg.slot.texmode).toNat % 8 ∧
    ∀ mode, s.poly mode =
      { cfg := s.cfg
        mode := mode
        visW := s.disp.visW
        visH := s.disp.visH
        rbase := (lo16 (s.reg s.cfg.slot.page)).toNat
        solid := if s.cfg.gen = .gen1 then (lo16 (s.reg s.cfg.slot.color)).setWidth 32
          else ((s.reg s.cfg.slot.color).extractLsb' 0 24).setWidth 32
        alpha := (byteOf (s.reg s.cfg.slot.alpha) 0).toNat
        texWidth := 2 ^ ((s.reg s.cfg.slot.texmode).extractLsb' 4 4).toNat
        transEn := (s.reg s.cfg.slot.texmode).getLsbD 8
        transIdx := (byteOf (s.reg s.cfg.slot.texmode) 2).toNat
        zbias := (hi16 (s.reg s.cfg.slot.zbias)).toInt
        fixedZ := lo16 (s.reg s.cfg.slot.zbias)
        pTex := s.pTex
        pPal := s.pPal
        bankA := s.bankA }) ∧
  (∀ (s : State) (q : Quad),
    ∃ t, exec (.quadQ10 q) s = .next t ∧ exec (.quadQ14 q) s = .next t ∧
      (s.fillMode = none → s.cfg.unsupportedFill = .skip →
        t = { s with log := s.log ++ [.unsupportedFillMode s.fillCode] }) ∧
      (s.fillMode = none → s.cfg.unsupportedFill = .solid →
        (s.screenOf q.list = none → t = { s with log := s.log ++ [.unsupportedFillMode s.fillCode] }) ∧
        ∀ scr, s.screenOf q.list = some scr →
          t = { s with
            log := s.log ++ [.unsupportedFillMode s.fillCode]
            bankB := (s.poly .solid).rasterFan scr s.bankB }) ∧
      ∀ mode, s.fillMode = some mode →
        (s.screenOf q.list = none → t = s) ∧
        ∀ scr, s.screenOf q.list = some scr → t = { s with bankB := (s.poly mode).rasterFan scr s.bankB }) ∧
  (∀ (s : State) (q : Quad) (cam : List CamFix), s.cfg.gen = .gen1 →
    cam = clipNear (insideFix s.cfg) (cutFix s.cfg) (q.list.map (transformFix s.cfg s.matFix s.trans s.light)) →
    (s.screenOf q.list = none ↔ cam.length < 3 ∨ ∃ v ∈ cam,
      2 ^ s.cfg.screenBits ≤ (projectFix s.cfg v).sx.natAbs ∨ 2 ^ s.cfg.screenBits ≤ (projectFix s.cfg v).sy.natAbs) ∧
    ∀ scr, s.screenOf q.list = some scr → scr = cam.map (projectFix s.cfg)) ∧
  ∀ (s : State) (q : Quad) (cam : List CamFlt), s.cfg.gen = .gen2 →
    cam = clipNear (insideFlt s.cfg) (cutFlt s.cfg) (q.list.map (transformFlt s.cfg s.matFlt s.trans)) →
    (s.screenOf q.list = none ↔ cam.length < 3 ∨ ∃ v ∈ cam,
      (∃ x ∈ floorArgs s.cfg v, fIsFinite s.cfg x = false) ∨
      2 ^ s.cfg.screenBits ≤ (projectFlt s.cfg v).sx.natAbs ∨ 2 ^ s.cfg.screenBits ≤ (projectFlt s.cfg v).sy.natAbs) ∧
    ∀ scr, s.screenOf q.list = some scr → scr = cam.map (projectFlt s.cfg)

/-- R83, R272: a QUAD stores only to the colour and depth bytes of visible pixels of the render region and appends at
most to the log; every other byte of bank B and everything else is unchanged. -/
def Obligations.QuadFrame : Prop :=
  ∀ (s : State) (q : Quad),
    ∃ t, exec (.quadQ10 q) s = .next t ∧ exec (.quadQ14 q) s = .next t ∧
      t = { s with bankB := t.bankB, log := t.log } ∧
      ∀ a, ¬ s.drawableByte a → t.bankB.get a = s.bankB.get a

/-- R201, R239, R275: a quad whose four camera vertices lie behind the near plane is dropped, in either generation: with a
supported fill mode the state is unchanged; with an unsupported one the code is logged and nothing else happens, whether
the configuration skips or draws such polygons. -/
def Obligations.QuadBehindPlaneIsDropped : Prop :=
  ∀ (s : State) (q : Quad),
    (s.cfg.gen = .gen1 → ∀ v ∈ q.list, (transformFix s.cfg s.matFix s.trans s.light v).z < s.cfg.nearZ) →
    (s.cfg.gen = .gen2 → ∀ v ∈ q.list,
      fGe s.cfg (transformFlt s.cfg s.matFlt s.trans v).z (fOfInt s.cfg s.cfg.nearZ) = false) →
    (∀ mode, s.fillMode = some mode →
      exec (.quadQ10 q) s = .next s ∧ exec (.quadQ14 q) s = .next s) ∧
    (s.fillMode = none →
      exec (.quadQ10 q) s = .next { s with log := s.log ++ [.unsupportedFillMode s.fillCode] } ∧
      exec (.quadQ14 q) s = .next { s with log := s.log ++ [.unsupportedFillMode s.fillCode] })

/-! ### Geometry -/

/-- R223: the origin goes to the translation: in generation 1 under any matrix and every configured rounding, exactly; in
generation 2 under any finite matrix, exactly for a finite translation that is not a zero and to a zero for one that is,
row by row, by the default `F32` record as the model writes it (log entry 2). With the identity matrix of generation 1 and
the default rounding any vertex goes to itself plus the translation. R221, R225: for every matrix, vertex and
configuration each camera coordinate is its row's sum in generation 1, rounded once, plus the translation, wrapped, and the
sum in its written order in generation 2; `U` and `V` are scaled by `2^uvFrac`, by default 256, in generation 1 (DEDUCED,
log entry 11) and converted in generation 2; generation 1's intensity is `lightIntensity`. R232: the default of it under
the default split of a packed normal (log entry 2). -/
def Obligations.TransformOfOriginIsTranslation : Prop :=
  (∀ (c : Cfg) (m : Mat3 Half) (t : Vec3 Word) (l : Vec3 Half) (n u v : Byte),
    (transformFix c m t l ⟨0, 0, 0, n, u, v⟩).x = t.e0.toInt ∧
    (transformFix c m t l ⟨0, 0, 0, n, u, v⟩).y = t.e1.toInt ∧
    (transformFix c m t l ⟨0, 0, 0, n, u, v⟩).z = t.e2.toInt) ∧
  (∀ (c : Cfg) (m : Mat3 Word) (t : Vec3 Word) (n u v : Byte), c.f32 = .standard →
    (finiteRow m.r0 t.e0 → sameValue (transformFlt c m t ⟨0, 0, 0, n, u, v⟩).x t.e0) ∧
    (finiteRow m.r1 t.e1 → sameValue (transformFlt c m t ⟨0, 0, 0, n, u, v⟩).y t.e1) ∧
    (finiteRow m.r2 t.e2 → sameValue (transformFlt c m t ⟨0, 0, 0, n, u, v⟩).z t.e2)) ∧
  (∀ (c : Cfg) (t : Vec3 Word) (l : Vec3 Half) (p : InVertex), c.fxFrac = 14 → c.fxRound = .standard →
    (transformFix c ⟨⟨0x4000, 0, 0⟩, ⟨0, 0x4000, 0⟩, ⟨0, 0, 0x4000⟩⟩ t l p).x = wrap32 c (p.x.toInt + t.e0.toInt) ∧
    (transformFix c ⟨⟨0x4000, 0, 0⟩, ⟨0, 0x4000, 0⟩, ⟨0, 0, 0x4000⟩⟩ t l p).y = wrap32 c (p.y.toInt + t.e1.toInt) ∧
    (transformFix c ⟨⟨0x4000, 0, 0⟩, ⟨0, 0x4000, 0⟩, ⟨0, 0, 0x4000⟩⟩ t l p).z = wrap32 c (p.z.toInt + t.e2.toInt)) ∧
  (∀ (c : Cfg) (m : Mat3 Half) (t : Vec3 Word) (l : Vec3 Half) (p : InVertex) (v : CamFix), v = transformFix c m t l p →
    (∀ i : Fin 3, Vec3.get ⟨v.x, v.y, v.z⟩ i =
      wrap32 c (fxRound c ((m.entry i 0).toInt * p.x.toInt + (m.entry i 1).toInt * p.y.toInt +
        (m.entry i 2).toInt * p.z.toInt) c.fxFrac + (t.get i).toInt)) ∧
    v.up = p.u.toNat * 2 ^ c.pix.uvFrac ∧ v.vp = p.v.toNat * 2 ^ c.pix.uvFrac ∧
    v.i = lightIntensity c m ⟨v.x, v.y, v.z⟩ l p.n) ∧
  (∀ (c : Cfg) (m : Mat3 Word) (t : Vec3 Word) (p : InVertex) (v : CamFlt), v = transformFlt c m t p →
    (∀ i : Fin 3, Vec3.get ⟨v.x, v.y, v.z⟩ i =
      fAdd c (fAdd c (fAdd c (fMul c (m.entry i 0) (fOfInt c p.x.toInt)) (fMul c (m.entry i 1) (fOfInt c p.y.toInt)))
        (fMul c (m.entry i 2) (fOfInt c p.z.toInt))) (t.get i)) ∧
    v.up = fOfInt c p.u.toNat ∧ v.vp = fOfInt c p.v.toNat) ∧
  ∀ (c : Cfg) (m : Mat3 Half) (p : Vec3 Int) (l : Vec3 Half) (n : Byte) (r : Fin 3 → Int),
    c.lightIntensity = .standard → c.DefaultEncoding →
    (∀ k, r k = (m.entry k 0).toInt * (n.extractLsb' 5 3).toInt + (m.entry k 1).toInt * (n.extractLsb' 2 3).toInt +
      (m.entry k 2).toInt * (n.extractLsb' 0 2).toInt) →
    lightIntensity c m p l n =
      max 0 (min (fxRound c (r 0 * (p.e0 + l.e0.toInt) + r 1 * (p.e1 + l.e1.toInt) + r 2 * l.e2.toInt) 22) 255)

/-- R239: with every vertex behind the near plane nothing is left; with every vertex in front the polygon is returned
unchanged, in order: for any plane, and for the near plane of each generation. -/
def Obligations.ClipKeepsOrDropsWholePolygon : Prop :=
  (∀ (ν : Type) (inside : ν → Bool) (cut : ν → ν → ν) (vs : List ν),
    ((∀ v ∈ vs, inside v = false) → clipNear inside cut vs = []) ∧
    ((∀ v ∈ vs, inside v = true) → clipNear inside cut vs = vs)) ∧
  (∀ (c : Cfg) (vs : List CamFix),
    ((∀ v ∈ vs, v.z < c.nearZ) → clipNear (insideFix c) (cutFix c) vs = []) ∧
    ((∀ v ∈ vs, c.nearZ ≤ v.z) → clipNear (insideFix c) (cutFix c) vs = vs)) ∧
  ∀ (c : Cfg) (vs : List CamFlt),
    ((∀ v ∈ vs, fGe c v.z (fOfInt c c.nearZ) = false) → clipNear (insideFlt c) (cutFlt c) vs = []) ∧
    ((∀ v ∈ vs, fGe c v.z (fOfInt c c.nearZ) = true) → clipNear (insideFlt c) (cutFlt c) vs = vs)

/-- R235: a quad clips to 0, 3, 4, 5 or 6 vertices; of each edge in turn the result has its first vertex, if that is
inside, and then the cut, if one end alone is inside. -/
def Obligations.ClipOfQuadHasAtMostSix : Prop :=
  ∀ (ν : Type) (inside : ν → Bool) (cut : ν → ν → ν) (a b c d : ν),
    (clipNear inside cut [a, b, c, d]).length ∈ [0, 3, 4, 5, 6] ∧
    ∀ edge : ν → ν → List ν,
      (∀ cur nxt, edge cur nxt =
        (if inside cur = true then [cur] else []) ++ if inside cur = inside nxt then [] else [cut cur nxt]) →
      clipNear inside cut [a, b, c, d] = edge a b ++ edge b c ++ edge c d ++ edge d a

/-- R236, R237, R240: in generation 1 every clipped vertex lies on or before the plane, so projection never divides by
zero. The cut of an edge and the projection of a vertex are the formulas of R237 and R240 in generation 1 and of R238 and
R240 in generation 2. R240 writes 16 and 256 in generation 2: reading them as `2^SUBPIX` and `2^uvFrac` is the model's
inference (DEDUCED, log entry 11). -/
def Obligations.ClippedVerticesAreInFront : Prop :=
  (∀ (c : Cfg) (vs : List CamFix), ∀ v ∈ clipNear (insideFix c) (cutFix c) vs, (c.nearZ : Int) ≤ v.z) ∧
  (∀ (c : Cfg) (a b : CamFix) (cutP : Int → Int → Int),
    (∀ p q, cutP p q = p + Int.fdiv ((q - p) * (c.nearZ - a.z)) (b.z - a.z)) →
    cutFix c a b = { x := cutP a.x b.x, y := cutP a.y b.y, z := c.nearZ, up := cutP a.up b.up, vp := cutP a.vp b.vp,
                     i := cutP a.i b.i }) ∧
  (∀ (c : Cfg) (a b : CamFlt) (t : Word) (cutP : Word → Word → Word),
    t = fDiv c (fSub c (fOfInt c c.nearZ) a.z) (fSub c b.z a.z) →
    (∀ p q, cutP p q = fAdd c p (fMul c (fSub c q p) t)) →
    cutFlt c a b = { x := cutP a.x b.x, y := cutP a.y b.y, z := fOfInt c c.nearZ, up := cutP a.up b.up,
                     vp := cutP a.vp b.vp }) ∧
  (∀ (c : Cfg) (v : CamFix),
    projectFix c v =
      { sx := c.projCX * 2 ^ c.subpix + Int.fdiv (v.x * c.projF * 2 ^ c.subpix) v.z
        sy := c.projCY * 2 ^ c.subpix + Int.fdiv (v.y * c.projF * 2 ^ c.subpix) v.z
        zs := v.z, us := v.up, vs := v.vp, is := v.i }) ∧
  ∀ (c : Cfg) (v : CamFlt) (ooz : Word), ooz = fDiv c (fOfInt c c.projF) v.z →
    projectFlt c v =
      { sx := fToIntFloor c (fMul c (fAdd c (fMul c v.x ooz) (fOfInt c c.projCX)) (fOfInt c (2 ^ c.subpix)))
        sy := fToIntFloor c (fMul c (fAdd c (fMul c v.y ooz) (fOfInt c c.projCY)) (fOfInt c (2 ^ c.subpix)))
        zs := fToIntFloor c v.z
        us := fToIntFloor c (fMul c v.up (fOfInt c (2 ^ c.pix.uvFrac)))
        vs := fToIntFloor c (fMul c v.vp (fOfInt c (2 ^ c.pix.uvFrac)))
        is := 0 }

/-! ### Rasterizer -/

/-- R263: two triangles that share an edge, run in opposite directions by the two, never both cover a sample on it. -/
def Obligations.SharedEdgeCoversOnce : Prop :=
  ∀ (a b : ScreenVertex) (px py : Int),
    edgeFn b a px py = - edgeFn a b px py ∧
    ¬ (covered (edgeFn a b px py) a b = true ∧ covered (edgeFn b a px py) b a = true)

/-- R263: the two triangles of the fan of a rectangle with corners at whole-pixel positions cover exactly the pixels of
the rectangle, its right and bottom edges excluded, and no pixel twice. -/
def Obligations.RectangleCoversItsPixels : Prop :=
  ∀ (k : Nat) (x0 y0 x1 y1 px py : Int) (a b c d : ScreenVertex), x0 < x1 → y0 < y1 →
    a.sx = x0 * 2 ^ k → a.sy = y0 * 2 ^ k → b.sx = x1 * 2 ^ k → b.sy = y0 * 2 ^ k →
    c.sx = x1 * 2 ^ k → c.sy = y1 * 2 ^ k → d.sx = x0 * 2 ^ k → d.sy = y1 * 2 ^ k →
    0 < edgeFn a b c.sx c.sy ∧ 0 < edgeFn a c d.sx d.sy ∧
    ((triangleCovers a b c (px * 2 ^ k) (py * 2 ^ k) = true ∨ triangleCovers a c d (px * 2 ^ k) (py * 2 ^ k) = true) ↔
      x0 ≤ px ∧ px < x1 ∧ y0 ≤ py ∧ py < y1) ∧
    ¬ (triangleCovers a b c (px * 2 ^ k) (py * 2 ^ k) = true ∧ triangleCovers a c d (px * 2 ^ k) (py * 2 ^ k) = true)

/-- R262, R266: at a covered sample of a triangle of positive area each parameter lies between the least and the greatest
of the three vertex values. -/
def Obligations.InterpolationStaysBetween : Prop :=
  ∀ (a b c : ScreenVertex) (px py lo hi p0 p1 p2 : Int), 0 < edgeFn a b c.sx c.sy →
    triangleCovers a b c px py = true →
    lo ≤ p0 → lo ≤ p1 → lo ≤ p2 → p0 ≤ hi → p1 ≤ hi → p2 ≤ hi →
    edgeFn b c px py + edgeFn c a px py + edgeFn a b px py = edgeFn a b c.sx c.sy ∧
    lo ≤ interp (edgeFn b c px py) (edgeFn c a px py) (edgeFn a b px py) (edgeFn a b c.sx c.sy) p0 p1 p2 ∧
    interp (edgeFn b c px py) (edgeFn c a px py) (edgeFn a b px py) (edgeFn a b c.sx c.sy) p0 p1 p2 ≤ hi

/-- R262: a triangle applies the per-pixel operation to each visible pixel exactly once, on what the pixel held before:
where the visible rectangle does not wrap onto itself, the bytes of a pixel after the triangle are those after its one
operation. That operation is `PixelOp` at the pixel's block, with the interpolated parameters, where the triangle covers
the sample, and nothing elsewhere. A fan draws its triangles in order, each of the first vertex and two neighbours (R260);
one of no area draws nothing and one of negative area is drawn with its last two vertices exchanged (R262). -/
def Obligations.TriangleDrawsEachPixelOnce : Prop :=
  (∀ (p : Poly) (scr : List ScreenVertex) (d : ScreenVertex) (m : Memory),
    p.rasterFan scr m =
      (List.range (scr.length - 2)).foldl
        (fun m i => p.rasterTri (scr.getD 0 d) (scr.getD (i + 1) d) (scr.getD (i + 2) d) m) m) ∧
  (∀ (p : Poly) (a b c : ScreenVertex) (area : Int) (m : Memory), area = edgeFn a b c.sx c.sy →
    (area = 0 → p.rasterTri a b c m = m) ∧
    (area < 0 → p.rasterTri a b c m = p.triangle a c b (-area) m) ∧
    (0 < area → p.rasterTri a b c m = p.triangle a b c area m)) ∧
  (∀ (p : Poly) (v0 v1 v2 : ScreenVertex) (area : Int) (m : Memory) (px py : Nat), p.cfg.Wf →
    p.visW ≤ p.cfg.bW → p.visH ≤ p.cfg.bH → px < p.visW → py < p.visH →
    ∀ a ∈ pixelAddrs p.cfg (pixelBlock p.cfg p.rbase px py),
      (p.triangle v0 v1 v2 area m).get a = (p.trianglePixel v0 v1 v2 area m px py).get a) ∧
  ∀ (p : Poly) (v0 v1 v2 : ScreenVertex) (area x y w0 w1 w2 : Int) (m : Memory) (px py : Nat),
    x = px * 2 ^ p.cfg.subpix → y = py * 2 ^ p.cfg.subpix →
    w0 = edgeFn v1 v2 x y → w1 = edgeFn v2 v0 x y → w2 = edgeFn v0 v1 x y →
    p.trianglePixel v0 v1 v2 area m px py =
      if triangleCovers v0 v1 v2 x y = true then
        p.pixelOp (pixelBlock p.cfg p.rbase px py)
          (interp w0 w1 w2 area v0.zs v1.zs v2.zs) (interp w0 w1 w2 area v0.us v1.us v2.us)
          (interp w0 w1 w2 area v0.vs v1.vs v2.vs) (interp w0 w1 w2 area v0.is v1.is v2.is) m
      else m

/-- R273, R270, R277: in the modes Solid and Shaded, and in the textured modes where the texel is not transparent, a
pixel whose new depth is at most the stored one gets the new colour and depth, and another is not written;
SolidFixedDepth writes its colour and depth in both cases. The new colour is the constant one in Solid, the shaded old one
in Shaded, and the texture's after `applyIntensity` in the textured modes, which by default changes nothing (R276, R278,
R285; the default as the model writes it, log entry 2). -/
def Obligations.DepthTestDecidesWrite : Prop :=
  ∀ (p : Poly) (blk : Nat) (z u v i : Int) (m : Memory), p.cfg.Wf →
    (p.mode ≠ .solidFixedDepth →
      ((pixDepth p.cfg m blk).toNat < (p.depth z).toNat → p.pixelOp blk z u v i m = m) ∧
      ∀ col, p.colour (pixColor p.cfg m blk) u v i = some col →
        (p.depth z).toNat ≤ (pixDepth p.cfg m blk).toNat →
        pixColor p.cfg (p.pixelOp blk z u v i m) blk = storedColour p.cfg.gen col ∧
        pixDepth p.cfg (p.pixelOp blk z u v i m) blk = p.depth z) ∧
    (p.mode = .solidFixedDepth →
      pixColor p.cfg (p.pixelOp blk z u v i m) blk = storedColour p.cfg.gen p.solid ∧
      pixDepth p.cfg (p.pixelOp blk z u v i m) blk = p.fixedZ) ∧
    (∀ a, a ∉ pixelAddrs p.cfg blk → (p.pixelOp blk z u v i m).get a = m.get a) ∧
    ∀ old : Color,
      (p.mode = .solid → p.colour old u v i = some p.solid) ∧
      (p.mode = .shaded → p.colour old u v i = some (shade p.cfg p.alpha old)) ∧
      (p.mode = .textured4 ∨ p.mode = .textured8 →
        p.colour old u v i = (p.texture u v).map (fun col => applyIntensity p.cfg col i) ∧
        (p.cfg.applyIntensity = .standard → p.colour old u v i = p.texture u v))

/-- R271: the depth of a pixel is the interpolated depth, shifted, plus the signed high half of the z-bias register (its
default place), clamped to the depth range. -/
def Obligations.DepthIsClamped : Prop :=
  ∀ (s : State) (mode : FillMode) (z : Int), s.cfg.Wf → s.cfg.DefaultRegFields →
    (((s.poly mode).depth z).toNat : Int) =
      max 0 (min (z / 2 ^ s.cfg.zshift + (hi16 (s.reg s.cfg.slot.zbias)).toInt) s.cfg.depthMax)

/-- R282: a pixel whose top-left texel has the transparent index is not written, colour and depth untouched, whatever the
other three texels; no other texel index is transparent, none is while transparency is off, and in the 4-bit format
none is for an index of 16 or more. The top-left texel is that of the coordinates over `2^uvFrac`, by default 256 (R280;
DEDUCED, log entry 11). R281: a texel is a byte of the stream at the texture base in the 8-bit format, and by default the
low nibble of one for an even texel and the high nibble for an odd one in the 4-bit format. -/
def Obligations.TransparentTexelLeavesPixel : Prop :=
  (∀ (p : Poly) (blk : Nat) (z u v i : Int) (m : Memory) (one : Int), p.mode = .textured4 ∨ p.mode = .textured8 →
    one = 2 ^ p.cfg.pix.uvFrac →
    (p.transEn = true → p.texel (u / one) (v / one) = p.transIdx → p.pixelOp blk z u v i m = m) ∧
    (p.texture u v = none ↔ p.transEn = true ∧ p.texel (u / one) (v / one) = p.transIdx) ∧
    (p.mode = .textured4 → 16 ≤ p.transIdx → p.texture u v ≠ none)) ∧
  ∀ (p : Poly) (u v t : Int), t = v * p.texWidth + u →
    (p.mode = .textured8 → p.texel u v = (p.texByte t).toNat) ∧
    (p.mode = .textured4 → p.cfg.pix.nibbles = .lowFirst →
      p.texel u v = if t % 2 = 0 then (p.texByte (t / 2)).toNat % 16 else (p.texByte (t / 2)).toNat / 16) ∧
    ∀ (o : Int) (k : Nat), (k : Int) = o % (p.cfg.aW * p.cfg.aH * p.cfg.aBytes : Nat) →
      p.texByte o =
        memRead8 p.cfg .bankA p.bankA (advance p.cfg .bankA p.pTex (k / p.cfg.aBytes)) (k % p.cfg.aBytes)

/-- R278: a factor of zero gives the colour value zero; another scales each channel by `a / 256`, floored, and keeps the
bits that are no colour. The factor zero is `alphaBlack` and the 256 `2^alphaFrac` by default (DEDUCED, log entry 11). -/
def Obligations.ShadeScalesChannels : Prop :=
  ∀ (c : Cfg) (a : Nat) (old : Color), c.Wf → a < 2 ^ c.pix.alphaFrac →
    shade c c.pix.alphaBlack old = 0 ∧
    (a ≠ c.pix.alphaBlack → channels c (shade c a old) = (channels c old).map (fun ch => ch * a / 2 ^ c.pix.alphaFrac) ∧
      nonColourBits c (shade c a old) = nonColourBits c old) ∧
    (c.DefaultPixels → shade c 0 old = 0 ∧ nonColourBits c old = old &&& (if c.gen = .gen1 then 0xFFFF8000 else 0xFF000000))

/-- R286: at an exact texel centre the filter returns that texel's colour, its non-colour bits zero, with no
contribution from the neighbours; a texture sampled there gives that texel's palette colour. R284: at any fractions each
channel is the weighted sum of the four, floored once. R280: the texture is the filter of the palette colours of the four
texels. R283: the colour of an index is its palette entry's, by default without bit 15 in generation 1, and with its three
5-bit channels widened in generation 2 (the default widening as the model writes it, log entry 2). A whole texel is
`2^uvFrac`, by default 256 (DEDUCED, log entry 11). -/
def Obligations.BilinearAtCentreIsTexel : Prop :=
  (∀ (c : Cfg) (c00 c01 c10 c11 : Color), c.Wf →
    channels c (bilinear c c00 c01 c10 c11 0 0) = channels c c00 ∧
    ∀ uf vf one : Nat, one = 2 ^ c.pix.uvFrac → uf < one → vf < one →
      nonColourBits c (bilinear c c00 c01 c10 c11 uf vf) = 0 ∧
      ∀ k : Fin 3, (channels c (bilinear c c00 c01 c10 c11 uf vf)).get k =
        ((((channels c c00).get k * (one - uf) + (channels c c01).get k * uf) * (one - vf) +
          ((channels c c10).get k * (one - uf) + (channels c c11).get k * uf) * vf) / (one * one))) ∧
  (∀ (p : Poly) (u v one : Int), one = 2 ^ p.cfg.pix.uvFrac → p.cfg.Wf →
    ¬ (p.transEn = true ∧ p.texel u v = p.transIdx) →
    p.texture (u * one) (v * one) = some (p.pal (p.texel u v))) ∧
  (∀ (p : Poly) (u v one : Int), one = 2 ^ p.cfg.pix.uvFrac →
    ¬ (p.transEn = true ∧ p.texel (u / one) (v / one) = p.transIdx) →
    p.texture u v = some (bilinear p.cfg
      (p.pal (p.texel (u / one) (v / one))) (p.pal (p.texel (u / one + 1) (v / one)))
      (p.pal (p.texel (u / one) (v / one + 1))) (p.pal (p.texel (u / one + 1) (v / one + 1)))
      (u % one).toNat (v % one).toNat)) ∧
  ∀ (p : Poly) (i : Nat) (e : Half), p.cfg.DefaultPixels →
    e = memRead16 p.cfg .bankA p.bankA (advance p.cfg .bankA p.pPal (i / (p.cfg.aBytes / 2))) (i % (p.cfg.aBytes / 2)) →
    (p.cfg.gen = .gen1 → p.pal i = (e &&& 0x7FFF).setWidth 32) ∧
    (p.cfg.gen = .gen2 → channels p.cfg (p.pal i) =
      Vec3.map (fun ch : BitVec 5 => ch.toNat * 8 + ch.toNat / 4)
        ⟨e.extractLsb' 10 5, e.extractLsb' 5 5, e.extractLsb' 0 5⟩)

/-! ### Memory -/

/-- R72, R73: every 32-bit value selects a block of the bank, and an address in normal form selects its own row and
column. -/
def Obligations.TranslationNeverFails : Prop :=
  ∀ (c : Cfg) (bk : Bank) (a : Word), c.Wf →
    blockNum c bk a < c.width bk * c.height bk ∧
    ∀ y x, y < c.height bk → x < c.width bk → row c bk (mkAddr c y x) = y ∧ col c bk (mkAddr c y x) = x

/-- R74: the linear advance goes `n` blocks on, wrapping at the end of the bank, and its result is in normal form. -/
def Obligations.AdvanceIsLinear : Prop :=
  ∀ (c : Cfg) (bk : Bank) (a : Word) (n : Nat), c.Wf →
    blockNum c bk (advance c bk a n) = (blockNum c bk a + n) % (c.width bk * c.height bk) ∧
    advance c bk a n = mkAddr c (row c bk (advance c bk a n)) (col c bk (advance c bk a n))

/-- R78: "`write(addr, value)` then `read(addr)` with the same width returns `value`, for all addresses", every other
lane of that width of every block is unchanged, and a write touches the bytes of its lane only. -/
def Obligations.LaneWriteReadsBack : Prop :=
  ∀ (c : Cfg) (bk : Bank) (m : Memory) (a : Word), c.Wf →
    (∀ k v, k < c.blockBytes bk → memRead8 c bk (memWrite8 c bk m a k v) a k = v ∧
      ∀ a' k', k' < c.blockBytes bk → (blockNum c bk a' ≠ blockNum c bk a ∨ k' ≠ k) →
        memRead8 c bk (memWrite8 c bk m a k v) a' k' = memRead8 c bk m a' k') ∧
    (∀ k v, k < c.blockBytes bk / 2 → memRead16 c bk (memWrite16 c bk m a k v) a k = v ∧
      ∀ a' k', k' < c.blockBytes bk / 2 → (blockNum c bk a' ≠ blockNum c bk a ∨ k' ≠ k) →
        memRead16 c bk (memWrite16 c bk m a k v) a' k' = memRead16 c bk m a' k') ∧
    (∀ k v, k < c.blockBytes bk / 4 → memRead32 c bk (memWrite32 c bk m a k v) a k = v ∧
      ∀ a' k', k' < c.blockBytes bk / 4 → (blockNum c bk a' ≠ blockNum c bk a ∨ k' ≠ k) →
        memRead32 c bk (memWrite32 c bk m a k v) a' k' = memRead32 c bk m a' k')

/-! ### Host operations and scanout -/

/-- R140, R141: the host's register write: a half access stores one half and runs the host's side effect for the low half
only; every other access is full. The host's side effect pushes for the push port and is the command's otherwise. -/
def Obligations.HostWriteByWidth : Prop :=
  ∀ (s : State) (slot : SlotNo) (high : Bool) (v : Word) (w : Width) (rest : List HostOp),
    s.walk = none → s.inputs = .regWrite slot high v w :: rest →
    (s.cfg.gen = .gen1 ∧ s.halfMode = true ∧ w = .w16 → high = true →
      step s = .next { s.setReg slot (joinHalves (lo16 v) (lo16 (s.reg slot))) with inputs := rest }) ∧
    (s.cfg.gen = .gen1 ∧ s.halfMode = true ∧ w = .w16 → high = false →
      step s = hostSideEffect slot { s.setReg slot (joinHalves (hi16 (s.reg slot)) (lo16 v)) with inputs := rest }) ∧
    (¬ (s.cfg.gen = .gen1 ∧ s.halfMode = true ∧ w = .w16) →
      step s = hostSideEffect slot { s.setReg slot v with inputs := rest }) ∧
    ∀ t : State, hostSideEffect slot t =
      if slot = t.cfg.slot.fifo then fifoPush (t.reg slot) t else .next (sideEffect slot t)

/-- R144: a full write of the push port pushes the word: it does what a push does from the state after the store. -/
def Obligations.HostPushesThroughPort : Prop :=
  ∀ (s : State) (high : Bool) (v : Word) (rest : List HostOp),
    s.walk = none → s.inputs = .regWrite s.cfg.slot.fifo high v .w32 :: rest →
    step s = step { s.setReg s.cfg.slot.fifo v with inputs := .fifoPush v :: rest }

/-- R143: a register read returns the slot, or one half of it zero-extended, and changes no state of the Core: only the
reply is appended. -/
def Obligations.HostReadHasNoEffect : Prop :=
  ∀ (s : State) (slot : SlotNo) (high : Bool) (w : Width) (rest : List HostOp),
    s.walk = none → s.inputs = .regRead slot high w :: rest →
    ∃ v, step s = .next { s with inputs := rest, replies := s.replies ++ [v] } ∧
      v.toNat = (if s.cfg.gen = .gen1 ∧ s.halfMode = true ∧ w = .w16 then
          (if high then (hi16 (s.reg slot)).toNat else (lo16 (s.reg slot)).toNat)
        else (s.reg slot).toNat)

/-- R335: the interrupt line is bit 25 of the control slot, its default place, and follows every store into it at once, a
command's and the host's: a full store, a high half, and a low half, which leaves it. -/
def Obligations.InterruptLineFollowsEnable : Prop :=
  ∀ (s : State) (v : Word) (d : Half), s.cfg.Wf → s.cfg.DefaultRegFields →
    (∃ t, exec (.regw32 s.cfg.slot.ctrl v) s = .next t ∧ t.irqFifo = v.getLsbD 25) ∧
    (∃ t, exec (.regw16 true s.cfg.slot.ctrl d) s = .next t ∧ t.irqFifo = d.getLsbD 9) ∧
    (∃ t, exec (.regw16 false s.cfg.slot.ctrl d) s = .next t ∧ t.irqFifo = s.irqFifo) ∧
    ∀ (high : Bool) (w : Width) (rest : List HostOp),
      s.walk = none → s.inputs = .regWrite s.cfg.slot.ctrl high v w :: rest →
      ∃ t, step s = .next t ∧ t.irqFifo =
        (if s.cfg.gen = .gen1 ∧ s.halfMode = true ∧ w = .w16 then (if high then v.getLsbD 9 else s.irqFifo)
         else v.getLsbD 25)

/-- R311: a scanout copies the stored colour of each visible pixel of the display region for rows `y0` to `y1 - 1` and
leaves every other pixel of the bitmap; bank B is not changed and one event is logged. -/
def Obligations.ScanoutCopiesRows : Prop :=
  ∀ (s : State) (y0 y1 : Nat) (isPartial : Bool), s.disp.visW ≤ 65535 →
    scanout y0 y1 isPartial s =
      { s with out := (scanout y0 y1 isPartial s).out, log := s.log ++ [.scanout y0 y1 isPartial] } ∧
    ∀ y x, x ≤ 65535 →
      (scanout y0 y1 isPartial s).outPixel y x =
        (if y0 ≤ y ∧ y < y1 ∧ x < s.disp.visW then pixColor s.cfg s.bankB (pixelBlock s.cfg s.dbase x y)
         else s.outPixel y x)

/-- R147, R312: a line of the display: nothing without a valid geometry, the next row inside a frame; at the last row
the rows not yet copied are copied, the frame is logged, and both counts return to 0. -/
def Obligations.HLineAdvancesBeam : Prop :=
  ∀ (s : State) (rest : List HostOp), s.walk = none → s.inputs = .hLine :: rest →
    (s.disp.valid = false → step s = .next { s with inputs := rest }) ∧
    (s.disp.valid = true → s.beamRow + 1 < s.disp.vtotal →
      step s = .next { s with inputs := rest, beamRow := s.beamRow + 1 }) ∧
    (s.disp.valid = true → s.disp.vtotal ≤ s.beamRow + 1 →
      step s = .next { s with
        inputs := rest
        out := (scanout s.scanRow s.disp.visH false s).out
        log := s.log ++ [.scanout s.scanRow s.disp.visH false, .frame]
        scanRow := 0
        beamRow := 0 })

/-- R314, R315, R316: a store into a timing slot first copies the rows the beam has passed under the old geometry, if there
are new ones, and then takes the new configuration if it is valid: the counts are brought into range, the bitmap resized,
the change logged and announced; an invalid one is stored and not taken. The bitmap keeps its pixels inside the new size.
The announcement as a list of the state is the model's own record (DESIGN CHOICE, log entry 15). -/
def Obligations.TimingWriteRetimes : Prop :=
  ∀ (s : State) (slot : SlotNo) (v : Word) (d : Disp) (passed rows : Nat) (o : Output) (l : List Event), s.cfg.Wf →
    slot ∈ [s.cfg.slot.tTotal, s.cfg.slot.tHvis, s.cfg.slot.tVvis] →
    d = (s.setReg slot v).timing →
    passed = min (s.beamRow - s.disp.ys) s.disp.visH →
    rows = (if s.rowsDue then passed else s.scanRow) →
    o = (if s.rowsDue then (scanout s.scanRow passed true s).out else s.out) →
    l = (if s.rowsDue then s.log ++ [.scanout s.scanRow passed true] else s.log) →
    (d.acceptable = false →
      exec (.regw32 slot v) s = .next { s.setReg slot v with scanRow := rows, out := o, log := l }) ∧
    (d.acceptable = true →
      exec (.regw32 slot v) s = .next { s.setReg slot v with
        disp := d
        beamRow := s.beamRow % d.vtotal
        scanRow := min rows d.visH
        out := o.resize d.visW d.visH
        log := l ++ [.reconfigured d.htotal d.vtotal d.xs d.xe d.ys d.ye]
        announced := s.announced ++
          [⟨d.htotal, d.vtotal, d.xs, d.xe, d.ys, d.ye, d.xe - d.xs, d.ye - d.ys, d.htotal * d.vtotal⟩] } ∧
      ∀ y x, x < d.visW → y < d.visH →
        ({ s with out := o.resize d.visW d.visH } : State).outPixel y x = ({ s with out := o } : State).outPixel y x)

/-- R317, R26: a page-select write moves both regions at once, by the default places of the two base rows, and causes no
scanout. -/
def Obligations.PageWriteMovesRegions : Prop :=
  ∀ (s : State) (v : Word), s.cfg.Wf → s.cfg.DefaultRegFields →
    ∃ t, exec (.ptrset s.cfg.psel.rt v) s = .next t ∧ exec (.regw32 s.cfg.slot.page v) s = .next t ∧
      t.rbase = (lo16 v).toNat ∧ t.dbase = (hi16 v).toNat ∧ t = { s with regs := t.regs }

/-- R41, R360, R361: what reset leaves: the configuration's reset values, an empty FIFO, an empty log, no valid geometry;
nothing in the banks or the bitmap has been written, which the model represents by listing nothing (DESIGN CHOICE, log
entries 3, 4). By the default values every register slot is zero, the pointer slots, the quad size of the generation, a
zero transform state, every field of the geometry zero, the interrupt line deasserted. That R41's values are fields is
R6's and D46's word; which of them are is log entry 13. -/
def Obligations.ResetLeavesTable : Prop :=
  ∀ (c : Cfg) (i : SlotNo) (s : State), s = State.resetOf c →
    (s.cfg = c ∧ s.regs = c.reset.regs ∧ s.pTex = c.reset.pTex ∧ s.pPal = c.reset.pPal ∧ s.pQsize = c.reset.pQsize ∧
      s.matFix = c.reset.matFix ∧ s.matFlt = c.reset.matFlt ∧ s.trans = c.reset.trans ∧ s.light = c.reset.light ∧
      s.aux = c.reset.aux ∧ s.disp = c.reset.disp ∧ s.beamRow = c.reset.beamRow) ∧
    (s.fifo = [] ∧ s.scanRow = 0 ∧ s.log = [] ∧ (c.Wf → s.disp.valid = false) ∧
      (∀ a, s.bankA.get a = none ∧ s.bankB.get a = none) ∧ s.out.pixels = []) ∧
    (c.DefaultReset →
      s.reg i = 0 ∧ s.pTex = 0 ∧ s.pPal = 0 ∧ s.pQsize.words = (if c.gen = .gen1 then 10 else 14) ∧
      s.matFix = .all 0 ∧ s.matFlt = .all 0 ∧ s.trans = .all 0 ∧ s.light = .all 0 ∧ s.aux = .all 0 ∧
      s.disp = ⟨false, 0, 0, 0, 0, 0, 0⟩ ∧ s.beamRow = 0 ∧ s.irqFifo = false)
end

