-- ==== Sys2Proof/Laws/Bits.lean ====
section
/-! SUPPORT. The laws of packed words: what each field of a packed word reads as. -/

namespace Sys2Proof.Machine

theorem getLsbD_place {n : Nat} (x : BitVec n) (k i : Nat) :
    (place x k).getLsbD i = (decide (i < 32) && (decide (k ≤ i) && x.getLsbD (i - k))) := by
  simp only [place, BitVec.getLsbD_shiftLeft, BitVec.getLsbD_setWidth]
  grind

/-- A field of a packed word is the part placed there, where the rest of the word is zero in it. -/
theorem extract_place {n : Nat} (x : BitVec n) (k : Nat) (h : k + n ≤ 32) :
    (place x k).extractLsb' k n = x := by
  apply BitVec.eq_of_getLsbD_eq
  intro i hi
  simp only [BitVec.getLsbD_extractLsb', getLsbD_place]
  grind

/-- A field below or above a placed part reads zero there. -/
theorem extract_place_disjoint {n : Nat} (x : BitVec n) (k lo m : Nat) (h : lo + m ≤ k ∨ k + n ≤ lo) :
    (place x k).extractLsb' lo m = 0 := by
  apply BitVec.eq_of_getLsbD_eq
  intro i hi
  simp only [BitVec.getLsbD_extractLsb', getLsbD_place]
  have : k ≤ lo + i → x.getLsbD (lo + i - k) = false := fun hk => BitVec.getLsbD_of_ge _ _ (by omega)
  grind

theorem extract_or (a b : Word) (lo m : Nat) :
    (a ||| b).extractLsb' lo m = a.extractLsb' lo m ||| b.extractLsb' lo m := by
  apply BitVec.eq_of_getLsbD_eq
  intro i hi
  simp [hi]

@[simp] theorem lo16_joinHalves (h l : Half) : lo16 (joinHalves h l) = l := by
  simp [lo16, joinHalves, extract_or, extract_place_disjoint h 16 0 16 (by omega), extract_place l 0 (by omega)]

@[simp] theorem hi16_joinHalves (h l : Half) : hi16 (joinHalves h l) = h := by
  simp [hi16, joinHalves, extract_or, extract_place_disjoint l 0 16 16 (by omega), extract_place h 16 (by omega)]

@[simp] theorem joinHalves_hi_lo (w : Word) : joinHalves (hi16 w) (lo16 w) = w := by
  apply BitVec.eq_of_getLsbD_eq
  intro i hi
  simp only [joinHalves, hi16, lo16, BitVec.getLsbD_or, getLsbD_place, BitVec.getLsbD_extractLsb']
  grind

/-- The low half of a widened halfword is the halfword. -/
@[simp] theorem lo16_setWidth (h : Half) : lo16 (h.setWidth 32) = h := by
  apply BitVec.eq_of_getLsbD_eq
  intro i hi
  simp [lo16, hi]
  omega

/-- A word is the four bytes it is stored as. -/
@[simp] theorem joinFour_byteOf (w : Word) : joinFour (byteOf w 3) (byteOf w 2) (byteOf w 1) (byteOf w 0) = w := by
  apply BitVec.eq_of_getLsbD_eq
  intro i hi
  simp only [joinFour, byteOf, BitVec.getLsbD_or, getLsbD_place, BitVec.getLsbD_extractLsb']
  grind

@[simp] theorem byteOf_joinFour_0 (a b c d : Byte) : byteOf (joinFour a b c d) 0 = d := by
  apply BitVec.eq_of_getLsbD_eq
  intro i hi
  simp only [joinFour, byteOf, BitVec.getLsbD_or, getLsbD_place, BitVec.getLsbD_extractLsb']
  grind

@[simp] theorem byteOf_joinFour_1 (a b c d : Byte) : byteOf (joinFour a b c d) 1 = c := by
  apply BitVec.eq_of_getLsbD_eq
  intro i hi
  have : d.getLsbD (8 + i) = false := BitVec.getLsbD_of_ge _ _ (by omega)
  simp only [joinFour, byteOf, BitVec.getLsbD_or, getLsbD_place, BitVec.getLsbD_extractLsb']
  grind

@[simp] theorem byteOf_joinFour_2 (a b c d : Byte) : byteOf (joinFour a b c d) 2 = b := by
  apply BitVec.eq_of_getLsbD_eq
  intro i hi
  have h1 : d.getLsbD (16 + i) = false := BitVec.getLsbD_of_ge _ _ (by omega)
  have h2 : c.getLsbD (16 + i - 8) = false := BitVec.getLsbD_of_ge _ _ (by omega)
  simp only [joinFour, byteOf, BitVec.getLsbD_or, getLsbD_place, BitVec.getLsbD_extractLsb']
  grind

@[simp] theorem byteOf_joinFour_3 (a b c d : Byte) : byteOf (joinFour a b c d) 3 = a := by
  apply BitVec.eq_of_getLsbD_eq
  intro i hi
  have h1 : d.getLsbD (24 + i) = false := BitVec.getLsbD_of_ge _ _ (by omega)
  have h2 : c.getLsbD (24 + i - 8) = false := BitVec.getLsbD_of_ge _ _ (by omega)
  have h3 : b.getLsbD (24 + i - 16) = false := BitVec.getLsbD_of_ge _ _ (by omega)
  simp only [joinFour, byteOf, BitVec.getLsbD_or, getLsbD_place, BitVec.getLsbD_extractLsb']
  grind

/-- A halfword is the two bytes it is stored as. -/
@[simp] theorem joinBytes_extract (h : Half) : joinBytes (h.extractLsb' 8 8) (h.extractLsb' 0 8) = h := by
  apply BitVec.eq_of_getLsbD_eq
  intro i hi
  simp only [joinBytes, BitVec.getLsbD_or, BitVec.getLsbD_shiftLeft, BitVec.getLsbD_setWidth,
    BitVec.getLsbD_extractLsb']
  grind

end Sys2Proof.Machine
end

