-- ==== Sys2Proof/Laws/Cells.lean ====
section
/-! SUPPORT. The laws of keyed data: read after write, the canonical form, extensionality. -/

namespace Sys2Proof.Machine

variable {α : Type}

theorem Cells.get_put_same (m : Cells α) (a : Nat) (v : α) : (m.put a v).get a = some v := by
  induction m with
  | nil => simp [Cells.put, Cells.get]
  | cons p r ih =>
    obtain ⟨k, w⟩ := p
    unfold Cells.put
    split
    · simp [Cells.get]
    · split
      · simp [Cells.get]
      · rename_i h
        simp [Cells.get, h, ih]

theorem Cells.get_put_ne (m : Cells α) {a b : Nat} (v : α) (h : b ≠ a) : (m.put a v).get b = m.get b := by
  induction m with
  | nil => simp [Cells.put, Cells.get, h]
  | cons p r ih =>
    obtain ⟨k, w⟩ := p
    unfold Cells.put
    split
    · simp [Cells.get, h]
    · split
      · rename_i h1 h2
        subst h2
        simp [Cells.get, h]
      · simp [Cells.get, ih]

theorem Cells.get_put (m : Cells α) (a b : Nat) (v : α) :
    (m.put a v).get b = if b = a then some v else m.get b := by
  split
  · rename_i h
    rw [h, Cells.get_put_same]
  · rename_i h
    exact Cells.get_put_ne m v h

/-- The keys of the data after a write are the old keys and the written one. -/
theorem Cells.mem_put {m : Cells α} {a : Nat} {v : α} {p : Nat × α} (h : p ∈ m.put a v) :
    p = (a, v) ∨ p ∈ m := by
  induction m with
  | nil =>
    left
    simpa [Cells.put] using h
  | cons q r ih =>
    obtain ⟨k, w⟩ := q
    unfold Cells.put at h
    split at h
    · simpa using h
    · split at h
      · rcases List.mem_cons.1 h with h | h
        · exact .inl h
        · exact .inr (List.mem_cons_of_mem _ h)
      · rcases List.mem_cons.1 h with h | h
        · exact .inr (h ▸ List.mem_cons_self)
        · rcases ih h with h | h
          · exact .inl h
          · exact .inr (List.mem_cons_of_mem _ h)

/-- A write keeps the canonical form. -/
theorem Cells.put_wf {m : Cells α} (h : Cells.Wf m) (a : Nat) (v : α) : Cells.Wf (m.put a v) := by
  induction m with
  | nil => simp [Cells.Wf, Cells.put]
  | cons p r ih =>
    obtain ⟨k, w⟩ := p
    obtain ⟨h1, h2⟩ := List.pairwise_cons.1 h
    unfold Cells.put
    split
    · rename_i hlt
      refine List.pairwise_cons.2 ⟨?_, h⟩
      intro q hq
      rcases List.mem_cons.1 hq with rfl | hq
      · exact hlt
      · exact Nat.lt_trans hlt (h1 q hq)
    · split
      · rename_i he
        subst he
        exact List.pairwise_cons.2 ⟨h1, h2⟩
      · rename_i h3 h4
        refine List.pairwise_cons.2 ⟨?_, ih h2⟩
        intro q hq
        rcases Cells.mem_put hq with rfl | hq
        · simp only
          omega
        · exact h1 q hq

theorem Cells.filter_wf {m : Cells α} (h : Cells.Wf m) (p : Nat × α → Bool) : Cells.Wf (m.filter p) :=
  List.Pairwise.filter p h

/-- A listed key is in the list. -/
theorem Cells.mem_of_get {m : Cells α} {a : Nat} {v : α} (h : m.get a = some v) : (a, v) ∈ m := by
  induction m with
  | nil => simp [Cells.get] at h
  | cons p r ih =>
    obtain ⟨k, w⟩ := p
    unfold Cells.get at h
    split at h
    · rename_i he
      subst he
      simp_all
    · exact List.mem_cons_of_mem _ (ih h)

/-- In canonical form a listed entry is what its key reads as. -/
theorem Cells.get_of_mem {m : Cells α} (h : Cells.Wf m) {a : Nat} {v : α} (hm : (a, v) ∈ m) : m.get a = some v := by
  induction m with
  | nil => simp at hm
  | cons p r ih =>
    obtain ⟨k, w⟩ := p
    obtain ⟨h1, h2⟩ := List.pairwise_cons.1 h
    unfold Cells.get
    rcases List.mem_cons.1 hm with he | hm
    · cases he
      simp
    · have := h1 _ hm
      rw [if_neg (by simp only at this; omega)]
      exact ih h2 hm

/-- Equal as functions, equal as data: the form is canonical. -/
theorem Cells.ext_get {m n : Cells α} (hm : Cells.Wf m) (hn : Cells.Wf n) (h : ∀ a, m.get a = n.get a) : m = n := by
  have sub : ∀ {m n : Cells α}, Cells.Wf n → (∀ a, m.get a = n.get a) → Cells.Wf m → ∀ p ∈ m, p ∈ n := by
    intro m n _ h hm p hp
    exact Cells.mem_of_get ((h p.1).symm.trans (Cells.get_of_mem hm hp))
  have nd : ∀ {m : Cells α}, Cells.Wf m → m.Nodup := by
    intro m hm
    exact List.Pairwise.imp (fun {a b} hab => by rintro rfl; exact absurd hab (Nat.lt_irrefl _)) hm
  have hp : m.Perm n :=
    (List.perm_ext_iff_of_nodup (nd hm) (nd hn)).2
      (fun p => ⟨sub hn h hm p, sub hm (fun a => (h a).symm) hn p⟩)
  refine List.Perm.eq_of_pairwise ?_ hm hn hp
  intro a b _ _ h1 h2
  omega

/-- What survives a filter on keys. -/
theorem Cells.get_filter (m : Cells α) (f : Nat → Bool) (a : Nat) :
    Cells.get (m.filter (fun p => f p.1)) a = if f a then m.get a else none := by
  induction m with
  | nil => simp [Cells.get]
  | cons p r ih =>
    obtain ⟨k, w⟩ := p
    by_cases hk : f k
    · rw [List.filter_cons_of_pos (by simpa using hk)]
      unfold Cells.get
      by_cases ha : a = k
      · subst ha
        simp [hk]
      · rw [if_neg ha, if_neg ha]
        exact ih
    · rw [List.filter_cons_of_neg (by simpa using hk)]
      rw [ih]
      conv_rhs => unfold Cells.get
      by_cases ha : a = k
      · subst ha
        simp [hk]
      · rw [if_neg ha]

end Sys2Proof.Machine
end

