-- ==== Sys2Proof/Laws/Colours.lean ====
section
/-! SUPPORT. The channels of a colour, under any legal pixel formats: a packed colour reads back its channels and
holds nothing else. -/

namespace Sys2Proof.Machine

variable {c : Cfg}

/-- The places of the three channels share no bit and lie in a word (R35). -/
theorem channels_places (h : c.Wf) :
    let lo := c.pix.channelLo
    let w := channelWidth c.gen
    (lo.e0 + w ≤ lo.e1 ∨ lo.e1 + w ≤ lo.e0) ∧ (lo.e0 + w ≤ lo.e2 ∨ lo.e2 + w ≤ lo.e0) ∧
      (lo.e1 + w ≤ lo.e2 ∨ lo.e2 + w ≤ lo.e1) ∧ lo.e0 + w ≤ 32 ∧ lo.e1 + w ≤ 32 ∧ lo.e2 + w ≤ 32 := by
  have ha := h.pix_wf.channels_apart
  have hi := h.pix_wf.channels_inside
  have hw : colourWidth c.gen ≤ 32 := by cases c.gen <;> decide
  simp only [Vec3.list, List.map_cons, List.map_nil, List.pairwise_cons, List.mem_cons, List.not_mem_nil, or_false,
    forall_eq_or_imp, forall_eq, Field.apart] at ha hi
  simp only []
  omega

/-- A packed colour reads back its channels, each to the width of a channel. -/
theorem channels_packColour (h : c.Wf) (ch : Vec3 Nat) :
    channels c (packColour c ch) = ch.map (fun x => x % 2 ^ channelWidth c.gen) := by
  obtain ⟨h01, h02, h12, h0, h1, h2⟩ := channels_places h
  unfold channels packColour placeChannel Vec3.map fieldNat
  simp only [extract_or]
  rw [extract_place _ _ h0, extract_place _ _ h1, extract_place _ _ h2,
    extract_place_disjoint _ _ _ _ (by omega), extract_place_disjoint _ _ _ _ (by omega),
    extract_place_disjoint _ _ _ _ (by omega), extract_place_disjoint _ _ _ _ (by omega),
    extract_place_disjoint _ _ _ _ (by omega), extract_place_disjoint _ _ _ _ (by omega)]
  simp

/-- A packed colour has no bits that are no colour. -/
theorem nonColourBits_packColour (c : Cfg) (ch : Vec3 Nat) : nonColourBits c (packColour c ch) = 0 := by
  have ones : ∀ k, (BitVec.ofNat (channelWidth c.gen) (2 ^ channelWidth c.gen - 1)).getLsbD k =
      decide (k < channelWidth c.gen) := by
    intro k
    simp [BitVec.getLsbD_ofNat]
  apply BitVec.eq_of_getLsbD_eq
  intro i hi
  simp only [nonColourBits, packColour, placeChannel, Vec3.all, BitVec.getLsbD_and, BitVec.getLsbD_or,
    BitVec.getLsbD_not, getLsbD_place, ones]
  have lt : ∀ (x k : Nat), (BitVec.ofNat (channelWidth c.gen) x).getLsbD k = true → k < channelWidth c.gen :=
    fun x k => BitVec.lt_of_getLsbD
  grind

end Sys2Proof.Machine
end

