-- ==== Sys2Proof/Laws/State.lean ====
section
/-! SUPPORT. The small lemmas of the state's updates: what each field is after a store, a log event, a bank write; the
register file read after a write. -/

namespace Sys2Proof.Machine

variable (s : State)

/-! ### `State.setReg` -/
@[simp] theorem setReg_cfg (i : SlotNo) (v : Word) : (s.setReg i v).cfg = s.cfg := rfl
@[simp] theorem setReg_pTex (i : SlotNo) (v : Word) : (s.setReg i v).pTex = s.pTex := rfl
@[simp] theorem setReg_pPal (i : SlotNo) (v : Word) : (s.setReg i v).pPal = s.pPal := rfl
@[simp] theorem setReg_pQsize (i : SlotNo) (v : Word) : (s.setReg i v).pQsize = s.pQsize := rfl
@[simp] theorem setReg_matFix (i : SlotNo) (v : Word) : (s.setReg i v).matFix = s.matFix := rfl
@[simp] theorem setReg_matFlt (i : SlotNo) (v : Word) : (s.setReg i v).matFlt = s.matFlt := rfl
@[simp] theorem setReg_trans (i : SlotNo) (v : Word) : (s.setReg i v).trans = s.trans := rfl
@[simp] theorem setReg_light (i : SlotNo) (v : Word) : (s.setReg i v).light = s.light := rfl
@[simp] theorem setReg_aux (i : SlotNo) (v : Word) : (s.setReg i v).aux = s.aux := rfl
@[simp] theorem setReg_fifo (i : SlotNo) (v : Word) : (s.setReg i v).fifo = s.fifo := rfl
@[simp] theorem setReg_bankA (i : SlotNo) (v : Word) : (s.setReg i v).bankA = s.bankA := rfl
@[simp] theorem setReg_bankB (i : SlotNo) (v : Word) : (s.setReg i v).bankB = s.bankB := rfl
@[simp] theorem setReg_disp (i : SlotNo) (v : Word) : (s.setReg i v).disp = s.disp := rfl
@[simp] theorem setReg_beamRow (i : SlotNo) (v : Word) : (s.setReg i v).beamRow = s.beamRow := rfl
@[simp] theorem setReg_scanRow (i : SlotNo) (v : Word) : (s.setReg i v).scanRow = s.scanRow := rfl
@[simp] theorem setReg_out (i : SlotNo) (v : Word) : (s.setReg i v).out = s.out := rfl
@[simp] theorem setReg_log (i : SlotNo) (v : Word) : (s.setReg i v).log = s.log := rfl
@[simp] theorem setReg_announced (i : SlotNo) (v : Word) : (s.setReg i v).announced = s.announced := rfl
@[simp] theorem setReg_replies (i : SlotNo) (v : Word) : (s.setReg i v).replies = s.replies := rfl
@[simp] theorem setReg_walk (i : SlotNo) (v : Word) : (s.setReg i v).walk = s.walk := rfl
@[simp] theorem setReg_inputs (i : SlotNo) (v : Word) : (s.setReg i v).inputs = s.inputs := rfl

/-! ### `State.logEvent` -/

@[simp] theorem logEvent_cfg (e : Event) : (s.logEvent e).cfg = s.cfg := rfl
@[simp] theorem logEvent_regs (e : Event) : (s.logEvent e).regs = s.regs := rfl
@[simp] theorem logEvent_pTex (e : Event) : (s.logEvent e).pTex = s.pTex := rfl
@[simp] theorem logEvent_pPal (e : Event) : (s.logEvent e).pPal = s.pPal := rfl
@[simp] theorem logEvent_pQsize (e : Event) : (s.logEvent e).pQsize = s.pQsize := rfl
@[simp] theorem logEvent_matFix (e : Event) : (s.logEvent e).matFix = s.matFix := rfl
@[simp] theorem logEvent_matFlt (e : Event) : (s.logEvent e).matFlt = s.matFlt := rfl
@[simp] theorem logEvent_trans (e : Event) : (s.logEvent e).trans = s.trans := rfl
@[simp] theorem logEvent_light (e : Event) : (s.logEvent e).light = s.light := rfl
@[simp] theorem logEvent_aux (e : Event) : (s.logEvent e).aux = s.aux := rfl
@[simp] theorem logEvent_fifo (e : Event) : (s.logEvent e).fifo = s.fifo := rfl
@[simp] theorem logEvent_bankA (e : Event) : (s.logEvent e).bankA = s.bankA := rfl
@[simp] theorem logEvent_bankB (e : Event) : (s.logEvent e).bankB = s.bankB := rfl
@[simp] theorem logEvent_disp (e : Event) : (s.logEvent e).disp = s.disp := rfl
@[simp] theorem logEvent_beamRow (e : Event) : (s.logEvent e).beamRow = s.beamRow := rfl
@[simp] theorem logEvent_scanRow (e : Event) : (s.logEvent e).scanRow = s.scanRow := rfl
@[simp] theorem logEvent_out (e : Event) : (s.logEvent e).out = s.out := rfl
@[simp] theorem logEvent_announced (e : Event) : (s.logEvent e).announced = s.announced := rfl
@[simp] theorem logEvent_replies (e : Event) : (s.logEvent e).replies = s.replies := rfl
@[simp] theorem logEvent_walk (e : Event) : (s.logEvent e).walk = s.walk := rfl
@[simp] theorem logEvent_inputs (e : Event) : (s.logEvent e).inputs = s.inputs := rfl
@[simp] theorem logEvent_log (e : Event) : (s.logEvent e).log = s.log ++ [e] := rfl

/-! ### `State.setMem` -/

@[simp] theorem setMem_cfg (bk : Bank) (m : Memory) : (s.setMem bk m).cfg = s.cfg := by
  cases bk <;> rfl
@[simp] theorem setMem_regs (bk : Bank) (m : Memory) : (s.setMem bk m).regs = s.regs := by
  cases bk <;> rfl
@[simp] theorem setMem_pTex (bk : Bank) (m : Memory) : (s.setMem bk m).pTex = s.pTex := by
  cases bk <;> rfl
@[simp] theorem setMem_pPal (bk : Bank) (m : Memory) : (s.setMem bk m).pPal = s.pPal := by
  cases bk <;> rfl
@[simp] theorem setMem_pQsize (bk : Bank) (m : Memory) : (s.setMem bk m).pQsize = s.pQsize := by
  cases bk <;> rfl
@[simp] theorem setMem_matFix (bk : Bank) (m : Memory) : (s.setMem bk m).matFix = s.matFix := by
  cases bk <;> rfl
@[simp] theorem setMem_matFlt (bk : Bank) (m : Memory) : (s.setMem bk m).matFlt = s.matFlt := by
  cases bk <;> rfl
@[simp] theorem setMem_trans (bk : Bank) (m : Memory) : (s.setMem bk m).trans = s.trans := by
  cases bk <;> rfl
@[simp] theorem setMem_light (bk : Bank) (m : Memory) : (s.setMem bk m).light = s.light := by
  cases bk <;> rfl
@[simp] theorem setMem_aux (bk : Bank) (m : Memory) : (s.setMem bk m).aux = s.aux := by
  cases bk <;> rfl
@[simp] theorem setMem_fifo (bk : Bank) (m : Memory) : (s.setMem bk m).fifo = s.fifo := by
  cases bk <;> rfl
@[simp] theorem setMem_disp (bk : Bank) (m : Memory) : (s.setMem bk m).disp = s.disp := by
  cases bk <;> rfl
@[simp] theorem setMem_beamRow (bk : Bank) (m : Memory) : (s.setMem bk m).beamRow = s.beamRow := by
  cases bk <;> rfl
@[simp] theorem setMem_scanRow (bk : Bank) (m : Memory) : (s.setMem bk m).scanRow = s.scanRow := by
  cases bk <;> rfl
@[simp] theorem setMem_out (bk : Bank) (m : Memory) : (s.setMem bk m).out = s.out := by
  cases bk <;> rfl
@[simp] theorem setMem_log (bk : Bank) (m : Memory) : (s.setMem bk m).log = s.log := by
  cases bk <;> rfl
@[simp] theorem setMem_announced (bk : Bank) (m : Memory) : (s.setMem bk m).announced = s.announced := by
  cases bk <;> rfl
@[simp] theorem setMem_replies (bk : Bank) (m : Memory) : (s.setMem bk m).replies = s.replies := by
  cases bk <;> rfl
@[simp] theorem setMem_walk (bk : Bank) (m : Memory) : (s.setMem bk m).walk = s.walk := by
  cases bk <;> rfl
@[simp] theorem setMem_inputs (bk : Bank) (m : Memory) : (s.setMem bk m).inputs = s.inputs := by
  cases bk <;> rfl
@[simp] theorem setMem_mem (bk : Bank) (m : Memory) : (s.setMem bk m).mem bk = m := by
  cases bk <;> rfl
@[simp] theorem setMem_bankA_bankB (m : Memory) : (s.setMem .bankA m).bankB = s.bankB := rfl
@[simp] theorem setMem_bankB_bankA (m : Memory) : (s.setMem .bankB m).bankA = s.bankA := rfl
@[simp] theorem setMem_bankA_bankA (m : Memory) : (s.setMem .bankA m).bankA = m := rfl
@[simp] theorem setMem_bankB_bankB (m : Memory) : (s.setMem .bankB m).bankB = m := rfl
@[simp] theorem setReg_mem (i : SlotNo) (v : Word) (bk : Bank) : (s.setReg i v).mem bk = s.mem bk := by
  cases bk <;> rfl
@[simp] theorem logEvent_mem (e : Event) (bk : Bank) : (s.logEvent e).mem bk = s.mem bk := by
  cases bk <;> rfl

/-! ### The register file -/

@[simp] theorem reg_setReg_same (i : SlotNo) (v : Word) : (s.setReg i v).reg i = v := by
  simp [State.reg, State.setReg]

theorem reg_setReg_ne {i j : SlotNo} (v : Word) (h : j ≠ i) : (s.setReg i v).reg j = s.reg j := by
  have h' : i.toNat ≠ j.toNat := fun e => h (BitVec.eq_of_toNat_eq e.symm)
  simp only [State.reg, State.setReg]
  exact Vector.getElem_set_ne _ _ h'

theorem reg_setReg (i j : SlotNo) (v : Word) : (s.setReg i v).reg j = if j = i then v else s.reg j := by
  split
  · rename_i h
    rw [h, reg_setReg_same]
  · rename_i h
    exact reg_setReg_ne s v h

@[simp] theorem reg_logEvent (e : Event) (i : SlotNo) : (s.logEvent e).reg i = s.reg i := rfl

@[simp] theorem reg_setMem (bk : Bank) (m : Memory) (i : SlotNo) : (s.setMem bk m).reg i = s.reg i := by
  cases bk <;> rfl

/-- A state is determined by its registers read one by one and its other fields. -/
theorem regs_ext {r r' : Vector Word 128} (h : ∀ i : SlotNo, r[i.toNat]'i.isLt = r'[i.toNat]'i.isLt) : r = r' := by
  ext i hi
  have := h (BitVec.ofNat 7 i)
  simp only [BitVec.toNat_ofNat] at this
  have e : i % 2 ^ 7 = i := Nat.mod_eq_of_lt (by omega)
  simp only [e] at this
  rw [this]

end Sys2Proof.Machine
end

