-- ==== Sys2Proof/Laws/Tiles.lean ====
section
/-! SUPPORT. The laws of blocks and lanes: translation stays inside the bank, a lane table is a partition of the block,
a lane write touches the bytes of its lane and no other, and keeps the canonical form. -/

namespace Sys2Proof.Machine

variable {c : Cfg}

/-! ### Translation -/

theorem col_lt (h : c.Wf) (bk : Bank) (a : Word) : col c bk a < c.width bk := Nat.mod_lt _ (h.width_pos bk)

theorem row_lt (h : c.Wf) (bk : Bank) (a : Word) : row c bk a < c.height bk := Nat.mod_lt _ (h.height_pos bk)

theorem blockBytes_pos (h : c.Wf) (bk : Bank) : 0 < c.blockBytes bk := by
  have := h.aBytes_eq
  have := h.bBytes_eq
  cases bk <;> simp only [Cfg.blockBytes] <;> omega

theorem mul_add_lt {r w x n : Nat} (hr : r < n) (hx : x < w) : r * w + x < n * w := by
  have : (r + 1) * w ≤ n * w := Nat.mul_le_mul_right w hr
  rw [Nat.succ_mul] at this
  omega

theorem blockNum_lt (h : c.Wf) (bk : Bank) (a : Word) : blockNum c bk a < c.height bk * c.width bk :=
  mul_add_lt (row_lt h bk a) (col_lt h bk a)

/-- An address in normal form selects its own row and column. -/
theorem row_col_mkAddr (h : c.Wf) (bk : Bank) {y x : Nat} (hy : y < c.height bk) (hx : x < c.width bk) :
    row c bk (mkAddr c y x) = y ∧ col c bk (mkAddr c y x) = x := by
  have hw := h.width_le bk
  have hh := h.height_le bk
  have hp : 2 ^ c.colBits * 2 ^ (32 - c.colBits) = 2 ^ 32 := by
    rw [← Nat.pow_add]
    congr 1
    have := h.colBits_le
    omega
  have hx' : x < 2 ^ c.colBits := by omega
  have hlt : y * 2 ^ c.colBits + x < 2 ^ 32 := by
    rw [← hp, Nat.mul_comm (2 ^ c.colBits)]
    exact mul_add_lt (by omega) hx'
  have hn : (mkAddr c y x).toNat = y * 2 ^ c.colBits + x := by
    simp only [mkAddr, BitVec.toNat_ofNat]
    exact Nat.mod_eq_of_lt hlt
  have hp0 : 0 < 2 ^ c.colBits := Nat.two_pow_pos _
  constructor
  · rw [row, hn, Nat.add_comm, Nat.add_mul_div_right _ _ hp0, Nat.div_eq_of_lt hx', Nat.zero_add,
      Nat.mod_eq_of_lt hy]
  · rw [col, hn, Nat.add_comm, Nat.add_mul_mod_self_right, Nat.mod_eq_of_lt hx', Nat.mod_eq_of_lt hx]

theorem blockNum_mkAddr (h : c.Wf) (bk : Bank) {y x : Nat} (hy : y < c.height bk) (hx : x < c.width bk) :
    blockNum c bk (mkAddr c y x) = y * c.width bk + x := by
  obtain ⟨h1, h2⟩ := row_col_mkAddr h bk hy hx
  rw [blockNum, h1, h2]

/-! ### The bytes of a block -/

theorem byteAddr_inj {bk : Bank} {blk blk' p q : Nat} (hp : p < c.blockBytes bk) (hq : q < c.blockBytes bk)
    (h : byteAddr c bk blk p = byteAddr c bk blk' q) : blk = blk' ∧ p = q := by
  have hpos : 0 < c.blockBytes bk := by omega
  simp only [byteAddr] at h
  have h1 : (blk * c.blockBytes bk + p) / c.blockBytes bk = blk := by
    rw [Nat.add_comm, Nat.add_mul_div_right _ _ hpos, Nat.div_eq_of_lt hp, Nat.zero_add]
  have h2 : (blk' * c.blockBytes bk + q) / c.blockBytes bk = blk' := by
    rw [Nat.add_comm, Nat.add_mul_div_right _ _ hpos, Nat.div_eq_of_lt hq, Nat.zero_add]
  have hb : blk = blk' := by rw [← h1, ← h2, h]
  subst hb
  exact ⟨rfl, by omega⟩

theorem byteAt_setByteAt {bk : Bank} (m : Memory) {blk blk' p q : Nat} (v : Byte) (hp : p < c.blockBytes bk)
    (hq : q < c.blockBytes bk) :
    byteAt c bk (setByteAt c bk m blk p v) blk' q = if blk' = blk ∧ q = p then v else byteAt c bk m blk' q := by
  simp only [byteAt, setByteAt, Cells.get_put]
  by_cases h : byteAddr c bk blk' q = byteAddr c bk blk p
  · obtain ⟨h1, h2⟩ := byteAddr_inj hq hp h
    simp [h1, h2]
  · rw [if_neg h, if_neg]
    rintro ⟨rfl, rfl⟩
    exact h rfl

theorem setByteAt_wf {bk : Bank} {m : Memory} (h : Memory.wf m) (blk p : Nat) (v : Byte) :
    Memory.wf (setByteAt c bk m blk p v) := Cells.put_wf h _ _

theorem setByteAt_get_ne {bk : Bank} (m : Memory) {blk p a : Nat} (v : Byte) (h : a ≠ byteAddr c bk blk p) :
    (setByteAt c bk m blk p v).get a = m.get a := Cells.get_put_ne m v h

/-! ### Lane tables -/

theorem pos8_lt (h : c.Wf) (bk : Bank) (k : Nat) : pos8 c bk k < c.blockBytes bk := by
  have hb := blockBytes_pos h bk
  have hp := (h.lanes_wf bk).perm8
  unfold pos8
  rw [List.getD_eq_getElem?_getD]
  cases hk : (c.lanes bk).lane8[k]? with
  | none => simpa using hb
  | some x =>
    have : x ∈ (c.lanes bk).lane8 := List.mem_of_getElem? hk
    simpa using List.mem_range.1 (hp.mem_iff.1 this)

theorem pos16_lt (h : c.Wf) (bk : Bank) (k : Nat) :
    (pos16 c bk k).1 < c.blockBytes bk ∧ (pos16 c bk k).2 < c.blockBytes bk := by
  have hb := blockBytes_pos h bk
  have hp := (h.lanes_wf bk).perm16
  unfold pos16
  rw [List.getD_eq_getElem?_getD]
  cases hk : (c.lanes bk).lane16[k]? with
  | none => exact ⟨by simpa using hb, by simpa using hb⟩
  | some x =>
    have hx : x ∈ (c.lanes bk).lane16 := List.mem_of_getElem? hk
    have key : ∀ y ∈ [x.1, x.2], y < c.blockBytes bk := fun y hy =>
      List.mem_range.1 (hp.mem_iff.1 (List.mem_flatMap.2 ⟨x, hx, hy⟩))
    exact ⟨key _ (by simp), key _ (by simp)⟩

theorem pos32_lt (h : c.Wf) (bk : Bank) (k : Nat) :
    (pos32 c bk k).1 < c.blockBytes bk ∧ (pos32 c bk k).2.1 < c.blockBytes bk ∧
      (pos32 c bk k).2.2.1 < c.blockBytes bk ∧ (pos32 c bk k).2.2.2 < c.blockBytes bk := by
  have hb := blockBytes_pos h bk
  have hp := (h.lanes_wf bk).perm32
  unfold pos32
  rw [List.getD_eq_getElem?_getD]
  cases hk : (c.lanes bk).lane32[k]? with
  | none => exact ⟨by simpa using hb, by simpa using hb, by simpa using hb, by simpa using hb⟩
  | some x =>
    have hx : x ∈ (c.lanes bk).lane32 := List.mem_of_getElem? hk
    have key : ∀ y ∈ [x.1, x.2.1, x.2.2.1, x.2.2.2], y < c.blockBytes bk := fun y hy =>
      List.mem_range.1 (hp.mem_iff.1 (List.mem_flatMap.2 ⟨x, hx, hy⟩))
    exact ⟨key _ (by simp), key _ (by simp), key _ (by simp), key _ (by simp)⟩

/-- Two entries of a table whose flattening has no repeats are disjoint. -/
theorem disjoint_of_nodup_flatMap {α : Type} {l : List α} {f : α → List Nat} (h : (l.flatMap f).Nodup)
    {i j : Nat} {x y : α} (hi : l[i]? = some x) (hj : l[j]? = some y) (hij : i ≠ j) : List.Disjoint (f x) (f y) := by
  have hp := (List.nodup_flatMap.1 h).2
  obtain ⟨hi', rfl⟩ := List.getElem?_eq_some_iff.1 hi
  obtain ⟨hj', rfl⟩ := List.getElem?_eq_some_iff.1 hj
  rcases Nat.lt_or_gt_of_ne hij with hlt | hgt
  · exact List.pairwise_iff_getElem.1 hp i j hi' hj' hlt
  · exact (List.pairwise_iff_getElem.1 hp j i hj' hi' hgt).symm

theorem nodup_of_nodup_flatMap {α : Type} {l : List α} {f : α → List Nat} (h : (l.flatMap f).Nodup)
    {i : Nat} {x : α} (hi : l[i]? = some x) : (f x).Nodup :=
  (List.nodup_flatMap.1 h).1 x (List.mem_of_getElem? hi)

theorem perm16_nodup (h : c.Wf) (bk : Bank) :
    ((c.lanes bk).lane16.flatMap (fun p => [p.1, p.2])).Nodup :=
  (h.lanes_wf bk).perm16.nodup_iff.2 List.nodup_range

theorem perm32_nodup (h : c.Wf) (bk : Bank) :
    ((c.lanes bk).lane32.flatMap (fun p => [p.1, p.2.1, p.2.2.1, p.2.2.2])).Nodup :=
  (h.lanes_wf bk).perm32.nodup_iff.2 List.nodup_range

theorem lane8_length (h : c.Wf) (bk : Bank) : (c.lanes bk).lane8.length = c.blockBytes bk := by
  simpa using (h.lanes_wf bk).perm8.length_eq

theorem flatMap_two_length {α : Type} (l : List α) (f g : α → Nat) :
    (l.flatMap (fun p => [f p, g p])).length = 2 * l.length := by
  induction l with
  | nil => rfl
  | cons x r ih =>
    simp only [List.flatMap_cons, List.length_append, ih, List.length_cons, List.length_nil]
    omega

theorem flatMap_four_length {α : Type} (l : List α) (f g i j : α → Nat) :
    (l.flatMap (fun p => [f p, g p, i p, j p])).length = 4 * l.length := by
  induction l with
  | nil => rfl
  | cons x r ih =>
    simp only [List.flatMap_cons, List.length_append, ih, List.length_cons, List.length_nil]
    omega

theorem lane16_length (h : c.Wf) (bk : Bank) : 2 * (c.lanes bk).lane16.length = c.blockBytes bk := by
  have := (h.lanes_wf bk).perm16.length_eq
  rwa [flatMap_two_length, List.length_range] at this

theorem lane32_length (h : c.Wf) (bk : Bank) : 4 * (c.lanes bk).lane32.length = c.blockBytes bk := by
  have := (h.lanes_wf bk).perm32.length_eq
  rwa [flatMap_four_length, List.length_range] at this

/-! ### What a lane write touches -/

theorem setLane8_get_ne {bk : Bank} (m : Memory) {blk k a : Nat} (v : Byte) (h : a ∉ laneAddrs8 c bk blk k) :
    (setLane8 c bk m blk k v).get a = m.get a :=
  setByteAt_get_ne m v (by simpa [laneAddrs8] using h)

theorem setLane16_get_ne {bk : Bank} (m : Memory) {blk k a : Nat} (v : Half) (h : a ∉ laneAddrs16 c bk blk k) :
    (setLane16 c bk m blk k v).get a = m.get a := by
  simp only [laneAddrs16, List.mem_cons, List.not_mem_nil, or_false, not_or] at h
  simp only [setLane16]
  rw [setByteAt_get_ne _ _ h.2, setByteAt_get_ne _ _ h.1]

theorem setLane32_get_ne {bk : Bank} (m : Memory) {blk k a : Nat} (v : Word) (h : a ∉ laneAddrs32 c bk blk k) :
    (setLane32 c bk m blk k v).get a = m.get a := by
  simp only [laneAddrs32, List.mem_cons, List.not_mem_nil, or_false, not_or] at h
  simp only [setLane32]
  rw [setByteAt_get_ne _ _ h.2.2.2, setByteAt_get_ne _ _ h.2.2.1, setByteAt_get_ne _ _ h.2.1,
    setByteAt_get_ne _ _ h.1]

theorem setLane8_wf {bk : Bank} {m : Memory} (h : Memory.wf m) (blk k : Nat) (v : Byte) :
    Memory.wf (setLane8 c bk m blk k v) := setByteAt_wf h _ _ _

theorem setLane16_wf {bk : Bank} {m : Memory} (h : Memory.wf m) (blk k : Nat) (v : Half) :
    Memory.wf (setLane16 c bk m blk k v) := setByteAt_wf (setByteAt_wf h _ _ _) _ _ _

theorem setLane32_wf {bk : Bank} {m : Memory} (h : Memory.wf m) (blk k : Nat) (v : Word) :
    Memory.wf (setLane32 c bk m blk k v) :=
  setByteAt_wf (setByteAt_wf (setByteAt_wf (setByteAt_wf h _ _ _) _ _ _) _ _ _) _ _ _

theorem memWrite8_wf {bk : Bank} {m : Memory} (h : Memory.wf m) (a : Word) (k : Nat) (v : Byte) :
    Memory.wf (memWrite8 c bk m a k v) := setLane8_wf h _ _ _

theorem memWrite16_wf {bk : Bank} {m : Memory} (h : Memory.wf m) (a : Word) (k : Nat) (v : Half) :
    Memory.wf (memWrite16 c bk m a k v) := setLane16_wf h _ _ _

theorem memWrite32_wf {bk : Bank} {m : Memory} (h : Memory.wf m) (a : Word) (k : Nat) (v : Word) :
    Memory.wf (memWrite32 c bk m a k v) := setLane32_wf h _ _ _

theorem setPixel_wf {m : Memory} (h : Memory.wf m) (blk : Nat) (v : Color) (d : Half) :
    Memory.wf (setPixel c m blk v d) := by
  unfold setPixel setPixDepth setPixColor
  cases c.gen
  · exact setLane16_wf (setLane16_wf h _ _ _) _ _ _
  · exact setLane16_wf (setLane32_wf h _ _ _) _ _ _

/-- A pixel write touches the colour and depth bytes of its block and no other byte of the bank. -/
theorem setPixel_get_ne (m : Memory) {blk a : Nat} (v : Color) (d : Half) (h : a ∉ pixelAddrs c blk) :
    (setPixel c m blk v d).get a = m.get a := by
  simp only [pixelAddrs, colorAddrs, List.mem_append, not_or] at h
  unfold setPixel setPixDepth setPixColor
  cases hg : c.gen <;> simp only [hg] at h ⊢
  · rw [setLane16_get_ne _ _ h.2, setLane16_get_ne _ _ h.1]
  · rw [setLane16_get_ne _ _ h.2, setLane32_get_ne _ _ h.1]

/-- The written keys of a bank stay below a bound that the lane's bytes are below. -/
theorem put_keys_lt {m : Memory} {n a : Nat} {v : Byte} (hm : ∀ p ∈ m, p.1 < n) (ha : a < n) :
    ∀ p ∈ Cells.put m a v, p.1 < n := by
  intro p hp
  rcases Cells.mem_put hp with rfl | hp
  · exact ha
  · exact hm p hp

end Sys2Proof.Machine
end

