-- ==== Sys2Proof/Laws/SideEffects.lean ====
section
/-! SUPPORT. What the side effects of a slot write can do (R142): latch and commit touch registers and one bank, retime
touches the display, the bitmap and the log; nothing touches the rest of the state (`slotFrame`). -/

namespace Sys2Proof.Machine

variable (s : State)

/-! ### Register-only operations -/

/-- A projection that no register store changes is not changed by `loadData`. -/
theorem loadData_proj {β : Type} (f : State → β) (h : ∀ t i v, f (State.setReg t i v) = f t) (bk : Bank) :
    f (loadData bk s) = f s := by
  unfold loadData
  generalize usedData s.cfg bk = l
  have : ∀ t, f (l.foldl (fun t p => t.setReg p.1 (lane32 s.cfg bk (s.mem bk) (s.groupBlock bk) p.2)) t) = f t := by
    induction l with
    | nil => intro t; rfl
    | cons p r ih => intro t; rw [List.foldl_cons, ih, h]
  exact this s

theorem autoIncrement_proj {β : Type} (f : State → β) (h : ∀ t i v, f (State.setReg t i v) = f t) (bk : Bank) :
    f (autoIncrement bk s) = f s := by
  unfold autoIncrement
  split
  · exact h _ _ _
  · rfl

/-- A latch changes registers only (R85). -/
theorem latch_proj {β : Type} (f : State → β) (h : ∀ t i v, f (State.setReg t i v) = f t) (bk : Bank) :
    f (latch bk s) = f s := by
  unfold latch
  split
  · rw [autoIncrement_proj _ f h, loadData_proj s f h]
  · rfl

/-! ### Commit -/

/-- A commit changes registers and its bank only (R86). -/
theorem commit_proj {β : Type} (f : State → β) (h : ∀ t i v, f (State.setReg t i v) = f t) (bk : Bank)
    (hm : ∀ t m, f (State.setMem t bk m) = f t) (j : Nat) : f (commit bk j s) = f s := by
  unfold commit
  split
  · rw [autoIncrement_proj _ f h, storeData, hm]
  · rfl

/-- What a commit does to its bank: nothing, or the data slots stored into the addressed block (R86). -/
theorem commit_mem (bk : Bank) (j : Nat) :
    (commit bk j s).mem bk = s.mem bk ∨ (commit bk j s).mem bk = (storeData bk s).mem bk := by
  unfold commit
  split
  · right
    exact autoIncrement_proj _ (fun t => t.mem bk) (fun t i v => setReg_mem t i v bk) bk
  · exact .inl rfl

/-! ### Retime -/

/-- What a retime can do: a partial scanout of the rows passed or none, then a reconfiguration or none (R314). -/
theorem retime_cases :
    retime s = retimeScanout s ∨
      ((retimeScanout s).timing.acceptable = true ∧
        retime s = reconfigure (retimeScanout s).timing (retimeScanout s)) := by
  by_cases h : (retimeScanout s).timing.acceptable = true
  · exact .inr ⟨h, by simp only [retime, h, if_true]⟩
  · exact .inl (by simp only [retime, h]; rfl)

theorem retimeScanout_slotFrame : (retimeScanout s).slotFrame = s.slotFrame := by
  unfold retimeScanout
  split <;> rfl

theorem retime_slotFrame : (retime s).slotFrame = s.slotFrame := by
  rcases retime_cases s with h | ⟨-, h⟩ <;> rw [h]
  · exact retimeScanout_slotFrame s
  · exact retimeScanout_slotFrame s

@[simp] theorem retimeScanout_regs : (retimeScanout s).regs = s.regs := by
  unfold retimeScanout
  split <;> rfl

@[simp] theorem retimeScanout_bankA : (retimeScanout s).bankA = s.bankA := by
  unfold retimeScanout
  split <;> rfl

@[simp] theorem retimeScanout_bankB : (retimeScanout s).bankB = s.bankB := by
  unfold retimeScanout
  split <;> rfl

@[simp] theorem retimeScanout_disp : (retimeScanout s).disp = s.disp := by
  unfold retimeScanout
  split <;> rfl

@[simp] theorem retimeScanout_cfg : (retimeScanout s).cfg = s.cfg := by
  unfold retimeScanout
  split <;> rfl

@[simp] theorem retimeScanout_timing : (retimeScanout s).timing = s.timing := by
  simp [State.timing, State.reg]

@[simp] theorem retime_regs : (retime s).regs = s.regs := by
  rcases retime_cases s with h | ⟨-, h⟩ <;> rw [h] <;> simp [reconfigure]

@[simp] theorem retime_bankA : (retime s).bankA = s.bankA := by
  rcases retime_cases s with h | ⟨-, h⟩ <;> rw [h] <;> simp [reconfigure]

@[simp] theorem retime_bankB : (retime s).bankB = s.bankB := by
  rcases retime_cases s with h | ⟨-, h⟩ <;> rw [h] <;> simp [reconfigure]

/-! ### The side effect of a slot -/

/-- Every side effect is one of: none, a latch, a commit, a retime (R142). -/
theorem sideEffect_cases (slot : SlotNo) :
    sideEffect slot s = s ∨ (∃ bk, slot = addrSlot s.cfg bk ∧ sideEffect slot s = latch bk s) ∨
      (∃ bk j, slot ∈ dataSlots s.cfg bk ∧ sideEffect slot s = commit bk j s) ∨
      (slot ∈ [s.cfg.slot.tTotal, s.cfg.slot.tHvis, s.cfg.slot.tVvis] ∧ sideEffect slot s = retime s) := by
  generalize ht : sideEffect slot s = t
  unfold sideEffect at ht
  by_cases h1 : slot = s.cfg.slot.fifo
  · rw [if_pos h1] at ht
    subst ht
    exact .inl rfl
  rw [if_neg h1] at ht
  by_cases h2 : slot = s.cfg.slot.iaAddr
  · rw [if_pos h2] at ht
    subst ht
    exact .inr (.inl ⟨.bankA, h2, rfl⟩)
  rw [if_neg h2] at ht
  by_cases h3 : slot = s.cfg.slot.ibAddr
  · rw [if_pos h3] at ht
    subst ht
    exact .inr (.inl ⟨.bankB, h3, rfl⟩)
  rw [if_neg h3] at ht
  by_cases h4 : slot = s.cfg.slot.iaD0
  · rw [if_pos h4] at ht
    subst ht
    exact .inr (.inr (.inl ⟨.bankA, 0, by simp [dataSlots, h4], rfl⟩))
  rw [if_neg h4] at ht
  by_cases h5 : slot = s.cfg.slot.iaD1
  · rw [if_pos h5] at ht
    subst ht
    exact .inr (.inr (.inl ⟨.bankA, 1, by simp [dataSlots, h5], rfl⟩))
  rw [if_neg h5] at ht
  by_cases h6 : slot = s.cfg.slot.ibD0
  · rw [if_pos h6] at ht
    subst ht
    exact .inr (.inr (.inl ⟨.bankB, 0, by simp [dataSlots, h6], rfl⟩))
  rw [if_neg h6] at ht
  by_cases h7 : slot = s.cfg.slot.ibD1
  · rw [if_pos h7] at ht
    subst ht
    exact .inr (.inr (.inl ⟨.bankB, 1, by simp [dataSlots, h7], rfl⟩))
  rw [if_neg h7] at ht
  by_cases h8 : slot = s.cfg.slot.ibD2
  · rw [if_pos h8] at ht
    subst ht
    exact .inr (.inr (.inl ⟨.bankB, 2, by simp [dataSlots, h8], rfl⟩))
  rw [if_neg h8] at ht
  by_cases h9 : slot = s.cfg.slot.tTotal
  · rw [if_pos h9] at ht
    subst ht
    exact .inr (.inr (.inr ⟨by simp [h9], rfl⟩))
  rw [if_neg h9] at ht
  by_cases h10 : slot = s.cfg.slot.tHvis
  · rw [if_pos h10] at ht
    subst ht
    exact .inr (.inr (.inr ⟨by simp [h10], rfl⟩))
  rw [if_neg h10] at ht
  by_cases h11 : slot = s.cfg.slot.tVvis
  · rw [if_pos h11] at ht
    subst ht
    exact .inr (.inr (.inr ⟨by simp [h11], rfl⟩))
  rw [if_neg h11] at ht
  exact .inl ht.symm

/-- A slot with no side effect: the store is all (R22). -/
theorem sideEffect_passive {slot : SlotNo} (h : slot ∉ s.cfg.slot.active) : sideEffect slot s = s := by
  simp only [Slots.active, List.mem_cons, List.not_mem_nil, or_false, not_or] at h
  obtain ⟨h1, h2, h3, h4, h5, h6, h7, h8, h9, h10, h11⟩ := h
  unfold sideEffect
  rw [if_neg h1, if_neg h2, if_neg h3, if_neg h4, if_neg h5, if_neg h6, if_neg h7, if_neg h8, if_neg h9, if_neg h10,
    if_neg h11]

theorem setReg_slotFrame (i : SlotNo) (v : Word) : (s.setReg i v).slotFrame = s.slotFrame := rfl

theorem setMem_slotFrame (bk : Bank) (m : Memory) : (s.setMem bk m).slotFrame = s.slotFrame := by
  cases bk <;> rfl

theorem sideEffect_slotFrame (slot : SlotNo) : (sideEffect slot s).slotFrame = s.slotFrame := by
  rcases sideEffect_cases s slot with h | ⟨bk, -, h⟩ | ⟨bk, j, -, h⟩ | ⟨-, h⟩ <;> rw [h]
  · exact latch_proj s State.slotFrame (fun t i v => setReg_slotFrame t i v) bk
  · exact commit_proj s State.slotFrame (fun t i v => setReg_slotFrame t i v) bk
      (fun t m => setMem_slotFrame t bk m) j
  · exact retime_slotFrame s

theorem storeSlot_slotFrame (slot : SlotNo) (v : Word) : (storeSlot slot v s).slotFrame = s.slotFrame := by
  unfold storeSlot
  rw [sideEffect_slotFrame, setReg_slotFrame]

theorem storeHalf_slotFrame (high : Bool) (slot : SlotNo) (h : Half) :
    (storeHalf high slot h s).slotFrame = s.slotFrame := by
  unfold storeHalf
  cases high
  · exact (sideEffect_slotFrame _ slot).trans rfl
  · rfl

/-- A slot write makes the log longer or leaves it (R33). -/
theorem sideEffect_log (slot : SlotNo) : s.log <+: (sideEffect slot s).log := by
  rcases sideEffect_cases s slot with h | ⟨bk, -, h⟩ | ⟨bk, j, -, h⟩ | ⟨-, h⟩ <;> rw [h]
  · exact (latch_proj s State.log (fun _ _ _ => rfl) bk) ▸ List.prefix_refl _
  · exact (commit_proj s State.log (fun _ _ _ => rfl) bk (fun t m => by cases bk <;> rfl) j) ▸ List.prefix_refl _
  · have h1 : s.log <+: (retimeScanout s).log := by
      unfold retimeScanout
      split
      · exact List.prefix_append _ _
      · exact List.prefix_refl _
    rcases retime_cases s with h | ⟨-, h⟩ <;> rw [h]
    · exact h1
    · exact h1.trans (List.prefix_append _ _)

/-! ### Field by field -/

@[simp] theorem sideEffect_cfg (slot : SlotNo) : (sideEffect slot s).cfg = s.cfg :=
  congrArg SlotFrame.cfg (sideEffect_slotFrame s slot)
@[simp] theorem sideEffect_pTex (slot : SlotNo) : (sideEffect slot s).pTex = s.pTex :=
  congrArg SlotFrame.pTex (sideEffect_slotFrame s slot)
@[simp] theorem sideEffect_pPal (slot : SlotNo) : (sideEffect slot s).pPal = s.pPal :=
  congrArg SlotFrame.pPal (sideEffect_slotFrame s slot)
@[simp] theorem sideEffect_pQsize (slot : SlotNo) : (sideEffect slot s).pQsize = s.pQsize :=
  congrArg SlotFrame.pQsize (sideEffect_slotFrame s slot)
@[simp] theorem sideEffect_matFix (slot : SlotNo) : (sideEffect slot s).matFix = s.matFix :=
  congrArg SlotFrame.matFix (sideEffect_slotFrame s slot)
@[simp] theorem sideEffect_matFlt (slot : SlotNo) : (sideEffect slot s).matFlt = s.matFlt :=
  congrArg SlotFrame.matFlt (sideEffect_slotFrame s slot)
@[simp] theorem sideEffect_trans (slot : SlotNo) : (sideEffect slot s).trans = s.trans :=
  congrArg SlotFrame.trans (sideEffect_slotFrame s slot)
@[simp] theorem sideEffect_light (slot : SlotNo) : (sideEffect slot s).light = s.light :=
  congrArg SlotFrame.light (sideEffect_slotFrame s slot)
@[simp] theorem sideEffect_aux (slot : SlotNo) : (sideEffect slot s).aux = s.aux :=
  congrArg SlotFrame.aux (sideEffect_slotFrame s slot)
@[simp] theorem sideEffect_fifo (slot : SlotNo) : (sideEffect slot s).fifo = s.fifo :=
  congrArg SlotFrame.fifo (sideEffect_slotFrame s slot)
@[simp] theorem sideEffect_replies (slot : SlotNo) : (sideEffect slot s).replies = s.replies :=
  congrArg SlotFrame.replies (sideEffect_slotFrame s slot)
@[simp] theorem sideEffect_walk (slot : SlotNo) : (sideEffect slot s).walk = s.walk :=
  congrArg SlotFrame.walk (sideEffect_slotFrame s slot)
@[simp] theorem sideEffect_inputs (slot : SlotNo) : (sideEffect slot s).inputs = s.inputs :=
  congrArg SlotFrame.inputs (sideEffect_slotFrame s slot)

@[simp] theorem storeSlot_cfg (slot : SlotNo) (v : Word) : (storeSlot slot v s).cfg = s.cfg :=
  congrArg SlotFrame.cfg (storeSlot_slotFrame s slot v)
@[simp] theorem storeSlot_pTex (slot : SlotNo) (v : Word) : (storeSlot slot v s).pTex = s.pTex :=
  congrArg SlotFrame.pTex (storeSlot_slotFrame s slot v)
@[simp] theorem storeSlot_pPal (slot : SlotNo) (v : Word) : (storeSlot slot v s).pPal = s.pPal :=
  congrArg SlotFrame.pPal (storeSlot_slotFrame s slot v)
@[simp] theorem storeSlot_pQsize (slot : SlotNo) (v : Word) : (storeSlot slot v s).pQsize = s.pQsize :=
  congrArg SlotFrame.pQsize (storeSlot_slotFrame s slot v)
@[simp] theorem storeSlot_matFix (slot : SlotNo) (v : Word) : (storeSlot slot v s).matFix = s.matFix :=
  congrArg SlotFrame.matFix (storeSlot_slotFrame s slot v)
@[simp] theorem storeSlot_matFlt (slot : SlotNo) (v : Word) : (storeSlot slot v s).matFlt = s.matFlt :=
  congrArg SlotFrame.matFlt (storeSlot_slotFrame s slot v)
@[simp] theorem storeSlot_trans (slot : SlotNo) (v : Word) : (storeSlot slot v s).trans = s.trans :=
  congrArg SlotFrame.trans (storeSlot_slotFrame s slot v)
@[simp] theorem storeSlot_light (slot : SlotNo) (v : Word) : (storeSlot slot v s).light = s.light :=
  congrArg SlotFrame.light (storeSlot_slotFrame s slot v)
@[simp] theorem storeSlot_aux (slot : SlotNo) (v : Word) : (storeSlot slot v s).aux = s.aux :=
  congrArg SlotFrame.aux (storeSlot_slotFrame s slot v)
@[simp] theorem storeSlot_fifo (slot : SlotNo) (v : Word) : (storeSlot slot v s).fifo = s.fifo :=
  congrArg SlotFrame.fifo (storeSlot_slotFrame s slot v)
@[simp] theorem storeSlot_replies (slot : SlotNo) (v : Word) : (storeSlot slot v s).replies = s.replies :=
  congrArg SlotFrame.replies (storeSlot_slotFrame s slot v)
@[simp] theorem storeSlot_walk (slot : SlotNo) (v : Word) : (storeSlot slot v s).walk = s.walk :=
  congrArg SlotFrame.walk (storeSlot_slotFrame s slot v)
@[simp] theorem storeSlot_inputs (slot : SlotNo) (v : Word) : (storeSlot slot v s).inputs = s.inputs :=
  congrArg SlotFrame.inputs (storeSlot_slotFrame s slot v)

@[simp] theorem storeHalf_cfg (high : Bool) (slot : SlotNo) (h : Half) : (storeHalf high slot h s).cfg = s.cfg :=
  congrArg SlotFrame.cfg (storeHalf_slotFrame s high slot h)
@[simp] theorem storeHalf_pTex (high : Bool) (slot : SlotNo) (h : Half) : (storeHalf high slot h s).pTex = s.pTex :=
  congrArg SlotFrame.pTex (storeHalf_slotFrame s high slot h)
@[simp] theorem storeHalf_pPal (high : Bool) (slot : SlotNo) (h : Half) : (storeHalf high slot h s).pPal = s.pPal :=
  congrArg SlotFrame.pPal (storeHalf_slotFrame s high slot h)
@[simp] theorem storeHalf_pQsize (high : Bool) (slot : SlotNo) (h : Half) : (storeHalf high slot h s).pQsize = s.pQsize :=
  congrArg SlotFrame.pQsize (storeHalf_slotFrame s high slot h)
@[simp] theorem storeHalf_matFix (high : Bool) (slot : SlotNo) (h : Half) : (storeHalf high slot h s).matFix = s.matFix :=
  congrArg SlotFrame.matFix (storeHalf_slotFrame s high slot h)
@[simp] theorem storeHalf_matFlt (high : Bool) (slot : SlotNo) (h : Half) : (storeHalf high slot h s).matFlt = s.matFlt :=
  congrArg SlotFrame.matFlt (storeHalf_slotFrame s high slot h)
@[simp] theorem storeHalf_trans (high : Bool) (slot : SlotNo) (h : Half) : (storeHalf high slot h s).trans = s.trans :=
  congrArg SlotFrame.trans (storeHalf_slotFrame s high slot h)
@[simp] theorem storeHalf_light (high : Bool) (slot : SlotNo) (h : Half) : (storeHalf high slot h s).light = s.light :=
  congrArg SlotFrame.light (storeHalf_slotFrame s high slot h)
@[simp] theorem storeHalf_aux (high : Bool) (slot : SlotNo) (h : Half) : (storeHalf high slot h s).aux = s.aux :=
  congrArg SlotFrame.aux (storeHalf_slotFrame s high slot h)
@[simp] theorem storeHalf_fifo (high : Bool) (slot : SlotNo) (h : Half) : (storeHalf high slot h s).fifo = s.fifo :=
  congrArg SlotFrame.fifo (storeHalf_slotFrame s high slot h)
@[simp] theorem storeHalf_replies (high : Bool) (slot : SlotNo) (h : Half) : (storeHalf high slot h s).replies = s.replies :=
  congrArg SlotFrame.replies (storeHalf_slotFrame s high slot h)
@[simp] theorem storeHalf_walk (high : Bool) (slot : SlotNo) (h : Half) : (storeHalf high slot h s).walk = s.walk :=
  congrArg SlotFrame.walk (storeHalf_slotFrame s high slot h)
@[simp] theorem storeHalf_inputs (high : Bool) (slot : SlotNo) (h : Half) : (storeHalf high slot h s).inputs = s.inputs :=
  congrArg SlotFrame.inputs (storeHalf_slotFrame s high slot h)

@[simp] theorem retime_cfg : (retime s).cfg = s.cfg :=
  congrArg SlotFrame.cfg (retime_slotFrame s)
@[simp] theorem retime_pTex : (retime s).pTex = s.pTex :=
  congrArg SlotFrame.pTex (retime_slotFrame s)
@[simp] theorem retime_pPal : (retime s).pPal = s.pPal :=
  congrArg SlotFrame.pPal (retime_slotFrame s)
@[simp] theorem retime_pQsize : (retime s).pQsize = s.pQsize :=
  congrArg SlotFrame.pQsize (retime_slotFrame s)
@[simp] theorem retime_matFix : (retime s).matFix = s.matFix :=
  congrArg SlotFrame.matFix (retime_slotFrame s)
@[simp] theorem retime_matFlt : (retime s).matFlt = s.matFlt :=
  congrArg SlotFrame.matFlt (retime_slotFrame s)
@[simp] theorem retime_trans : (retime s).trans = s.trans :=
  congrArg SlotFrame.trans (retime_slotFrame s)
@[simp] theorem retime_light : (retime s).light = s.light :=
  congrArg SlotFrame.light (retime_slotFrame s)
@[simp] theorem retime_aux : (retime s).aux = s.aux :=
  congrArg SlotFrame.aux (retime_slotFrame s)
@[simp] theorem retime_fifo : (retime s).fifo = s.fifo :=
  congrArg SlotFrame.fifo (retime_slotFrame s)
@[simp] theorem retime_replies : (retime s).replies = s.replies :=
  congrArg SlotFrame.replies (retime_slotFrame s)
@[simp] theorem retime_walk : (retime s).walk = s.walk :=
  congrArg SlotFrame.walk (retime_slotFrame s)
@[simp] theorem retime_inputs : (retime s).inputs = s.inputs :=
  congrArg SlotFrame.inputs (retime_slotFrame s)

end Sys2Proof.Machine
end

