-- ==== Sys2Proof/Laws/Display.lean ====
section
/-! SUPPORT. What the scanout controller can do: a scanout writes the rows it names into the bitmap and nothing else, and
the display part of the invariant (R42 (c), the form and the bounds of the bitmap) is kept by a line, by a retime and by
everything else. -/

namespace Sys2Proof.Machine

/-! ### Keys of the bitmap -/

theorem outKey_inj {y x y' x' : Nat} (hx : x < 65536) (hx' : x' < 65536) :
    outKey y x = outKey y' x' ↔ y = y' ∧ x = x' := by
  unfold outKey
  omega

theorem outKey_mod {y x : Nat} (hx : x < 65536) : outKey y x % 65536 = x := by
  unfold outKey
  omega

theorem outKey_div {y x : Nat} (hx : x < 65536) : outKey y x / 65536 = y := by
  unfold outKey
  omega

/-! ### Scanout -/

theorem rowFold_get (o : Cells Color) (v : Nat → Color) (n y : Nat) (hn : n ≤ 65535) {y' x' : Nat} (hx' : x' < 65536) :
    Cells.get ((List.range n).foldl (fun o x => Cells.put o (outKey y x) (v x)) o) (outKey y' x') =
      if y' = y ∧ x' < n then some (v x') else o.get (outKey y' x') := by
  induction n with
  | zero => simp
  | succ n ih =>
    rw [List.range_succ, List.foldl_append]
    simp only [List.foldl_cons, List.foldl_nil]
    rw [Cells.get_put, ih (by omega)]
    by_cases h : outKey y' x' = outKey y n
    · obtain ⟨rfl, rfl⟩ := (outKey_inj hx' (by omega)).1 h
      simp
    · have h' : ¬ (y' = y ∧ x' = n) := fun e => h ((outKey_inj hx' (by omega)).2 e)
      rw [if_neg h]
      by_cases h1 : y' = y ∧ x' < n
      · rw [if_pos h1, if_pos ⟨h1.1, by omega⟩]
      · rw [if_neg h1, if_neg]
        rintro ⟨e, hlt⟩
        rcases Nat.lt_succ_iff_lt_or_eq.1 hlt with h2 | h2
        · exact h1 ⟨e, h2⟩
        · exact h' ⟨e, h2⟩

/-- What a scanout's copy leaves in each pixel of the bitmap (R311). -/
theorem copyRows_get (c : Cfg) (m : Memory) (dbase visW y0 y1 : Nat) (o : Cells Color) (hw : visW ≤ 65535)
    {y x : Nat} (hx : x < 65536) :
    (copyRows c m dbase visW y0 y1 o).get (outKey y x) =
      if y0 ≤ y ∧ y < y1 ∧ x < visW then some (pixColor c m (pixelBlock c dbase x y)) else o.get (outKey y x) := by
  have key : ∀ n, Cells.get ((List.range n).foldl (fun o dy => (List.range visW).foldl
        (fun o x => Cells.put o (outKey (y0 + dy) x) (pixColor c m (pixelBlock c dbase x (y0 + dy)))) o) o) (outKey y x) =
      if y0 ≤ y ∧ y < y0 + n ∧ x < visW then some (pixColor c m (pixelBlock c dbase x y)) else o.get (outKey y x) := by
    intro n
    induction n with
    | zero =>
      rw [if_neg (by omega)]
      rfl
    | succ n ih =>
      rw [List.range_succ, List.foldl_append]
      simp only [List.foldl_cons, List.foldl_nil]
      rw [rowFold_get _ (fun x => pixColor c m (pixelBlock c dbase x (y0 + n))) visW (y0 + n) hw hx, ih]
      by_cases h : y = y0 + n ∧ x < visW
      · obtain ⟨rfl, h2⟩ := h
        rw [if_pos ⟨rfl, h2⟩, if_pos (by omega)]
      · rw [if_neg h]
        by_cases h1 : y0 ≤ y ∧ y < y0 + n ∧ x < visW
        · rw [if_pos h1, if_pos (by omega)]
        · rw [if_neg h1, if_neg (by omega)]
  have := key (y1 - y0)
  unfold copyRows forRect
  rw [this]
  by_cases h : y0 ≤ y ∧ y < y1 ∧ x < visW
  · rw [if_pos h, if_pos (by omega)]
  · rw [if_neg h, if_neg (by omega)]

/-- A stored colour is in the generation's format (R35, R83). -/
theorem storedColour_pixColor (c : Cfg) (m : Memory) (blk : Nat) :
    storedColour c.gen (pixColor c m blk) = pixColor c m blk := by
  unfold storedColour pixColor
  cases c.gen
  · simp only [lo16_setWidth]
  · rfl

/-- The pixels a copy writes lie in the rows and columns it names and are in the generation's format; the form is kept. -/
theorem copyRows_ok (c : Cfg) (m : Memory) (dbase : Nat) {visW y0 y1 h : Nat} {o : Cells Color}
    (hw : visW ≤ 65535) (hy : y1 ≤ h) (ho : Cells.Wf o ∧ ∀ p ∈ o, p.1 % 65536 < visW ∧ p.1 / 65536 < h ∧ storedColour c.gen p.2 = p.2) :
    Cells.Wf (copyRows c m dbase visW y0 y1 o) ∧
      ∀ p ∈ copyRows c m dbase visW y0 y1 o, p.1 % 65536 < visW ∧ p.1 / 65536 < h ∧ storedColour c.gen p.2 = p.2 := by
  unfold copyRows forRect
  have row : ∀ n, n ≤ y1 - y0 → ∀ k, k ≤ visW → ∀ o : Cells Color,
      (Cells.Wf o ∧ ∀ p ∈ o, p.1 % 65536 < visW ∧ p.1 / 65536 < h ∧ storedColour c.gen p.2 = p.2) → n < y1 - y0 →
      (fun o => Cells.Wf o ∧ ∀ p ∈ o, p.1 % 65536 < visW ∧ p.1 / 65536 < h ∧ storedColour c.gen p.2 = p.2) ((List.range k).foldl
        (fun o x => Cells.put o (outKey (y0 + n) x) (pixColor c m (pixelBlock c dbase x (y0 + n)))) o) := by
    intro n _ k hk o ho hn
    induction k with
    | zero => exact ho
    | succ k ih =>
      rw [List.range_succ, List.foldl_append]
      obtain ⟨h1, h2⟩ := ih (by omega)
      refine ⟨Cells.put_wf h1 _ _, ?_⟩
      intro p hp
      rcases Cells.mem_put hp with rfl | hp
      · simp only [outKey_mod (show k < 65536 by omega), outKey_div (show k < 65536 by omega)]
        exact ⟨by omega, by omega, storedColour_pixColor c m _⟩
      · exact h2 p hp
  have all : ∀ n, n ≤ y1 - y0 →
      (fun o => Cells.Wf o ∧ ∀ p ∈ o, p.1 % 65536 < visW ∧ p.1 / 65536 < h ∧ storedColour c.gen p.2 = p.2) ((List.range n).foldl
        (fun o dy => (List.range visW).foldl
          (fun o x => Cells.put o (outKey (y0 + dy) x) (pixColor c m (pixelBlock c dbase x (y0 + dy)))) o) o) := by
    intro n hn
    induction n with
    | zero => exact ho
    | succ n ih =>
      rw [List.range_succ, List.foldl_append]
      exact row n (by omega) visW (Nat.le_refl _) _ (ih (by omega)) (by omega)
  exact all _ (Nat.le_refl _)

/-! ### The display part of the invariant -/

/-- The display part of the invariant: R42 (c), the form and the bounds of the bitmap, its width. -/
structure State.displayInv (s : State) : Prop where
  display : s.displayOk
  out_ok : s.outOk
  visW_le : s.disp.visW ≤ 65535

/-- It depends on the display fields and the configuration only. -/
theorem displayInv_congr {s t : State} (h : s.displayInv) (h1 : t.disp = s.disp) (h2 : t.beamRow = s.beamRow)
    (h3 : t.scanRow = s.scanRow) (h4 : t.out = s.out) (h5 : t.cfg = s.cfg) : t.displayInv := by
  obtain ⟨⟨a, b, c⟩, ⟨d, e, g⟩, f⟩ := h
  constructor
  · constructor
    · rw [h1, h3]
      exact a
    · rw [h1, h2]
      exact b
    · rw [h1]
      exact c
  · constructor
    · rw [h4]
      exact d
    · rw [h1, h4]
      exact e
    · rw [h4, h5]
      exact g
  · rw [h1]
    exact f

/-- A scanout of visible rows keeps the bitmap's form and bounds. -/
theorem scanout_outOk {s : State} (h : s.displayInv) (y0 : Nat) {y1 : Nat} (hy : y1 ≤ s.disp.visH) (b : Bool) :
    (scanout y0 y1 b s).outOk := by
  obtain ⟨h1, h2⟩ := copyRows_ok s.cfg s.bankB s.dbase (y0 := y0) h.visW_le hy
    ⟨h.out_ok.wf, fun p hp => ⟨(h.out_ok.inside p hp).1, (h.out_ok.inside p hp).2, h.out_ok.format p hp⟩⟩
  exact ⟨h1, fun p hp => ⟨(h2 p hp).1, (h2 p hp).2.1⟩, fun p hp => (h2 p hp).2.2⟩

theorem frameEnd_displayInv {s : State} (h : s.displayInv) : (frameEnd s).displayInv where
  display :=
    { scan_le := Nat.zero_le _
      beam_lt := h.display.beam_lt
      acceptable := h.display.acceptable }
  out_ok :=
    { wf := (scanout_outOk h s.scanRow (Nat.le_refl _) false).wf
      inside := (scanout_outOk h s.scanRow (Nat.le_refl _) false).inside
      format := (scanout_outOk h s.scanRow (Nat.le_refl _) false).format }
  visW_le := h.visW_le

theorem hLine_displayInv {s : State} (h : s.displayInv) : (hLine s).displayInv := by
  unfold hLine
  split
  · exact h
  · rename_i hv
    have hv : s.disp.valid = true := by simpa using hv
    split
    · rename_i hlt
      exact ⟨⟨h.display.scan_le, fun _ => hlt, h.display.acceptable⟩, ⟨h.out_ok.wf, h.out_ok.inside, h.out_ok.format⟩, h.visW_le⟩
    · have hf := frameEnd_displayInv h
      refine ⟨⟨hf.display.scan_le, fun _ => ?_, hf.display.acceptable⟩, ⟨hf.out_ok.wf, hf.out_ok.inside, hf.out_ok.format⟩, hf.visW_le⟩
      have := h.display.beam_lt hv
      simp only [frameEnd, scanout, State.logEvent]
      omega

theorem retimeScanout_displayInv {s : State} (h : s.displayInv) : (retimeScanout s).displayInv := by
  unfold retimeScanout
  split
  · have hle : s.rowsPassed ≤ s.disp.visH := Nat.min_le_right _ _
    have ho := scanout_outOk h s.scanRow hle true
    exact ⟨⟨hle, h.display.beam_lt, h.display.acceptable⟩, ⟨ho.wf, ho.inside, ho.format⟩, h.visW_le⟩
  · exact h

/-- The value of a field is below two to its width. -/
theorem nat_lt (f : BitField) (w : Word) : f.nat w < 2 ^ f.width := (w.extractLsb' f.lo f.width).isLt

/-- A timing value has at most 16 bits, so the window is at most 65535 pixels wide (R36). -/
theorem timing_visW_le {s : State} (h : s.cfg.Wf) : s.timing.visW ≤ 65535 := by
  have h1 := nat_lt s.cfg.reg.xe (s.reg s.cfg.slot.tHvis)
  have h2 : 2 ^ s.cfg.reg.xe.width ≤ 2 ^ 16 :=
    Nat.pow_le_pow_right (by omega) (h.reg_wf.timing_le _ (by simp))
  simp only [State.timing, Disp.visW, if_true]
  omega

theorem reconfigure_displayInv {s : State} {d : Disp} (h : s.displayInv) (hd : d.acceptable = true)
    (hw : d.visW ≤ 65535) : (reconfigure d s).displayInv where
  display :=
    { scan_le := Nat.min_le_right _ _
      beam_lt := fun _ => by
        simp only [Disp.acceptable, decide_eq_true_eq] at hd
        exact Nat.mod_lt _ hd.2.1
      acceptable := fun _ => hd }
  out_ok :=
    { wf := Cells.filter_wf h.out_ok.wf _
      inside := fun p hp => by
        have := (List.mem_filter.1 hp).2
        show p.1 % 65536 < d.visW ∧ p.1 / 65536 < d.visH
        simpa using this
      format := fun p hp => h.out_ok.format p (List.mem_filter.1 hp).1 }
  visW_le := hw

theorem retime_displayInv {s : State} (hc : s.cfg.Wf) (h : s.displayInv) : (retime s).displayInv := by
  have hw : (retimeScanout s).cfg.Wf := by
    rw [retimeScanout_cfg]
    exact hc
  rcases retime_cases s with e | ⟨ha, e⟩ <;> rw [e]
  · exact retimeScanout_displayInv h
  · exact reconfigure_displayInv (retimeScanout_displayInv h) ha (timing_visW_le hw)

end Sys2Proof.Machine
end

