-- ==== Sys2Proof/Laws/Draw.lean ====
section
/-! SUPPORT. What drawing can do to bank B (R272): every drawing operation is a sequence of pixel writes to visible
blocks, so it keeps the canonical form, stays inside the bank, and touches colour and depth bytes of visible pixels
only. One induction, `forRect_induct`, carries them all. -/

namespace Sys2Proof.Machine

variable {σ : Type}

/-! ### Loops -/

theorem foldl_range_induct {P : σ → Prop} {f : σ → Nat → σ} {n : Nat} {m : σ} (hm : P m)
    (hf : ∀ m x, x < n → P m → P (f m x)) : P ((List.range n).foldl f m) := by
  induction n with
  | zero => exact hm
  | succ n ih =>
    rw [List.range_succ, List.foldl_append]
    exact hf _ n (Nat.lt_succ_self n) (ih (fun m x hx => hf m x (Nat.lt_succ_of_lt hx)))

/-- A property that every turn of a rectangle's loop keeps holds after the loop. -/
theorem forRect_induct {P : σ → Prop} {w h : Nat} {f : σ → Nat → Nat → σ} {m : σ} (hm : P m)
    (hf : ∀ m x y, x < w → y < h → P m → P (f m x y)) : P (forRect w h f m) :=
  foldl_range_induct hm (fun _ y hy hm => foldl_range_induct hm (fun m x hx hm => hf m x y hx hy hm))

/-- An empty rectangle's loop does nothing. -/
@[simp] theorem forRect_zero_width (h : Nat) (f : σ → Nat → Nat → σ) (m : σ) : forRect 0 h f m = m :=
  forRect_induct (P := fun x => x = m) rfl (fun _ _ _ hx => absurd hx (Nat.not_lt_zero _))

@[simp] theorem forRect_zero_height (w : Nat) (f : σ → Nat → Nat → σ) (m : σ) : forRect w 0 f m = m := rfl

/-! ### Pixel writes -/

/-- `m'` comes from `m` by a sequence of pixel writes to blocks that satisfy `V`. -/
inductive PixelWrites (c : Cfg) (V : Nat → Prop) : Memory → Memory → Prop where
  | refl (m : Memory) : PixelWrites c V m m
  | write {m m' : Memory} {blk : Nat} (v : Color) (d : Half) (h : PixelWrites c V m m') (hb : V blk) :
      PixelWrites c V m (setPixel c m' blk v d)

variable {c : Cfg} {V : Nat → Prop} {m m' m'' : Memory}

theorem PixelWrites.trans (h : PixelWrites c V m m') (h' : PixelWrites c V m' m'') : PixelWrites c V m m'' := by
  induction h' with
  | refl => exact h
  | write v d _ hb ih => exact .write v d ih hb

theorem PixelWrites.wf (h : PixelWrites c V m m') (hm : Memory.wf m) : Memory.wf m' := by
  induction h with
  | refl => exact hm
  | write v d _ _ ih => exact setPixel_wf ih _ v d

/-- A byte outside the colour and depth of every block written is as it was. -/
theorem PixelWrites.get (h : PixelWrites c V m m') {a : Nat} (ha : ∀ blk, V blk → a ∉ pixelAddrs c blk) :
    m'.get a = m.get a := by
  induction h with
  | refl => rfl
  | write v d _ hb ih => rw [setPixel_get_ne _ v d (ha _ hb), ih]

/-! ### Keys stay inside the bank -/

theorem byteAddr_lt {bk : Bank} {blk p : Nat} (hb : blk < c.height bk * c.width bk)
    (hp : p < c.blockBytes bk) : byteAddr c bk blk p < bankBytes c bk := by
  have := mul_add_lt hb hp
  simpa [byteAddr, bankBytes] using this

theorem setByteAt_ok {bk : Bank} (hm : bankOk c bk m) {blk p : Nat} (v : Byte)
    (hb : blk < c.height bk * c.width bk) (hp : p < c.blockBytes bk) : bankOk c bk (setByteAt c bk m blk p v) :=
  ⟨setByteAt_wf hm.wf _ _ _, put_keys_lt hm.inside (byteAddr_lt hb hp)⟩

theorem setLane16_ok (h : c.Wf) {bk : Bank} (hm : bankOk c bk m) {blk : Nat} (k : Nat) (v : Half)
    (hb : blk < c.height bk * c.width bk) : bankOk c bk (setLane16 c bk m blk k v) :=
  setByteAt_ok (setByteAt_ok hm _ hb (pos16_lt h bk k).1) _ hb (pos16_lt h bk k).2

theorem setLane32_ok (h : c.Wf) {bk : Bank} (hm : bankOk c bk m) {blk : Nat} (k : Nat) (v : Word)
    (hb : blk < c.height bk * c.width bk) : bankOk c bk (setLane32 c bk m blk k v) := by
  obtain ⟨h1, h2, h3, h4⟩ := pos32_lt h bk k
  exact setByteAt_ok (setByteAt_ok (setByteAt_ok (setByteAt_ok hm _ hb h1) _ hb h2) _ hb h3) _ hb h4

theorem setPixel_ok (h : c.Wf) (hm : bankOk c .bankB m) {blk : Nat} (v : Color) (d : Half)
    (hb : blk < c.height .bankB * c.width .bankB) : bankOk c .bankB (setPixel c m blk v d) := by
  unfold setPixel setPixDepth setPixColor
  cases c.gen
  · exact setLane16_ok h (setLane16_ok h hm _ _ hb) _ _ hb
  · exact setLane16_ok h (setLane32_ok h hm _ _ hb) _ _ hb

theorem pixelBlock_lt (h : c.Wf) (base x y : Nat) : pixelBlock c base x y < c.height .bankB * c.width .bankB :=
  mul_add_lt (Nat.mod_lt _ (h.height_pos .bankB)) (Nat.mod_lt _ (h.width_pos .bankB))

theorem PixelWrites.ok (hc : c.Wf) (hV : ∀ blk, V blk → blk < c.height .bankB * c.width .bankB)
    (h : PixelWrites c V m m') (hm : bankOk c .bankB m) : bankOk c .bankB m' := by
  induction h with
  | refl => exact hm
  | write v d _ hb ih => exact setPixel_ok hc ih v d (hV _ hb)

/-! ### The drawing operations are pixel writes -/

/-- The visible blocks of a polygon's rectangle. -/
def Poly.visible (p : Poly) (blk : Nat) : Prop :=
  ∃ x y, x < p.visW ∧ y < p.visH ∧ blk = pixelBlock p.cfg p.rbase x y

/-- A pixel operation writes its pixel once or not at all (R270). -/
theorem pixelOp_cases (p : Poly) (blk : Nat) (z u v i : Int) (m : Memory) :
    p.pixelOp blk z u v i m = m ∨ ∃ col d, p.pixelOp blk z u v i m = setPixel p.cfg m blk col d := by
  unfold Poly.pixelOp
  split
  · exact .inr ⟨_, _, rfl⟩
  · split
    · split
      · exact .inr ⟨_, _, rfl⟩
      · exact .inl rfl
    · exact .inl rfl

theorem trianglePixel_cases (p : Poly) (a b c : ScreenVertex) (area : Int) (m : Memory) (px py : Nat) :
    p.trianglePixel a b c area m px py = m ∨
      ∃ col d, p.trianglePixel a b c area m px py = setPixel p.cfg m (pixelBlock p.cfg p.rbase px py) col d := by
  unfold Poly.trianglePixel
  simp only []
  split
  · exact pixelOp_cases ..
  · exact .inl rfl

theorem triangle_writes (p : Poly) (a b c : ScreenVertex) (area : Int) (m : Memory) :
    PixelWrites p.cfg p.visible m (p.triangle a b c area m) := by
  refine forRect_induct (P := PixelWrites p.cfg p.visible m) (.refl m) ?_
  intro m' x y hx hy h
  rcases trianglePixel_cases p a b c area m' x y with e | ⟨col, d, e⟩ <;> rw [e]
  · exact h
  · exact .write col d h ⟨x, y, hx, hy, rfl⟩

theorem rasterTri_writes (p : Poly) (a b c : ScreenVertex) (m : Memory) :
    PixelWrites p.cfg p.visible m (p.rasterTri a b c m) := by
  unfold Poly.rasterTri
  simp only []
  split
  · exact .refl m
  · split
    · exact triangle_writes ..
    · exact triangle_writes ..

theorem fanFrom_writes (p : Poly) (a : ScreenVertex) (l : List ScreenVertex) (m : Memory) :
    PixelWrites p.cfg p.visible m (p.fanFrom a l m) := by
  induction l generalizing m with
  | nil => exact .refl m
  | cons b l ih =>
    cases l with
    | nil => exact .refl m
    | cons c r => exact (rasterTri_writes p a b c m).trans (ih _)

theorem rasterFan_writes (p : Poly) (scr : List ScreenVertex) (m : Memory) :
    PixelWrites p.cfg p.visible m (p.rasterFan scr m) := by
  cases scr with
  | nil => exact .refl m
  | cons a r => exact fanFrom_writes p a r m

theorem clearRect_writes (c : Cfg) (base w h : Nat) (m : Memory) :
    PixelWrites c (fun blk => ∃ x y, x < w ∧ y < h ∧ blk = pixelBlock c base x y) m (clearRect c base w h m) := by
  refine forRect_induct (P := PixelWrites c _ m) (.refl m) ?_
  intro m' x y hx hy hm
  exact .write _ _ hm ⟨x, y, hx, hy, rfl⟩

/-- CLEAR writes visible pixels of the render region (R175). -/
theorem clear_writes (s : State) : PixelWrites s.cfg s.visibleBlock s.bankB (clear s).bankB :=
  clearRect_writes ..

/-- A QUAD writes visible pixels of the render region (R201, R262). -/
theorem drawQuad_writes (vin : List InVertex) (s : State) :
    PixelWrites s.cfg s.visibleBlock s.bankB (drawQuad vin s).bankB := by
  have hl : (logFillMode s).bankB = s.bankB := by
    unfold logFillMode
    split <;> rfl
  unfold drawQuad
  simp only []
  split
  · rw [hl]
    exact .refl _
  · split
    · rw [hl]
      exact .refl _
    · exact rasterFan_writes (s.poly _) _ s.bankB

theorem visibleBlock_lt (s : State) (h : s.cfg.Wf) (blk : Nat) (hb : s.visibleBlock blk) :
    blk < s.cfg.height .bankB * s.cfg.width .bankB := by
  obtain ⟨x, y, _, _, rfl⟩ := hb
  exact pixelBlock_lt h ..

/-- What a QUAD changes besides bank B: the log, by at most one event (R201, R275). -/
theorem drawQuad_eq (vin : List InVertex) (s : State) :
    ∃ e, drawQuad vin s = { s with bankB := (drawQuad vin s).bankB, log := s.log ++ e } := by
  have hl : ∃ e, logFillMode s = { s with log := s.log ++ e } := by
    unfold logFillMode
    split
    · exact ⟨[], by simp⟩
    · exact ⟨_, rfl⟩
  obtain ⟨e, he⟩ := hl
  refine ⟨e, ?_⟩
  unfold drawQuad
  simp only [he]
  cases s.drawMode with
  | none => rfl
  | some mode => cases s.screenOf vin <;> rfl

/-! ### Storing a group's data slots -/

/-- A commit keeps its bank in form and inside (R86, R103). -/
theorem storeData_ok (bk : Bank) (s : State) (h : s.cfg.Wf) (hm : bankOk s.cfg bk (s.mem bk)) :
    bankOk s.cfg bk ((storeData bk s).mem bk) := by
  unfold storeData
  rw [show ∀ x, (s.setMem bk x).mem bk = x by intro x; cases bk <;> rfl]
  generalize usedData s.cfg bk = l
  generalize s.mem bk = m at hm
  induction l generalizing m with
  | nil => exact hm
  | cons p r ih => exact ih _ (setLane32_ok h hm _ _ (blockNum_lt h bk _))

end Sys2Proof.Machine
end

