-- ==== Sys2Proof/Laws/Encoding.lean ====
section
/-! SUPPORT. A field of an encoded command reads as the operand written into it, the first word of an encoded command tells
its format, and the order in which a legal configuration's opcodes are told apart. -/

namespace Sys2Proof.Machine

/-! ### Fields of encoded words -/

/-- Operands whose fields share no bit with a field leave it zero. -/
theorem operandWord_apart {os : List Operand} {f : Field} (h : ∀ o ∈ os, o.field.apart f) :
    (operandWord os f.word).extractLsb' f.lo f.width = 0 := by
  induction os with
  | nil => simp [operandWord]
  | cons a r ih =>
    rw [operandWord, extract_or, ih fun o ho => h o (List.mem_cons_of_mem _ ho)]
    split
    · rename_i hw
      rcases h a List.mem_cons_self with hne | hd
      · exact absurd hw hne
      · rw [extract_place_disjoint _ _ _ _ (Or.symm hd)]
        simp
    · simp

/-- The field of an operand holds its bits. -/
theorem operandWord_extract {os : List Operand} {n : Nat} (h : FieldsWf n (os.map Operand.field)) {o : Operand}
    (ho : o ∈ os) : (operandWord os o.field.word).extractLsb' o.field.lo o.field.width = o.bits := by
  obtain ⟨hp, hi⟩ := h
  have hin : ∀ o ∈ os, o.field.inside n := fun o ho => hi _ (List.mem_map_of_mem ho)
  rw [List.pairwise_map] at hp
  clear hi
  induction os with
  | nil => simp at ho
  | cons a r ih =>
    rw [List.pairwise_cons] at hp
    rw [operandWord, extract_or]
    rcases List.mem_cons.1 ho with rfl | hr
    · rw [if_pos rfl, extract_place _ _ (hin o List.mem_cons_self).2,
        operandWord_apart fun b hb => by
          rcases hp.1 b hb with hn | hd
          · exact .inl (Ne.symm hn)
          · exact .inr hd.symm]
      simp
    · rw [ih hr hp.2 fun b hb => hin b (List.mem_cons_of_mem _ hb)]
      split
      · rename_i hw
        rcases hp.1 o hr with hne | hd
        · exact absurd hw hne
        · rw [extract_place_disjoint _ _ _ _ (Or.symm hd)]
          simp
      · simp

/-- The bits of an operand at a field given by its numbers. -/
theorem operandWord_at {os : List Operand} {n : Nat} (h : FieldsWf n (os.map Operand.field)) {f : Field} {s : Bool}
    {m : Nat} {x : BitVec m} (ho : (⟨f, s, m, x⟩ : Operand) ∈ os) {w lo k : Nat} (hf : f = ⟨w, lo, k⟩) :
    (operandWord os w).extractLsb' lo k = x.setWidth k := by
  subst hf
  exact operandWord_extract h ho

theorem operandWords_length (n : Nat) (os : List Operand) : (operandWords n os).length = n := by
  simp [operandWords]

theorem operandWords_getD {n j : Nat} (os : List Operand) (rest : List Word) (h : j < n) :
    (operandWords n os ++ rest).getD j 0 = operandWord os j := by
  have h' : j < (operandWords n os).length := by rw [operandWords_length]; exact h
  rw [List.getD_eq_getElem?_getD, List.getElem?_append_left h']
  simp [operandWords, h]

theorem operandWords_headD {n : Nat} (os : List Operand) (h : 0 < n) :
    (operandWords n os).headD 0 = operandWord os 0 := by
  cases n with
  | zero => omega
  | succ n => simp [operandWords, List.range_succ_eq_map]

/-- A field of an encoded command reads as its operand, where the operand fits, whatever words follow (R116 to R123). -/
theorem read_operandWords {n : Nat} {os : List Operand} (rest : List Word) (h : FieldsWf n (os.map Operand.field))
    {f : Field} {s : Bool} {m : Nat} {x : BitVec m} (ho : (⟨f, s, m, x⟩ : Operand) ∈ os)
    (hf : (⟨f, s, m, x⟩ : Operand).fits = true) : f.read s m (operandWords n os ++ rest) = x := by
  have hi : f.inside n := h.inside f (List.mem_map_of_mem ho)
  rw [Field.read, operandWords_getD os rest hi.1, operandWord_extract h ho]
  exact eq_of_beq hf

/-! ### The first word of an encoded instruction -/

/-- The operands of an instruction go into the fields of its format. -/
theorem operands_fields (c : Cfg) (i : Instr) : (i.operands c).map Operand.field = c.fields i.format := by
  cases i <;> rfl

/-- In a legal configuration the fields of an instruction's operands lie in its words and share no bit. -/
theorem operands_wf {c : Cfg} (h : c.Wf) (i : Instr) :
    FieldsWf (c.count i.format) ((i.operands c).map Operand.field) := by
  rw [operands_fields]
  exact h.fields_wf _

/-- A command has one or more words (R110). -/
theorem count_pos (c : Cfg) (f : Format) : 0 < c.count f := by
  cases f <;> simp [Cfg.count, QuadSize.words]

theorem encode_length (c : Cfg) (i : Instr) : (encode c i).length = c.count i.format := operandWords_length _ _

theorem encode_headD (c : Cfg) (i : Instr) : (encode c i).headD 0 = operandWord (i.operands c) 0 :=
  operandWords_headD _ (count_pos c _)

/-- The opcode byte of an encoded instruction is the one its operands begin with. -/
theorem opOf_encode {c : Cfg} (h : c.Wf) {i : Instr} {op : Byte} (ho : Field.opcode.unsigned op ∈ i.operands c) :
    opOf ((encode c i).headD 0) = op := by
  rw [encode_headD, opOf, operandWord_at (operands_wf h i) ho rfl]
  simp

/-- The bit that selects the long LIGHT, in the first word of a LIGHT (R115). -/
theorem longBit_encode {c : Cfg} (hc : c.Wf) {i : Instr} {b : BitVec 1} (h : c.fmt.long.unsigned b ∈ i.operands c) :
    ((encode c i).headD 0).getLsbD c.fmt.longBit = b.getLsbD 0 := by
  have := operandWord_at (operands_wf hc i) (f := c.fmt.long) (s := false) (x := b) h rfl
  rw [encode_headD, ← BitVec.setWidth_eq b, ← this]
  simp

/-- The one word of an unknown command is the word itself (R120). -/
theorem encode_whole {c : Cfg} (hc : c.Wf) {i : Instr} {w : Word} (h : (Field.whole 0).unsigned w ∈ i.operands c) :
    (encode c i).headD 0 = w := by
  have := operandWord_at (operands_wf hc i) (f := .whole 0) (s := false) (x := w) h rfl
  rw [encode_headD]
  simpa using this

/-- The encoder agrees with the count table where the first word tells the format. -/
theorem encode_length_need {i : Instr} {c : Cfg} {ctx : Ctx} {q : QuadSize}
    (h : formatOf c ctx q ((encode c i).headD 0) = i.format) :
    (encode c i).length = need c ctx q ((encode c i).headD 0) := by
  rw [encode_length, need, h]

/-! ### Reading the operands back -/

/-- An operand reads back from the words of its instruction, whatever words follow (R110). -/
theorem read_operand {c : Cfg} (hc : c.Wf) {i : Instr} (hw : i.wf c = true) (rest : List Word) :
    ∀ o ∈ i.operands c, o.field.read o.signed o.size (encode c i ++ rest) = o.value := by
  intro o ho
  simp only [Instr.wf, Bool.and_eq_true, List.all_eq_true] at hw
  exact read_operandWords rest (operands_wf hc i) ho (hw.1 o ho)

/-- A vector of signed operands that read back is read whole. -/
theorem readVec_twos {n : Nat} {f : Vec3 Field} {v : Vec3 (BitVec n)} {ws : List Word}
    (h : ∀ o ∈ Vec3.operands Field.twos f v, o.field.read o.signed o.size ws = o.value) :
    f.map (fun f => f.read true n ws) = v := by
  obtain ⟨a, b, d⟩ := v
  have h0 := h (f.e0.twos a) (by simp [Vec3.operands])
  have h1 := h (f.e1.twos b) (by simp [Vec3.operands])
  have h2 := h (f.e2.twos d) (by simp [Vec3.operands])
  simp only [Field.twos] at h0 h1 h2
  simp only [Vec3.map, h0, h1, h2]

/-- A vector of unsigned operands that read back is read whole. -/
theorem readVec_unsigned {n : Nat} {f : Vec3 Field} {v : Vec3 (BitVec n)} {ws : List Word}
    (h : ∀ o ∈ Vec3.operands Field.unsigned f v, o.field.read o.signed o.size ws = o.value) :
    f.map (fun f => f.read false n ws) = v := by
  obtain ⟨a, b, d⟩ := v
  have h0 := h (f.e0.unsigned a) (by simp [Vec3.operands])
  have h1 := h (f.e1.unsigned b) (by simp [Vec3.operands])
  have h2 := h (f.e2.unsigned d) (by simp [Vec3.operands])
  simp only [Field.unsigned] at h0 h1 h2
  simp only [Vec3.map, h0, h1, h2]

/-- A matrix of signed operands that read back is read whole. -/
theorem readMat_twos {n : Nat} {f : Mat3 Field} {m : Mat3 (BitVec n)} {ws : List Word}
    (h : ∀ o ∈ Mat3.operands Field.twos f m, o.field.read o.signed o.size ws = o.value) :
    f.map (fun f => f.read true n ws) = m := by
  obtain ⟨a, b, d⟩ := m
  have h0 := readVec_twos (f := f.r0) (v := a) fun o ho => h o (by simp [Mat3.operands, ho])
  have h1 := readVec_twos (f := f.r1) (v := b) fun o ho => h o (by simp [Mat3.operands, ho])
  have h2 := readVec_twos (f := f.r2) (v := d) fun o ho => h o (by simp [Mat3.operands, ho])
  simp only [Mat3.map, h0, h1, h2]

/-- A vertex whose operands read back is read whole. -/
theorem readVertex {f : VertexFields} {p : InVertex} {ws : List Word}
    (h : ∀ o ∈ f.operands p, o.field.read o.signed o.size ws = o.value) : f.read ws = p := by
  obtain ⟨x, y, z, n, u, v⟩ := p
  have h0 := h (f.x.twos x) (by simp [VertexFields.operands])
  have h1 := h (f.y.twos y) (by simp [VertexFields.operands])
  have h2 := h (f.z.twos z) (by simp [VertexFields.operands])
  have h3 := h (f.n.unsigned n) (by simp [VertexFields.operands])
  have h4 := h (f.u.unsigned u) (by simp [VertexFields.operands])
  have h5 := h (f.v.unsigned v) (by simp [VertexFields.operands])
  simp only [Field.twos, Field.unsigned] at h0 h1 h2 h3 h4 h5
  simp only [VertexFields.read, h0, h1, h2, h3, h4, h5]

/-- A quad whose operands read back is read whole. -/
theorem readQuad {f : Four VertexFields} {q : Quad} {ws : List Word}
    (h : ∀ o ∈ Four.operands f q, o.field.read o.signed o.size ws = o.value) : f.map (fun f => f.read ws) = q := by
  obtain ⟨a, b, d, e⟩ := q
  have h0 := readVertex (f := f.v0) (p := a) fun o ho => h o (by simp [Four.operands, ho])
  have h1 := readVertex (f := f.v1) (p := b) fun o ho => h o (by simp [Four.operands, ho])
  have h2 := readVertex (f := f.v2) (p := d) fun o ho => h o (by simp [Four.operands, ho])
  have h3 := readVertex (f := f.v3) (p := e) fun o ho => h o (by simp [Four.operands, ho])
  simp only [Four.map, h0, h1, h2, h3]

/-! ### Telling the opcodes apart -/

/-- In a legal configuration no opcode is an earlier one of the table (R114). -/
structure OpsApart (o : Opcodes) : Prop where
  endModel : o.endModel ≠ o.ptrset
  chain : o.chain ≠ o.ptrset ∧ o.chain ≠ o.endModel
  drawmodel : o.drawmodel ≠ o.ptrset ∧ o.drawmodel ≠ o.endModel ∧ o.drawmodel ≠ o.chain
  regw16 : o.regw16 ≠ o.ptrset ∧ o.regw16 ≠ o.endModel ∧ o.regw16 ≠ o.chain ∧ o.regw16 ≠ o.drawmodel
  regw32 : o.regw32 ≠ o.ptrset ∧ o.regw32 ≠ o.endModel ∧ o.regw32 ≠ o.chain ∧ o.regw32 ≠ o.drawmodel ∧
    o.regw32 ≠ o.regw16
  matrix : o.matrix ≠ o.ptrset ∧ o.matrix ≠ o.endModel ∧ o.matrix ≠ o.chain ∧ o.matrix ≠ o.drawmodel ∧
    o.matrix ≠ o.regw16 ∧ o.matrix ≠ o.regw32
  light : o.light ≠ o.ptrset ∧ o.light ≠ o.endModel ∧ o.light ≠ o.chain ∧ o.light ≠ o.drawmodel ∧
    o.light ≠ o.regw16 ∧ o.light ≠ o.regw32 ∧ o.light ≠ o.matrix
  clear : o.clear ≠ o.ptrset ∧ o.clear ≠ o.endModel ∧ o.clear ≠ o.chain ∧ o.clear ≠ o.drawmodel ∧
    o.clear ≠ o.regw16 ∧ o.clear ≠ o.regw32 ∧ o.clear ≠ o.matrix ∧ o.clear ≠ o.light
  quad : o.quad ≠ o.ptrset ∧ o.quad ≠ o.endModel ∧ o.quad ≠ o.chain ∧ o.quad ≠ o.drawmodel ∧
    o.quad ≠ o.regw16 ∧ o.quad ≠ o.regw32 ∧ o.quad ≠ o.matrix ∧ o.quad ≠ o.light ∧ o.quad ≠ o.clear

theorem ops_apart {c : Cfg} (h : c.Wf) : OpsApart c.op := by
  have hn := h.ops_nodup
  simp only [Opcodes.all, List.nodup_cons, List.mem_cons, List.not_mem_nil, or_false, not_or, not_false_eq_true,
    List.nodup_nil, and_true] at hn
  obtain ⟨⟨a1, a2, a3, a4, a5, a6, a7, a8, a9⟩, ⟨b1, b2, b3, b4, b5, b6, b7, b8⟩, ⟨c1, c2, c3, c4, c5, c6, c7⟩,
    ⟨d1, d2, d3, d4, d5, d6⟩, ⟨e1, e2, e3, e4, e5⟩, ⟨f1, f2, f3, f4⟩, ⟨g1, g2, g3⟩, ⟨h1, h2⟩, i1⟩ := hn
  exact {
    endModel := Ne.symm a1
    chain := ⟨Ne.symm a2, Ne.symm b1⟩
    drawmodel := ⟨Ne.symm a3, Ne.symm b2, Ne.symm c1⟩
    regw16 := ⟨Ne.symm a4, Ne.symm b3, Ne.symm c2, Ne.symm d1⟩
    regw32 := ⟨Ne.symm a5, Ne.symm b4, Ne.symm c3, Ne.symm d2, Ne.symm e1⟩
    matrix := ⟨Ne.symm a6, Ne.symm b5, Ne.symm c4, Ne.symm d3, Ne.symm e2, Ne.symm f1⟩
    light := ⟨Ne.symm a7, Ne.symm b6, Ne.symm c5, Ne.symm d4, Ne.symm e3, Ne.symm f2, Ne.symm g1⟩
    clear := ⟨Ne.symm a8, Ne.symm b7, Ne.symm c6, Ne.symm d5, Ne.symm e4, Ne.symm f3, Ne.symm g2, Ne.symm h1⟩
    quad := ⟨Ne.symm a9, Ne.symm b8, Ne.symm c7, Ne.symm d6, Ne.symm e5, Ne.symm f4, Ne.symm g3, Ne.symm h2,
      Ne.symm i1⟩ }

/-- The opcodes known in both contexts (R114). -/
theorem known_both (c : Cfg) (ctx : Ctx) :
    c.opKnown ctx c.op.ptrset = true ∧ c.opKnown ctx c.op.regw16 = true ∧ c.opKnown ctx c.op.regw32 = true ∧
      c.opKnown ctx c.op.matrix = true ∧ c.opKnown ctx c.op.light = true ∧ c.opKnown ctx c.op.clear = true ∧
      c.opKnown ctx c.op.quad = true := by
  cases ctx <;> simp [Cfg.opKnown, Opcodes.known]

theorem known_model (c : Cfg) :
    c.opKnown .model c.op.endModel = true ∧ c.opKnown .model c.op.chain = true := by
  simp [Cfg.opKnown, Opcodes.known]

theorem known_fifo (c : Cfg) : c.opKnown .fifo c.op.drawmodel = true := by
  simp [Cfg.opKnown, Opcodes.known]

end Sys2Proof.Machine
end

