-- ==== Sys2Proof/Laws/Commands.lean ====
section
/-! SUPPORT. What every command does to the part of the invariant that commands can touch (`State.dataInv`), to the
configuration, and to the walker: the lemmas the statements about steps and walks are put together from. -/

namespace Sys2Proof.Machine

/-- The part of the invariant a command can touch: a legal configuration, both banks in form, the display part. -/
structure State.dataInv (s : State) : Prop where
  cfg_wf : s.cfg.Wf
  bankA_ok : bankOk s.cfg .bankA s.bankA
  bankB_ok : bankOk s.cfg .bankB s.bankB
  display : s.displayInv

theorem dataInv_congr {s t : State} (h : s.dataInv) (hc : t.cfg = s.cfg) (hA : t.bankA = s.bankA)
    (hB : t.bankB = s.bankB) (h1 : t.disp = s.disp) (h2 : t.beamRow = s.beamRow) (h3 : t.scanRow = s.scanRow)
    (h4 : t.out = s.out) : t.dataInv :=
  ⟨hc ▸ h.cfg_wf, by rw [hc, hA]; exact h.bankA_ok, by rw [hc, hB]; exact h.bankB_ok,
    displayInv_congr h.display h1 h2 h3 h4 hc⟩

/-! ### Slot writes -/

theorem setReg_dataInv {s : State} (h : s.dataInv) (i : SlotNo) (v : Word) : (s.setReg i v).dataInv :=
  dataInv_congr h rfl rfl rfl rfl rfl rfl rfl

theorem latch_dataInv {s : State} (h : s.dataInv) (bk : Bank) : (latch bk s).dataInv :=
  dataInv_congr h (latch_proj s State.cfg (fun _ _ _ => rfl) bk) (latch_proj s State.bankA (fun _ _ _ => rfl) bk)
    (latch_proj s State.bankB (fun _ _ _ => rfl) bk) (latch_proj s State.disp (fun _ _ _ => rfl) bk)
    (latch_proj s State.beamRow (fun _ _ _ => rfl) bk) (latch_proj s State.scanRow (fun _ _ _ => rfl) bk)
    (latch_proj s State.out (fun _ _ _ => rfl) bk)

theorem storeData_dataInv {s : State} (h : s.dataInv) (bk : Bank) : (storeData bk s).dataInv := by
  cases bk
  · exact ⟨h.cfg_wf, storeData_ok .bankA s h.cfg_wf h.bankA_ok, h.bankB_ok,
      displayInv_congr h.display rfl rfl rfl rfl rfl⟩
  · exact ⟨h.cfg_wf, h.bankA_ok, storeData_ok .bankB s h.cfg_wf h.bankB_ok,
      displayInv_congr h.display rfl rfl rfl rfl rfl⟩

theorem autoIncrement_dataInv {s : State} (h : s.dataInv) (bk : Bank) : (autoIncrement bk s).dataInv := by
  unfold autoIncrement
  split
  · exact setReg_dataInv h _ _
  · exact h

theorem commit_dataInv {s : State} (h : s.dataInv) (bk : Bank) (j : Nat) : (commit bk j s).dataInv := by
  unfold commit
  split
  · exact autoIncrement_dataInv (storeData_dataInv h bk) bk
  · exact h

theorem retime_dataInv {s : State} (h : s.dataInv) : (retime s).dataInv :=
  ⟨by rw [retime_cfg]; exact h.cfg_wf, by rw [retime_cfg, retime_bankA]; exact h.bankA_ok,
    by rw [retime_cfg, retime_bankB]; exact h.bankB_ok, retime_displayInv h.cfg_wf h.display⟩

theorem sideEffect_dataInv {s : State} (h : s.dataInv) (slot : SlotNo) : (sideEffect slot s).dataInv := by
  rcases sideEffect_cases s slot with e | ⟨bk, -, e⟩ | ⟨bk, j, -, e⟩ | ⟨-, e⟩ <;> rw [e]
  · exact h
  · exact latch_dataInv h bk
  · exact commit_dataInv h bk j
  · exact retime_dataInv h

theorem storeSlot_dataInv {s : State} (h : s.dataInv) (slot : SlotNo) (v : Word) : (storeSlot slot v s).dataInv :=
  sideEffect_dataInv (setReg_dataInv h slot v) slot

theorem storeHalf_dataInv {s : State} (h : s.dataInv) (high : Bool) (slot : SlotNo) (d : Half) :
    (storeHalf high slot d s).dataInv := by
  cases high
  · exact sideEffect_dataInv (setReg_dataInv h slot _) slot
  · exact setReg_dataInv h slot _

/-! ### The other commands -/

theorem ptrset_dataInv {s : State} (h : s.dataInv) (sel : BitVec 24) (data : Word) : (ptrset sel data s).dataInv := by
  unfold ptrset
  repeat' split
  · exact storeSlot_dataInv h _ _
  all_goals exact dataInv_congr h rfl rfl rfl rfl rfl rfl rfl

theorem clear_dataInv {s : State} (h : s.dataInv) : (clear s).dataInv :=
  ⟨h.cfg_wf, h.bankA_ok, (clear_writes s).ok h.cfg_wf (visibleBlock_lt s h.cfg_wf) h.bankB_ok,
    displayInv_congr h.display rfl rfl rfl rfl rfl⟩

theorem drawQuad_dataInv {s : State} (h : s.dataInv) (vin : List InVertex) : (drawQuad vin s).dataInv := by
  obtain ⟨e, he⟩ := drawQuad_eq vin s
  have hb := (drawQuad_writes vin s).ok h.cfg_wf (visibleBlock_lt s h.cfg_wf) h.bankB_ok
  rw [he]
  exact ⟨h.cfg_wf, h.bankA_ok, hb, displayInv_congr h.display rfl rfl rfl rfl rfl⟩

theorem runSub_dataInv {s : State} (h : s.dataInv) (i : Instr) : (runSub i s).dataInv := by
  cases i
  case ptrset sel data => exact ptrset_dataInv h sel data
  case regw16 high slot d => exact storeHalf_dataInv h high slot d
  case regw32 slot v => exact storeSlot_dataInv h slot v
  case clear => exact clear_dataInv h
  case quadQ10 q => exact drawQuad_dataInv h _
  case quadQ14 q => exact drawQuad_dataInv h _
  case matrix1 m t =>
    show (matrix1 m t s).dataInv
    unfold matrix1
    split <;> exact dataInv_congr h rfl rfl rfl rfl rfl rfl rfl
  case matrix2 a b t =>
    show (matrix2 a b t s).dataInv
    unfold matrix2
    split <;> exact dataInv_congr h rfl rfl rfl rfl rfl rfl rfl
  case chain count addr =>
    show (chain count addr s).dataInv
    unfold chain
    repeat' split
    all_goals exact dataInv_congr h rfl rfl rfl rfl rfl rfl rfl
  case unknownModel w =>
    show (unknownModel w s).dataInv
    unfold unknownModel
    split <;> exact dataInv_congr h rfl rfl rfl rfl rfl rfl rfl
  all_goals exact dataInv_congr h rfl rfl rfl rfl rfl rfl rfl

theorem atSub_dataInv {s : State} (h : s.dataInv) (k : Walker) (i : Instr) (n : Nat) : (s.atSub k i n).dataInv := by
  unfold State.atSub
  split
  · exact h
  · exact dataInv_congr h rfl rfl rfl rfl rfl rfl rfl

theorem walkTurn_dataInv {s : State} (h : s.dataInv) : (walkTurn s).dataInv := by
  unfold walkTurn
  repeat' split
  · exact h
  · exact dataInv_congr h rfl rfl rfl rfl rfl rfl rfl
  · exact dataInv_congr h rfl rfl rfl rfl rfl rfl rfl
  · exact runSub_dataInv (atSub_dataInv h _ _ _) _

theorem walkLoop_dataInv (n : Nat) {s : State} (h : s.dataInv) : (walkLoop n s).dataInv := by
  induction n generalizing s with
  | zero => exact h
  | succ n ih =>
    unfold walkLoop
    split
    · exact h
    · exact ih (walkTurn_dataInv h)

theorem drawmodel_dataInv {s : State} (h : s.dataInv) (count : Half) (addr : Word) :
    (drawmodel count addr s).dataInv :=
  walkLoop_dataInv _ (dataInv_congr h rfl rfl rfl rfl rfl rfl rfl)

/-! ### `exec` -/

/-- The next state of an instruction: the walker's effect of a sub-command, and the two instructions a list lacks. -/
def effect (i : Instr) (s : State) : State :=
  match i with
  | .drawmodel count addr => drawmodel count addr s
  | .unknownFifo w => unknownFifo w s
  | i => runSub i s

/-- Every instruction goes on, to its effect (R5). -/
theorem exec_eq (i : Instr) (s : State) : exec i s = .next (effect i s) := by
  cases i <;> rfl

/-- In a model list an instruction runs as `exec` runs it (R160, R198). -/
theorem exec_runSub (i : Instr) (s : State) (h : i.inCtx .model = true) : exec i s = .next (runSub i s) := by
  cases i <;> first | rfl | simp [Instr.inCtx] at h

theorem effect_dataInv {s : State} (h : s.dataInv) (i : Instr) : (effect i s).dataInv := by
  have hr := runSub_dataInv h i
  cases i
  case drawmodel count addr => exact drawmodel_dataInv h count addr
  case unknownFifo w => exact dataInv_congr h rfl rfl rfl rfl rfl rfl rfl
  all_goals exact hr

/-! ### The configuration -/

theorem ptrset_cfg (sel : BitVec 24) (data : Word) (s : State) : (ptrset sel data s).cfg = s.cfg := by
  unfold ptrset
  repeat' split
  all_goals simp

theorem drawQuad_cfg (vin : List InVertex) (s : State) : (drawQuad vin s).cfg = s.cfg := by
  obtain ⟨e, he⟩ := drawQuad_eq vin s
  rw [he]

theorem runSub_cfg (i : Instr) (s : State) : (runSub i s).cfg = s.cfg := by
  cases i
  case ptrset sel data => exact ptrset_cfg sel data s
  case regw16 high slot d => exact storeHalf_cfg s high slot d
  case regw32 slot v => exact storeSlot_cfg s slot v
  case quadQ10 q => exact drawQuad_cfg _ s
  case quadQ14 q => exact drawQuad_cfg _ s
  case matrix1 m t =>
    show (matrix1 m t s).cfg = s.cfg
    unfold matrix1
    split <;> rfl
  case matrix2 a b t =>
    show (matrix2 a b t s).cfg = s.cfg
    unfold matrix2
    split <;> rfl
  case chain count addr =>
    show (chain count addr s).cfg = s.cfg
    unfold chain
    repeat' split
    all_goals rfl
  case unknownModel w =>
    show (unknownModel w s).cfg = s.cfg
    unfold unknownModel
    split <;> rfl
  all_goals rfl

@[simp] theorem atSub_cfg (s : State) (k : Walker) (i : Instr) (n : Nat) : (s.atSub k i n).cfg = s.cfg := by
  unfold State.atSub
  split <;> rfl

theorem walkTurn_cfg (s : State) : (walkTurn s).cfg = s.cfg := by
  unfold walkTurn
  repeat' split
  · rfl
  · rfl
  · rfl
  · rw [runSub_cfg, atSub_cfg]

theorem walkLoop_cfg (n : Nat) (s : State) : (walkLoop n s).cfg = s.cfg := by
  induction n generalizing s with
  | zero => rfl
  | succ n ih =>
    unfold walkLoop
    split
    · rfl
    · rw [ih, walkTurn_cfg]

theorem effect_cfg (i : Instr) (s : State) : (effect i s).cfg = s.cfg := by
  have hr := runSub_cfg i s
  cases i
  case drawmodel count addr => exact walkLoop_cfg _ _
  case unknownFifo w => rfl
  all_goals exact hr

/-! ### The walker -/

/-- A walk's remaining work: turns it can still take (R192). -/
def Walker.fuel (c : Cfg) (k : Walker) : Nat := (c.maxChain - k.mchain) * 65536 + k.mrem + 1

/-- The fuel of a state: none where no walk is in progress. -/
def State.fuel (s : State) : Nat :=
  match s.walk with
  | none => 0
  | some k => k.fuel s.cfg

/-- No command but CHAIN, END and the unknown word of a list moves the walker. -/
theorem runSub_walk (i : Instr) (s : State) (h1 : i ≠ .endModel) (h2 : ∀ n a, i ≠ .chain n a)
    (h3 : ∀ w, i ≠ .unknownModel w) : (runSub i s).walk = s.walk := by
  cases i
  case endModel => exact absurd rfl h1
  case chain n a => exact absurd rfl (h2 n a)
  case unknownModel w => exact absurd rfl (h3 w)
  case ptrset sel data =>
    show (ptrset sel data s).walk = s.walk
    unfold ptrset
    repeat' split
    all_goals simp
  case regw16 high slot d => exact storeHalf_walk s high slot d
  case regw32 slot v => exact storeSlot_walk s slot v
  case quadQ10 q =>
    obtain ⟨e, he⟩ := drawQuad_eq q.list s
    show (drawQuad q.list s).walk = _
    rw [he]
  case quadQ14 q =>
    obtain ⟨e, he⟩ := drawQuad_eq q.list s
    show (drawQuad q.list s).walk = _
    rw [he]
  case matrix1 m t =>
    show (matrix1 m t s).walk = s.walk
    unfold matrix1
    split <;> rfl
  case matrix2 a b t =>
    show (matrix2 a b t s).walk = s.walk
    unfold matrix2
    split <;> rfl
  all_goals rfl

theorem need_pos (c : Cfg) (ctx : Ctx) (q : QuadSize) (w0 : Word) : 0 < need c ctx q w0 := count_pos c _

/-- What `subAt` finds is `need` words long and fits the count (R192, R194). -/
theorem subAt_some {s : State} {k : Walker} {i : Instr} {n : Nat} (h : s.subAt k = some (i, n)) :
    0 < n ∧ n ≤ k.mrem := by
  unfold State.subAt at h
  simp only [] at h
  split at h
  · simp at h
  · rename_i hle
    split at h
    · simp only [Option.some.injEq, Prod.mk.injEq] at h
      rw [← h.2]
      exact ⟨need_pos .., by omega⟩
    · simp at h

/-- What a CHAIN leaves to do (R192, R197). -/
theorem chain_fuel (count : Half) (addr : Word) (s : State) {k : Walker} (h : s.walk = some k) :
    (chain count addr s).fuel =
      if s.cfg.maxChain ≤ k.mchain then 0 else (s.cfg.maxChain - (k.mchain + 1)) * 65536 + count.toNat + 1 := by
  unfold chain
  simp only [h]
  by_cases hm : s.cfg.maxChain ≤ k.mchain
  · rw [if_pos hm, if_pos hm]
    rfl
  · rw [if_neg hm, if_neg hm]
    rfl

/-- Each turn of a walk leaves less to do (R192). -/
theorem walkTurn_fuel {s : State} (h : s.walk ≠ none) : (walkTurn s).fuel < s.fuel := by
  cases hk : s.walk with
  | none => exact absurd hk h
  | some k =>
    have hs : s.fuel = k.fuel s.cfg := by simp [State.fuel, hk]
    rw [hs]
    unfold walkTurn
    simp only [hk]
    by_cases h0 : k.mrem = 0
    · rw [if_pos h0]
      simp [State.fuel, Walker.fuel]
    · rw [if_neg h0]
      cases hsub : s.subAt k with
      | none => simp [State.fuel, Walker.fuel]
      | some p =>
        obtain ⟨i, n⟩ := p
        obtain ⟨hn, hle⟩ := subAt_some hsub
        simp only []
        by_cases h1 : i = .endModel
        · subst h1
          simp [runSub, endModel, State.fuel, Walker.fuel]
        by_cases h2 : ∃ c a, i = .chain c a
        · obtain ⟨c, a, rfl⟩ := h2
          have hc := c.isLt
          have e := chain_fuel c a (s.atSub k (.chain c a) n) (k := k.past n) rfl
          rw [show runSub (.chain c a) (s.atSub k (.chain c a) n) = chain c a (s.atSub k (.chain c a) n) from rfl, e,
            atSub_cfg, show (k.past n).mchain = k.mchain from rfl]
          simp only [Walker.fuel]
          by_cases hm : s.cfg.maxChain ≤ k.mchain
          · rw [if_pos hm]
            omega
          · rw [if_neg hm]
            have : s.cfg.maxChain - k.mchain = (s.cfg.maxChain - (k.mchain + 1)) + 1 := by omega
            rw [this, Nat.succ_mul]
            omega
        by_cases h3 : ∃ w, i = .unknownModel w
        · obtain ⟨w, rfl⟩ := h3
          simp only [runSub, unknownModel, State.atSub, hk, State.fuel, Walker.fuel, logEvent_cfg]
          omega
        · have ha : (s.atSub k i n).walk = some (k.past n) := by
            unfold State.atSub
            split
            · exact absurd ⟨_, rfl⟩ h3
            · rfl
          have hw := runSub_walk i (s.atSub k i n) h1 (fun c a e => h2 ⟨c, a, e⟩) (fun w e => h3 ⟨w, e⟩)
          unfold State.fuel
          rw [hw, ha, runSub_cfg, atSub_cfg]
          simp only [Walker.fuel, Walker.past]
          omega

/-- With enough turns a walk ends (R192). -/
theorem walkLoop_walk (n : Nat) {s : State} (h : s.fuel ≤ n) : (walkLoop n s).walk = none := by
  induction n generalizing s with
  | zero =>
    unfold State.fuel at h
    cases hk : s.walk with
    | none => exact hk
    | some k => simp [hk, Walker.fuel] at h
  | succ n ih =>
    unfold walkLoop
    split
    · assumption
    · rename_i k hk
      have := walkTurn_fuel (s := s) (by simp [hk])
      exact ih (by omega)

/-- A dispatched walk has ended when DRAWMODEL returns (R10, R192). -/
theorem drawmodel_walk (count : Half) (addr : Word) (s : State) : (drawmodel count addr s).walk = none := by
  refine walkLoop_walk _ ?_
  have := count.isLt
  simp only [State.fuel, Walker.fuel, walkBound, Nat.sub_zero, Nat.succ_mul]
  omega

end Sys2Proof.Machine
end

