-- ==== Sys2Proof/Laws/Defaults.lean ====
section
/-! SUPPORT. The default configurations are legal, and the memories after reset have the canonical form. -/

namespace Sys2Proof.Machine

/-- Words of `nb / 4` lanes in identity order use every byte position once (R75). -/
theorem identityLanes_wf : ∀ nb ∈ [8, 12], (identityLanes nb).Wf nb := by
  intro nb h
  rcases List.mem_cons.1 h with rfl | h
  · exact ⟨by decide, by decide, by decide⟩
  · obtain rfl := List.mem_singleton.1 h
    exact ⟨by decide, by decide, by decide⟩

/-- The fields of each default format lie in its words and share no bit (R116 to R122). -/
theorem defaultFields_wf (g : Gen) (f : Format) : FieldsWf ((defaultCfg g).count f) ((defaultCfg g).fields f) := by
  cases g <;> cases f <;> exact ⟨by decide, by decide⟩

/-- The default pixel formats are legal (R35, R83, R275, R283). -/
theorem defaultPixels_wf (g : Gen) : (defaultPixels g).Wf g (defaultBBytes g) := by
  cases g <;> exact ⟨by decide, by decide, by decide, by decide, by decide, by decide, by decide, by decide⟩

/-- The default configuration of each generation is legal (R6). -/
theorem defaultCfg_wf (g : Gen) : (defaultCfg g).Wf where
  colBits_pos := by cases g <;> decide
  colBits_le := by cases g <;> decide
  width_pos := by intro b; cases g <;> cases b <;> decide
  width_le := by intro b; cases g <;> cases b <;> decide
  height_pos := by intro b; cases g <;> cases b <;> decide
  height_le := by intro b; cases g <;> cases b <;> decide
  aBytes_eq := by cases g <;> decide
  bBytes_eq := by cases g <;> decide
  lanes_wf := by
    intro b
    cases b
    · exact identityLanes_wf 8 (by decide)
    · cases g
      · exact identityLanes_wf 8 (by decide)
      · exact identityLanes_wf 12 (by decide)
  pixel_disjoint := by
    intro h
    cases g
    · exact absurd h (by decide)
    · intro p hp q hq
      obtain rfl : (0, 1, 2, 3) = p := by
        simpa [defaultCfg, identityLanes, defaultBBytes, defaultPixels] using hp
      obtain rfl : (4, 5) = q := by
        simpa [defaultCfg, identityLanes, defaultBBytes, defaultPixels, List.range_succ] using hq
      simp
  slots_nodup := by cases g <;> decide
  nslots_eq := rfl
  reg_wf := ⟨by cases g <;> decide, by cases g <;> decide⟩
  alpha_le := by cases g <;> decide
  pix_wf := defaultPixels_wf g
  ops_nodup := by cases g <;> decide
  fields_wf := defaultFields_wf g
  count_le := by intro f; cases g <;> cases f <;> decide
  disc_place := rfl
  psel_nodup := by cases g <;> decide
  fifoCap_ge := by cases g <;> decide
  nearZ_pos := by cases g <;> decide
  depthMax_le := by cases g <;> decide
  reset_invalid := by cases g <;> rfl
  pixclk_pos := by intro p h; exact absurd h (by cases g <;> simp [defaultCfg])

/-- After reset both banks have the canonical form. -/
theorem resetOf_mem_wf (c : Cfg) : Memory.wf (State.resetOf c).bankA ∧ Memory.wf (State.resetOf c).bankB :=
  ⟨List.Pairwise.nil, List.Pairwise.nil⟩

end Sys2Proof.Machine
end

