-- ==== Sys2Proof/Laws/Hooks.lean ====
section
/-! SUPPORT. What the configured functions of R6 are where the configuration takes the spec's default, and what every
one of them keeps (R223). -/

namespace Sys2Proof.Machine

variable {c : Cfg}

theorem fxRound_standard (h : c.fxRound = .standard) (v : Int) (n : Nat) : fxRound c v n = v / 2 ^ n := by
  unfold fxRound
  rw [h]
  exact Int.fdiv_eq_ediv_of_nonneg _ (by positivity)

/-- "Required of every `fxRound`" (R223). -/
@[simp] theorem fxRound_zero (c : Cfg) (n : Nat) : fxRound c 0 n = 0 := by
  unfold fxRound
  split <;> simp [asr, floorDiv]

theorem wrap16_standard (h : c.wrap16 = .standard) (i : Int) : wrap16 c i = BitVec.ofInt 16 i := by
  rw [wrap16, h, wrapBy]

theorem wrap32_standard (h : c.wrap32 = .standard) (i : Int) : wrap32 c i = (BitVec.ofInt 32 i).toInt := by
  rw [wrap32, h, wrapBy]

/-- Every wrap keeps a 32-bit value (R223). -/
@[simp] theorem wrap32_toInt (c : Cfg) (t : Word) : wrap32 c t.toInt = t.toInt := by
  unfold wrap32 wrapBy
  split <;> simp

/-- Every wrap keeps a 16-bit value. -/
@[simp] theorem wrap16_toInt (c : Cfg) (t : Half) : wrap16 c t.toInt = t := by
  unfold wrap16 wrapBy
  split <;> simp

section Record

variable (h : c.f32 = .standard) (x y : Word)
include h

theorem fAdd_standard : fAdd c x y = F32.add x y := by rw [fAdd, h]

theorem fSub_standard : fSub c x y = F32.sub x y := by rw [fSub, h]

theorem fMul_standard : fMul c x y = F32.mul x y := by rw [fMul, h]

theorem fDiv_standard : fDiv c x y = F32.div x y := by rw [fDiv, h]

theorem fGe_standard : fGe c x y = F32.ge x y := by rw [fGe, h]

theorem fIsFinite_standard : fIsFinite c x = F32.isFinite x := by rw [fIsFinite, h]

theorem fToIntFloor_standard : fToIntFloor c x = F32.toIntFloor x := by rw [fToIntFloor, h]

theorem fOfInt_standard (i : Int) : fOfInt c i = F32.ofInt i := by rw [fOfInt, h]

theorem fOfRat_standard (i : Int) (n : Nat) : fOfRat c i n = F32.ofRat i n := by rw [fOfRat, h]

end Record

end Sys2Proof.Machine
end

