-- ==== Sys2Proof/Laws/Lanes.lean ====
section
/-! SUPPORT. Reading lanes back (R76 to R78): a lane reads what was last written to it, and a write leaves every lane whose
bytes it does not touch; the same for the colour and the depth of a pixel. -/

namespace Sys2Proof.Machine

variable {c : Cfg} {bk : Bank} {m m' : Memory}

/-! ### A lane depends on its bytes only -/

theorem byteAt_congr {blk p : Nat} (h : m'.get (byteAddr c bk blk p) = m.get (byteAddr c bk blk p)) :
    byteAt c bk m' blk p = byteAt c bk m blk p := by
  unfold byteAt
  rw [h]

theorem lane8_congr {blk k : Nat} (h : ∀ a ∈ laneAddrs8 c bk blk k, m'.get a = m.get a) :
    lane8 c bk m' blk k = lane8 c bk m blk k :=
  byteAt_congr (h _ (by simp [laneAddrs8]))

theorem lane16_congr {blk k : Nat} (h : ∀ a ∈ laneAddrs16 c bk blk k, m'.get a = m.get a) :
    lane16 c bk m' blk k = lane16 c bk m blk k := by
  unfold lane16
  simp only []
  rw [byteAt_congr (h _ (by simp [laneAddrs16])), byteAt_congr (h _ (by simp [laneAddrs16]))]

theorem lane32_congr {blk k : Nat} (h : ∀ a ∈ laneAddrs32 c bk blk k, m'.get a = m.get a) :
    lane32 c bk m' blk k = lane32 c bk m blk k := by
  unfold lane32
  simp only []
  rw [byteAt_congr (h _ (by simp [laneAddrs32])), byteAt_congr (h _ (by simp [laneAddrs32])),
    byteAt_congr (h _ (by simp [laneAddrs32])), byteAt_congr (h _ (by simp [laneAddrs32]))]

/-! ### Positions of a lane are distinct, positions of two lanes are disjoint -/

theorem pos16_ne (h : c.Wf) (bk : Bank) {k : Nat} (hk : k < c.blockBytes bk / 2) : (pos16 c bk k).1 ≠ (pos16 c bk k).2 := by
  have hl := lane16_length h bk
  have hk' : k < (c.lanes bk).lane16.length := by omega
  have := nodup_of_nodup_flatMap (perm16_nodup h bk) (List.getElem?_eq_getElem hk')
  unfold pos16
  rw [List.getD_eq_getElem?_getD, List.getElem?_eq_getElem hk', Option.getD_some]
  simpa using this

theorem pos32_nodup (h : c.Wf) (bk : Bank) {k : Nat} (hk : k < c.blockBytes bk / 4) :
    [(pos32 c bk k).1, (pos32 c bk k).2.1, (pos32 c bk k).2.2.1, (pos32 c bk k).2.2.2].Nodup := by
  have hl := lane32_length h bk
  have hk' : k < (c.lanes bk).lane32.length := by omega
  have := nodup_of_nodup_flatMap (perm32_nodup h bk) (List.getElem?_eq_getElem hk')
  unfold pos32
  rw [List.getD_eq_getElem?_getD, List.getElem?_eq_getElem hk', Option.getD_some]
  exact this

theorem pos8_inj (h : c.Wf) (bk : Bank) {k j : Nat} (hk : k < c.blockBytes bk) (hj : j < c.blockBytes bk)
    (e : pos8 c bk k = pos8 c bk j) : k = j := by
  have hl := lane8_length h bk
  have hn : (c.lanes bk).lane8.Nodup := (h.lanes_wf bk).perm8.nodup_iff.2 List.nodup_range
  unfold pos8 at e
  rw [List.getD_eq_getElem?_getD, List.getD_eq_getElem?_getD, List.getElem?_eq_getElem (by omega),
    List.getElem?_eq_getElem (by omega), Option.getD_some, Option.getD_some] at e
  exact (List.Nodup.getElem_inj_iff hn).1 e

theorem pos16_disjoint (h : c.Wf) (bk : Bank) {k j : Nat} (hk : k < c.blockBytes bk / 2) (hj : j < c.blockBytes bk / 2)
    (e : k ≠ j) :
    List.Disjoint [(pos16 c bk k).1, (pos16 c bk k).2] [(pos16 c bk j).1, (pos16 c bk j).2] := by
  have hl := lane16_length h bk
  have hk' : k < (c.lanes bk).lane16.length := by omega
  have hj' : j < (c.lanes bk).lane16.length := by omega
  have := disjoint_of_nodup_flatMap (perm16_nodup h bk) (List.getElem?_eq_getElem hk') (List.getElem?_eq_getElem hj') e
  unfold pos16
  rw [List.getD_eq_getElem?_getD, List.getElem?_eq_getElem hk', List.getD_eq_getElem?_getD,
    List.getElem?_eq_getElem hj', Option.getD_some, Option.getD_some]
  exact this

theorem pos32_disjoint (h : c.Wf) (bk : Bank) {k j : Nat} (hk : k < c.blockBytes bk / 4) (hj : j < c.blockBytes bk / 4)
    (e : k ≠ j) :
    List.Disjoint [(pos32 c bk k).1, (pos32 c bk k).2.1, (pos32 c bk k).2.2.1, (pos32 c bk k).2.2.2]
      [(pos32 c bk j).1, (pos32 c bk j).2.1, (pos32 c bk j).2.2.1, (pos32 c bk j).2.2.2] := by
  have hl := lane32_length h bk
  have hk' : k < (c.lanes bk).lane32.length := by omega
  have hj' : j < (c.lanes bk).lane32.length := by omega
  have := disjoint_of_nodup_flatMap (perm32_nodup h bk) (List.getElem?_eq_getElem hk') (List.getElem?_eq_getElem hj') e
  unfold pos32
  rw [List.getD_eq_getElem?_getD, List.getElem?_eq_getElem hk', List.getD_eq_getElem?_getD,
    List.getElem?_eq_getElem hj', Option.getD_some, Option.getD_some]
  exact this

/-- Byte positions of a block that are disjoint are disjoint addresses, and so are any positions of two blocks. -/
theorem addrs_disjoint {blk blk' : Nat} {l l' : List Nat} (hl : ∀ p ∈ l, p < c.blockBytes bk)
    (hl' : ∀ p ∈ l', p < c.blockBytes bk) (h : blk' ≠ blk ∨ l'.Disjoint l) :
    List.Disjoint (l'.map (byteAddr c bk blk')) (l.map (byteAddr c bk blk)) := by
  intro a ha hb
  obtain ⟨p, hp, rfl⟩ := List.mem_map.1 ha
  obtain ⟨q, hq, e⟩ := List.mem_map.1 hb
  obtain ⟨h1, h2⟩ := byteAddr_inj (hl q hq) (hl' p hp) e
  rcases h with h | h
  · exact h h1.symm
  · exact h hp (h2 ▸ hq)

theorem laneAddrs8_eq (blk k : Nat) : laneAddrs8 c bk blk k = [pos8 c bk k].map (byteAddr c bk blk) := rfl

theorem laneAddrs16_eq (blk k : Nat) :
    laneAddrs16 c bk blk k = [(pos16 c bk k).1, (pos16 c bk k).2].map (byteAddr c bk blk) := rfl

theorem laneAddrs32_eq (blk k : Nat) :
    laneAddrs32 c bk blk k =
      [(pos32 c bk k).1, (pos32 c bk k).2.1, (pos32 c bk k).2.2.1, (pos32 c bk k).2.2.2].map (byteAddr c bk blk) := rfl

theorem pos16_mem_lt (h : c.Wf) (bk : Bank) (k : Nat) :
    ∀ p ∈ [(pos16 c bk k).1, (pos16 c bk k).2], p < c.blockBytes bk := by
  have := pos16_lt h bk k
  simp [this]

theorem pos32_mem_lt (h : c.Wf) (bk : Bank) (k : Nat) :
    ∀ p ∈ [(pos32 c bk k).1, (pos32 c bk k).2.1, (pos32 c bk k).2.2.1, (pos32 c bk k).2.2.2], p < c.blockBytes bk := by
  have := pos32_lt h bk k
  simp [this]

theorem laneAddrs8_disjoint (h : c.Wf) {blk blk' k k' : Nat} (hk : k < c.blockBytes bk) (hk' : k' < c.blockBytes bk)
    (e : blk' ≠ blk ∨ k' ≠ k) : (laneAddrs8 c bk blk' k').Disjoint (laneAddrs8 c bk blk k) := by
  rw [laneAddrs8_eq, laneAddrs8_eq]
  refine addrs_disjoint (by simpa using pos8_lt h bk k) (by simpa using pos8_lt h bk k') ?_
  refine e.imp id (fun e => ?_)
  have : pos8 c bk k ≠ pos8 c bk k' := fun x => e (pos8_inj h bk hk hk' x).symm
  simpa using this

theorem laneAddrs16_disjoint (h : c.Wf) {blk blk' k k' : Nat} (hk : k < c.blockBytes bk / 2)
    (hk' : k' < c.blockBytes bk / 2) (e : blk' ≠ blk ∨ k' ≠ k) :
    (laneAddrs16 c bk blk' k').Disjoint (laneAddrs16 c bk blk k) := by
  rw [laneAddrs16_eq, laneAddrs16_eq]
  exact addrs_disjoint (pos16_mem_lt h bk k) (pos16_mem_lt h bk k') (e.imp id (pos16_disjoint h bk hk' hk))

theorem laneAddrs32_disjoint (h : c.Wf) {blk blk' k k' : Nat} (hk : k < c.blockBytes bk / 4)
    (hk' : k' < c.blockBytes bk / 4) (e : blk' ≠ blk ∨ k' ≠ k) :
    (laneAddrs32 c bk blk' k').Disjoint (laneAddrs32 c bk blk k) := by
  rw [laneAddrs32_eq, laneAddrs32_eq]
  exact addrs_disjoint (pos32_mem_lt h bk k) (pos32_mem_lt h bk k') (e.imp id (pos32_disjoint h bk hk' hk))

/-! ### Read after write -/

theorem joinFour_bytes (v : Word) : joinFour (byteOf v 3) (byteOf v 2) (byteOf v 1) (byteOf v 0) = v :=
  joinFour_byteOf v

theorem lane8_setLane8 (h : c.Wf) (m : Memory) (blk k : Nat) (v : Byte) :
    lane8 c bk (setLane8 c bk m blk k v) blk k = v := by
  unfold lane8 setLane8
  rw [byteAt_setByteAt m v (pos8_lt h bk k) (pos8_lt h bk k), if_pos ⟨rfl, rfl⟩]

theorem lane16_setLane16 (h : c.Wf) (m : Memory) (blk : Nat) {k : Nat} (hk : k < c.blockBytes bk / 2) (v : Half) :
    lane16 c bk (setLane16 c bk m blk k v) blk k = v := by
  obtain ⟨h1, h2⟩ := pos16_lt h bk k
  have hne := pos16_ne h bk hk
  unfold lane16 setLane16
  simp only []
  rw [byteAt_setByteAt _ _ h2 h2, byteAt_setByteAt _ _ h2 h1, byteAt_setByteAt _ _ h1 h1, if_pos ⟨rfl, rfl⟩,
    if_neg (fun x => hne x.2), if_pos ⟨rfl, rfl⟩, joinBytes_extract]

theorem lane32_setLane32 (h : c.Wf) (m : Memory) (blk : Nat) {k : Nat} (hk : k < c.blockBytes bk / 4) (v : Word) :
    lane32 c bk (setLane32 c bk m blk k v) blk k = v := by
  obtain ⟨h1, h2, h3, h4⟩ := pos32_lt h bk k
  have hn := pos32_nodup h bk hk
  simp only [List.nodup_cons, List.mem_cons, List.not_mem_nil, or_false, not_or, not_false_eq_true, List.nodup_nil,
    and_true] at hn
  obtain ⟨⟨e1, e2, e3⟩, ⟨e4, e5⟩, e6⟩ := hn
  unfold lane32 setLane32
  simp only []
  rw [byteAt_setByteAt _ _ h4 h4, byteAt_setByteAt _ _ h4 h3, byteAt_setByteAt _ _ h3 h3, byteAt_setByteAt _ _ h4 h2,
    byteAt_setByteAt _ _ h3 h2, byteAt_setByteAt _ _ h2 h2, byteAt_setByteAt _ _ h4 h1, byteAt_setByteAt _ _ h3 h1,
    byteAt_setByteAt _ _ h2 h1, byteAt_setByteAt _ _ h1 h1]
  simp only [e1, e2, e3, e4, e5, e6, and_false, and_true, if_true, if_false, joinFour_byteOf]

/-! ### Pixels -/

theorem depthLane_lt (h : c.Wf) : c.pix.depthLane < c.blockBytes .bankB / 2 := by
  simpa only [Cfg.blockBytes] using h.pix_wf.depthLane_lt

theorem colorLane_lt (h : c.Wf) : c.pix.colorLane < c.blockBytes .bankB / (colourWidth c.gen / 8) := by
  simpa only [Cfg.blockBytes] using h.pix_wf.colorLane_lt

theorem bytes_ge (h : c.Wf) : 8 ≤ c.blockBytes .bankB := by
  have := h.bBytes_eq
  simp only [Cfg.blockBytes]
  omega

/-- Colour and depth of one pixel share no byte (R83). -/
theorem colorAddrs_disjoint (h : c.Wf) (blk : Nat) :
    (colorAddrs c blk).Disjoint (laneAddrs16 c .bankB blk c.pix.depthLane) := by
  have hc := colorLane_lt h
  have hd := depthLane_lt h
  unfold colorAddrs
  cases hg : c.gen with
  | gen1 =>
    rw [hg] at hc
    exact laneAddrs16_disjoint h hd hc (.inr (h.pix_wf.lanes_ne hg))
  | gen2 =>
    simp only []
    rw [laneAddrs16_eq, laneAddrs32_eq]
    refine addrs_disjoint (pos16_mem_lt h .bankB _) (pos32_mem_lt h .bankB _) (.inr ?_)
    have l32 := lane32_length h .bankB
    have l16 := lane16_length h .bankB
    rw [hg] at hc
    have h0 : c.pix.colorLane < (c.lanes .bankB).lane32.length := by simp only [colourWidth] at hc; omega
    have h2 : c.pix.depthLane < (c.lanes .bankB).lane16.length := by omega
    have := h.pixel_disjoint hg _ (List.getElem?_eq_getElem h0) _ (List.getElem?_eq_getElem h2)
    unfold pos32 pos16
    rw [List.getD_eq_getElem?_getD, List.getElem?_eq_getElem h0, List.getD_eq_getElem?_getD,
      List.getElem?_eq_getElem h2, Option.getD_some, Option.getD_some]
    exact this

/-- The bytes of different blocks' pixels are different (R272). -/
theorem pixelAddrs_disjoint (h : c.Wf) {blk blk' : Nat} (e : blk' ≠ blk) :
    (pixelAddrs c blk').Disjoint (pixelAddrs c blk) := by
  have pos : ∀ b, ∃ l : List Nat, pixelAddrs c b = l.map (byteAddr c .bankB b) ∧ (∀ p ∈ l, p < c.blockBytes .bankB) := by
    intro b
    unfold pixelAddrs colorAddrs
    cases c.gen
    · simp only []
      rw [laneAddrs16_eq, laneAddrs16_eq, ← List.map_append]
      exact ⟨_, rfl, by
        intro p hp
        rcases List.mem_append.1 hp with hp | hp
        · exact pos16_mem_lt h .bankB _ p hp
        · exact pos16_mem_lt h .bankB _ p hp⟩
    · simp only []
      rw [laneAddrs32_eq, laneAddrs16_eq, ← List.map_append]
      exact ⟨_, rfl, by
        intro p hp
        rcases List.mem_append.1 hp with hp | hp
        · exact pos32_mem_lt h .bankB _ p hp
        · exact pos16_mem_lt h .bankB _ p hp⟩
  obtain ⟨l, h1, h2⟩ := pos blk
  obtain ⟨l', h1', h2'⟩ := pos blk'
  rw [h1, h1']
  exact addrs_disjoint h2 h2' (.inl e)

theorem pixColor_congr {blk : Nat} (h : ∀ a ∈ colorAddrs c blk, m'.get a = m.get a) :
    pixColor c m' blk = pixColor c m blk := by
  unfold colorAddrs at h
  unfold pixColor
  cases hg : c.gen <;> simp only [hg] at h ⊢
  · rw [lane16_congr h]
  · rw [lane32_congr h]

theorem pixDepth_congr {blk : Nat} (h : ∀ a ∈ laneAddrs16 c .bankB blk c.pix.depthLane, m'.get a = m.get a) :
    pixDepth c m' blk = pixDepth c m blk := lane16_congr h

/-- A pixel write is read back: the colour as the bank stores it, the depth as it is (R272). -/
theorem setPixel_read (h : c.Wf) (m : Memory) (blk : Nat) (v : Color) (d : Half) :
    pixColor c (setPixel c m blk v d) blk = storedColour c.gen v ∧ pixDepth c (setPixel c m blk v d) blk = d := by
  have hc := colorLane_lt h
  constructor
  · have e : pixColor c (setPixel c m blk v d) blk = pixColor c (setPixColor c m blk v) blk := by
      refine pixColor_congr (fun a ha => ?_)
      unfold setPixel setPixDepth
      exact setLane16_get_ne _ _ (fun hx => colorAddrs_disjoint h blk ha hx)
    rw [e]
    unfold pixColor setPixColor storedColour
    cases hg : c.gen <;> simp only [hg, colourWidth] at hc ⊢
    · rw [lane16_setLane16 h m blk hc]
    · rw [lane32_setLane32 h m blk hc]
  · unfold pixDepth setPixel setPixDepth
    exact lane16_setLane16 h _ blk (depthLane_lt h) d

/-- A pixel of a visible rectangle that does not wrap onto itself has a block of its own (R84). -/
theorem pixelBlock_inj (h : c.Wf) {base w ht x y x' y' : Nat} (hw : w ≤ c.bW) (hh : ht ≤ c.bH) (hx : x < w)
    (hx' : x' < w) (hy : y < ht) (hy' : y' < ht) (e : pixelBlock c base x y = pixelBlock c base x' y') :
    x = x' ∧ y = y' := by
  have hW : 0 < c.bW := h.width_pos .bankB
  unfold pixelBlock at e
  rw [Nat.mod_eq_of_lt (show x < c.bW by omega), Nat.mod_eq_of_lt (show x' < c.bW by omega)] at e
  have key : ∀ {a b p q : Nat}, p < c.bW → q < c.bW → a * c.bW + p = b * c.bW + q → a = b ∧ p = q := by
    intro a b p q hp hq hab
    have h1 : (a * c.bW + p) / c.bW = a := by
      rw [Nat.add_comm, Nat.add_mul_div_right _ _ hW, Nat.div_eq_of_lt hp, Nat.zero_add]
    have h2 : (b * c.bW + q) / c.bW = b := by
      rw [Nat.add_comm, Nat.add_mul_div_right _ _ hW, Nat.div_eq_of_lt hq, Nat.zero_add]
    have : a = b := by rw [← h1, ← h2, hab]
    subst this
    exact ⟨rfl, by omega⟩
  obtain ⟨h1, h2⟩ := key (by omega) (by omega) e
  refine ⟨h2, ?_⟩
  have hm : (base + y) ≡ (base + y') [MOD c.bH] := h1
  have := Nat.ModEq.add_left_cancel' base hm
  rw [Nat.ModEq, Nat.mod_eq_of_lt (by omega), Nat.mod_eq_of_lt (by omega)] at this
  exact this

end Sys2Proof.Machine
end

