-- ==== Sys2Proof/Laws/PerInstr.lean ====
section
/-! SUPPORT. Statements made of every instruction, one lemma per constructor. `EncodedLength`: the encoder writes as many
words as the count table gives for the first of them (R115), in every context and under every quad payload size the
instruction can be met in. -/

namespace Sys2Proof.Laws.EncodedLength

open Sys2Proof Sys2Proof.Machine

/-- The count table agrees with the encoder (R115). -/
def Statement (i : Instr) : Prop :=
  ∀ (c : Cfg) (ctx : Ctx) (q : QuadSize), c.Wf → i.wf c = true → i.inCtx ctx = true → i.underSize q = true →
    (encode c i).length = need c ctx q ((encode c i).headD 0)

theorem ptrset (sel : BitVec 24) (data : Word) : Statement (.ptrset sel data) := by
  intro c ctx q hc _ _ _
  refine encode_length_need ?_
  unfold formatOf
  simp only []
  rw [opOf_encode hc (op := c.op.ptrset) (by simp [Instr.operands])]
  simp [(known_both c ctx).1, Instr.format]

theorem endModel : Statement .endModel := by
  intro c ctx q hc _ hx _
  have ha := (ops_apart hc).endModel
  refine encode_length_need ?_
  unfold formatOf
  simp only []
  rw [opOf_encode hc (op := c.op.endModel) (by simp [Instr.operands])]
  cases ctx
  · simp [Instr.inCtx] at hx
  · simp [(known_model c).1, ha, Instr.format]

theorem chain (count : Half) (addr : Word) : Statement (.chain count addr) := by
  intro c ctx q hc _ hx _
  have ha := (ops_apart hc).chain
  refine encode_length_need ?_
  unfold formatOf
  simp only []
  rw [opOf_encode hc (op := c.op.chain) (by simp [Instr.operands])]
  cases ctx
  · simp [Instr.inCtx] at hx
  · simp [(known_model c).2, ha, Instr.format]

theorem drawmodel (count : Half) (addr : Word) : Statement (.drawmodel count addr) := by
  intro c ctx q hc _ hx _
  have ha := (ops_apart hc).drawmodel
  refine encode_length_need ?_
  unfold formatOf
  simp only []
  rw [opOf_encode hc (op := c.op.drawmodel) (by simp [Instr.operands])]
  cases ctx
  · simp [known_fifo c, ha, Instr.format]
  · simp [Instr.inCtx] at hx

theorem regw16 (high : Bool) (slot : SlotNo) (data : Half) : Statement (.regw16 high slot data) := by
  intro c ctx q hc _ _ _
  have ha := (ops_apart hc).regw16
  refine encode_length_need ?_
  unfold formatOf
  simp only []
  rw [opOf_encode hc (op := c.op.regw16) (by simp [Instr.operands])]
  simp [(known_both c ctx).2.1, ha, Instr.format]

theorem regw32 (slot : SlotNo) (data : Word) : Statement (.regw32 slot data) := by
  intro c ctx q hc _ _ _
  have ha := (ops_apart hc).regw32
  refine encode_length_need ?_
  unfold formatOf
  simp only []
  rw [opOf_encode hc (op := c.op.regw32) (by simp [Instr.operands])]
  simp [(known_both c ctx).2.2.1, ha, Instr.format]

theorem matrix1 (m : Mat3 Half) (t : Vec3 Word) : Statement (.matrix1 m t) := by
  intro c ctx q hc hw _ _
  have ha := (ops_apart hc).matrix
  have hd : m.r0.e2 ≠ c.matrixDisc := by
    simp only [Instr.wf, Bool.and_eq_true] at hw
    simpa [Instr.formatShows] using hw.2
  refine encode_length_need ?_
  unfold formatOf
  simp only []
  rw [opOf_encode hc (op := c.op.matrix) (by simp [Instr.operands]), encode_headD,
    operandWord_at (operands_wf hc (.matrix1 m t)) (f := c.fmt.m1.r0.e2) (s := true) (x := m.r0.e2)
      (by simp [Instr.operands, Mat3.operands, Vec3.operands, Field.twos]) hc.disc_place]
  simp [(known_both c ctx).2.2.2.1, ha, hd, Instr.format]

theorem matrix2 (a b : Mat3 Half) (t : Vec3 Word) : Statement (.matrix2 a b t) := by
  intro c ctx q hc _ _ _
  have ha := (ops_apart hc).matrix
  refine encode_length_need ?_
  unfold formatOf
  simp only []
  rw [opOf_encode hc (op := c.op.matrix) (by simp [Instr.operands]), encode_headD,
    operandWord_at (operands_wf hc (.matrix2 a b t)) (f := c.fmt.disc) (s := false) (x := c.matrixDisc)
      (by simp [Instr.operands, Field.unsigned]) rfl]
  simp [(known_both c ctx).2.2.2.1, ha, Instr.format]

theorem lights (l : Vec3 Half) : Statement (.lights l) := by
  intro c ctx q hc _ _ _
  have ha := (ops_apart hc).light
  refine encode_length_need ?_
  unfold formatOf
  simp only []
  rw [opOf_encode hc (op := c.op.light) (by simp [Instr.operands]),
    longBit_encode hc (b := BitVec.ofBool !c.fmt.longCode) (by simp [Instr.operands])]
  simp [(known_both c ctx).2.2.2.2.1, ha, Instr.format]

theorem lightl (a : Vec3 Word) : Statement (.lightl a) := by
  intro c ctx q hc _ _ _
  have ha := (ops_apart hc).light
  refine encode_length_need ?_
  unfold formatOf
  simp only []
  rw [opOf_encode hc (op := c.op.light) (by simp [Instr.operands]),
    longBit_encode hc (b := BitVec.ofBool c.fmt.longCode) (by simp [Instr.operands])]
  simp [(known_both c ctx).2.2.2.2.1, ha, Instr.format]

theorem clear : Statement .clear := by
  intro c ctx q hc _ _ _
  have ha := (ops_apart hc).clear
  refine encode_length_need ?_
  unfold formatOf
  simp only []
  rw [opOf_encode hc (op := c.op.clear) (by simp [Instr.operands])]
  simp [(known_both c ctx).2.2.2.2.2.1, ha, Instr.format]

theorem quadQ10 (v : Quad) : Statement (.quadQ10 v) := by
  intro c ctx q hc _ _ hq
  have ha := (ops_apart hc).quad
  refine encode_length_need ?_
  unfold formatOf
  simp only []
  rw [opOf_encode hc (op := c.op.quad) (by simp [Instr.operands])]
  cases q
  · simp [(known_both c ctx).2.2.2.2.2.2, ha, Instr.format]
  · simp [Instr.underSize] at hq

theorem quadQ14 (v : Quad) : Statement (.quadQ14 v) := by
  intro c ctx q hc _ _ hq
  have ha := (ops_apart hc).quad
  refine encode_length_need ?_
  unfold formatOf
  simp only []
  rw [opOf_encode hc (op := c.op.quad) (by simp [Instr.operands])]
  cases q
  · simp [Instr.underSize] at hq
  · simp [(known_both c ctx).2.2.2.2.2.2, ha, Instr.format]

theorem unknownFifo (w : Word) : Statement (.unknownFifo w) := by
  intro c ctx q hc hw hx _
  simp only [Instr.wf, Bool.and_eq_true] at hw
  refine encode_length_need ?_
  rw [encode_whole hc (w := w) (by simp [Instr.operands])]
  cases ctx
  · have : c.opKnown .fifo (opOf w) = false := by simpa [Instr.formatShows, opOf] using hw.2
    simp [formatOf, this, Instr.format]
  · simp [Instr.inCtx] at hx

theorem unknownModel (w : Word) : Statement (.unknownModel w) := by
  intro c ctx q hc hw hx _
  simp only [Instr.wf, Bool.and_eq_true] at hw
  refine encode_length_need ?_
  rw [encode_whole hc (w := w) (by simp [Instr.operands])]
  cases ctx
  · simp [Instr.inCtx] at hx
  · have : c.opKnown .model (opOf w) = false := by simpa [Instr.formatShows, opOf] using hw.2
    simp [formatOf, this, Instr.format]

end Sys2Proof.Laws.EncodedLength
end

