-- ==== Sys2Proof/Laws/Steps.lean ====
section
/-! SUPPORT. What a step can do, said once: perform the next operation, hold the state where none is issued, or take one
turn of a walk in progress. -/

namespace Sys2Proof.Machine

/-- With no walk in progress a step performs the next operation (R10, R12). -/
theorem step_op {s : State} {op : HostOp} {rest : List HostOp} (hw : s.walk = none) (hi : s.inputs = op :: rest) :
    step s = hostOp op { s with inputs := rest } := by
  unfold step nextOp
  split
  · rename_i h
    rw [hw] at h
    exact absurd h (by simp)
  · rw [hi]

/-- With nothing issued a step holds the state (R345). -/
theorem step_idle {s : State} (hw : s.walk = none) (hi : s.inputs = []) : step s = .next s := by
  unfold step nextOp
  split
  · rename_i h
    rw [hw] at h
    exact absurd h (by simp)
  · rw [hi]

/-- In a walk a step takes one turn of it (R192). -/
theorem step_walk {s : State} {k : Walker} (hw : s.walk = some k) : step s = walkStep k s := by
  unfold step
  rw [hw]

/-- A push either rests in the buffer or runs the command it completes (R145). -/
theorem fifoPush_cases (w : Word) (s : State) :
    (∃ e, decode s.cfg .fifo s.pQsize (s.fifo ++ [w]) = .error e ∧
        fifoPush w s = .next { s with fifo := s.fifo ++ [w] }) ∨
      ∃ i r, decode s.cfg .fifo s.pQsize (s.fifo ++ [w]) = .ok (i, r) ∧
        fifoPush w s = .next { effect i { s with fifo := s.fifo ++ [w] } with fifo := [] } := by
  unfold fifoPush
  simp only []
  cases hd : decode s.cfg .fifo s.pQsize (s.fifo ++ [w]) with
  | error e => exact .inl ⟨e, rfl, rfl⟩
  | ok p =>
    obtain ⟨i, r⟩ := p
    refine .inr ⟨i, r, rfl, ?_⟩
    simp only [exec_eq, clearFifo]

/-- The host's side effect of a slot is a push or a command's side effect (R142). -/
theorem hostSideEffect_cases (slot : SlotNo) (s : State) :
    hostSideEffect slot s = fifoPush (s.reg slot) s ∨ hostSideEffect slot s = .next (sideEffect slot s) := by
  unfold hostSideEffect
  split
  · exact .inl rfl
  · exact .inr rfl

/-- The push port's side effect is the push of the slot's content (R144). -/
theorem hostSideEffect_fifo {slot : SlotNo} {s : State} (h : slot = s.cfg.slot.fifo) :
    hostSideEffect slot s = fifoPush (s.reg slot) s := if_pos h

/-- Every other slot's side effect is that of a command's store (R142). -/
theorem hostSideEffect_ne {slot : SlotNo} {s : State} (h : slot ≠ s.cfg.slot.fifo) :
    hostSideEffect slot s = .next (sideEffect slot s) := if_neg h

end Sys2Proof.Machine
end

