-- ==== Sys2Proof/Tests/Slice0.lean ====
section
/-! SUPPORT. The model's own tests. The words and the expected values are those of the spec's encodings
(30_encoding.md) and of its vectors (95_test_vectors.md, named by section), or hand calculation from the rule a comment
names. Then one witness for the hypotheses of each statement that has some. -/

namespace Sys2Proof.Tests

open Sys2Proof Sys2Proof.Machine

/-- The default configuration of generation 1. -/
abbrev c1 : Cfg := defaultCfg .gen1

/-- The state after reset of a generation. -/
abbrev fresh (g : Gen) : State := State.resetOf (defaultCfg g)

/-- The next state of an outcome. -/
def got : Host.Outcome State Fault Refusal → Option State
  | .next t => some t
  | _ => none

/-- The identity matrix of generation 1 (section 2.8). -/
def idFix : Mat3 Half := ⟨⟨0x4000, 0, 0⟩, ⟨0, 0x4000, 0⟩, ⟨0, 0, 0x4000⟩⟩

/-- A display of `w × h` visible pixels at the origin. -/
def shown (w h : Nat) : Disp := ⟨true, 512, 262, 0, w, 0, h⟩

/-! ### Decoding -/

theorem test_decode_ptrset :
    decode c1 .fifo .q10 [0x01000002, 0x00100008] = .ok (.ptrset 2 0x00100008, []) := rfl

theorem test_decode_end : decode c1 .model .q10 [0x08000000, 7] = .ok (.endModel, [7]) := rfl

theorem test_decode_chain : decode c1 .model .q10 [0x0C00000C, 0x00400000] = .ok (.chain 12 0x00400000, []) := rfl

theorem test_decode_drawmodel :
    decode c1 .fifo .q10 [0x13000010, 0x003001FC] = .ok (.drawmodel 16 0x003001FC, []) := rfl

theorem test_decode_regw16 : decode c1 .model .q10 [0x1790ABCD] = .ok (.regw16 true 0x10 0xABCD, []) := rfl

theorem test_decode_regw32 : decode c1 .fifo .q10 [0x182F0000, 0x54] = .ok (.regw32 0x2F 0x54, []) := rfl

theorem test_decode_matrix1 :
    decode c1 .fifo .q10
        [0x1C001234, 0xC0002000, 0xFFFF4000, 0x80000001, 0x7FFFE000, 0x80000000, 0x7FFFFFFF, 0x00000000] =
      .ok (.matrix1 ⟨⟨16384, -1, 4660⟩, ⟨1, -32768, -16384⟩, ⟨-8192, 32767, 8192⟩⟩ ⟨0x80000000, 0x7FFFFFFF, 0⟩, []) :=
  rfl

theorem test_decode_matrix2 :
    decode c1 .fifo .q10
        [0x1C007FFF, 0x00000001, 0x00000000, 0x0000FFFF, 0x7FFF7FFF, 0x20007FFF, 0x7FFF0001, 0x20000000, 0x7FFF7FFF,
         0x7FFF7FFF, 0, 0, 5] =
      .ok (.matrix2 ⟨⟨1, 0, 0⟩, ⟨0, -1, 0⟩, ⟨0x7FFF, 0x7FFF, 0x7FFF⟩⟩
        ⟨⟨0x2000, 1, 0x7FFF⟩, ⟨0, 0x2000, 0x7FFF⟩, ⟨0x7FFF, 0x7FFF, 0x7FFF⟩⟩ ⟨0, 0, 5⟩, []) := rfl

theorem test_decode_lights :
    decode c1 .fifo .q10 [0x237F8000, 0x7FFF8000] = .ok (.lights ⟨-32768, 32767, -32768⟩, []) := rfl

theorem test_decode_lightl : decode c1 .fifo .q10 [0x23800000, 1, 2, 3] = .ok (.lightl ⟨1, 2, 3⟩, []) := rfl

theorem test_decode_clear : decode c1 .fifo .q10 [0x25FFFFFF] = .ok (.clear, []) := rfl

/-- R122: the normals of `w1`, then two words a vertex. -/
theorem test_decode_quad_q10 :
    decode c1 .fifo .q10 [0x38000000, 0x44332211, 0x00020001, 0x06050003, 0x00080007, 0x0C0B0009, 0, 0, 0xFFFF8000, 0] =
      .ok (.quadQ10 ⟨⟨1, 2, 3, 0x11, 5, 6⟩, ⟨7, 8, 9, 0x22, 0x0B, 0x0C⟩, ⟨0, 0, 0, 0x33, 0, 0⟩,
        ⟨-32768, -1, 0, 0x44, 0, 0⟩⟩, []) := rfl

/-- R122: `w1` is ignored, then three words a vertex. -/
theorem test_decode_quad_q14 :
    decode c1 .fifo .q14
        [0x38000000, 0x44332211, 0x00020001, 0x06050003, 0xFFFFFF21, 0, 0, 0, 0, 0, 0, 0x00080007, 0x0C0B0009, 0x22] =
      .ok (.quadQ14 ⟨⟨1, 2, 3, 0x21, 5, 6⟩, ⟨0, 0, 0, 0, 0, 0⟩, ⟨0, 0, 0, 0, 0, 0⟩, ⟨7, 8, 9, 0x22, 0x0B, 0x0C⟩⟩, []) :=
  rfl

theorem test_decode_unknown_fifo : decode c1 .fifo .q10 [0x0C000001, 9] = .ok (.unknownFifo 0x0C000001, [9]) := rfl

theorem test_decode_unknown_model : decode c1 .model .q10 [0x13000002, 9] = .ok (.unknownModel 0x13000002, [9]) := rfl

/-- A layout with every field of REGW16 moved: `DATA16` in 23:8, `HALF` in bit 7, `SLOT` in 6:0 (R2, R117). -/
theorem test_decode_moved_fields :
    decode { c1 with fmt := { c1.fmt with
        regw16Data := ⟨0, 8, 16⟩, regw16Half := ⟨0, 7, 1⟩, regw16Slot := ⟨0, 0, 7⟩ } } .fifo .q10 [0x17ABCD90] =
      .ok (.regw16 true 0x10 0xABCD, []) := rfl

/-- A signed field of 8 bits is sign-extended, and a LIGHT of another length is taken whole (R115, R123). -/
theorem test_decode_narrow_field :
    decode { c1 with
        fmt := { c1.fmt with lights := ⟨⟨0, 0, 16⟩, ⟨1, 16, 16⟩, ⟨1, 0, 8⟩⟩ }, counts := { c1.counts with lights := 3 } }
      .fifo .q10 [0x23000010, 0xFFF001FF, 0, 7] = .ok (.lights ⟨16, -16, -1⟩, [7]) := rfl

/-- The other codes: a `HALF` of 0 names the high half, a clear bit 23 the long LIGHT. -/
theorem test_decode_other_codes :
    decode { c1 with fmt := { c1.fmt with halfCode := false } } .fifo .q10 [0x1710ABCD] =
      .ok (.regw16 true 0x10 0xABCD, []) ∧
    decode { c1 with fmt := { c1.fmt with longCode := false } } .fifo .q10 [0x23000000, 1, 2, 3] =
      .ok (.lightl ⟨1, 2, 3⟩, []) := ⟨rfl, rfl⟩

theorem test_decode_incomplete : decode c1 .fifo .q14 [0x38000000] = .error (.incomplete 14) := rfl

theorem test_decode_no_word : decode c1 .fifo .q10 [] = .error .noWord := rfl

/-! ### Ill-formed instructions -/

/-- R118: the entry [0][2] of a single-matrix load cannot be the discriminator. -/
theorem test_wf_refuses_matrix1 : (Instr.matrix1 ⟨⟨0, 0, 0x7FFF⟩, .all 0, .all 0⟩ (.all 0)).wf c1 = false := by decide

/-- R120: the word of an unknown command has an opcode that is not known. -/
theorem test_wf_refuses_unknown_fifo : (Instr.unknownFifo 0x25000000).wf c1 = false := by decide

theorem test_wf_refuses_unknown_model : (Instr.unknownModel 0x08000000).wf c1 = false := by decide

/-- An operand that does not fit its field: a count of 256 in 8 bits. -/
theorem test_wf_refuses_wide_operand :
    (Instr.chain 0x100 0).wf { c1 with fmt := { c1.fmt with chainCount := ⟨0, 0, 8⟩ } } = false := by decide

/-- Two fields that share bits are no legal layout: `HALF` inside `SLOT`. -/
theorem test_wf_refuses_shared_bits :
    ¬ { c1 with fmt := { c1.fmt with regw16Half := ⟨0, 22, 1⟩ } }.Wf := fun h =>
  absurd (h.fields_wf .regw16).apart (by decide)

/-- A colour whose channels share a bit, and a pixel whose colour and depth share a lane, are not legal. -/
theorem test_wf_refuses_pixel_formats :
    ¬ PixelLayout.Wf { defaultPixels .gen1 with channelLo := ⟨10, 6, 0⟩ } .gen1 8 ∧
    ¬ PixelLayout.Wf { defaultPixels .gen1 with depthLane := 0 } .gen1 8 :=
  ⟨fun h => absurd h.channels_apart (by decide), fun h => absurd (h.lanes_ne rfl) (by decide)⟩

/-- R31: no geometry is valid at reset. -/
theorem test_wf_refuses_valid_reset :
    ¬ { c1 with reset := { c1.reset with disp := shown 1 1 } }.Wf := fun h => absurd h.reset_invalid (by decide)

/-! ### The host's two questions -/

theorem test_table_word_regw16 : decodeTableWord 32 0x1790ABCD = some (.regw16 true 0x10 0xABCD) := by decide

theorem test_table_word_chain : decodeTableWord 64 0x004000000C00000C = some (.chain 12 0x00400000) := by decide

theorem test_table_word_clear : decodeTableWord 32 0x25000000 = some .clear := by decide

/-- The step after `withFetchWord` runs a FIFO command: REGW32 writes slot 0x2F. -/
theorem test_fetch_fifo_command :
    (got (step (State.reset.withFetchWord 64 0x00000054182F0000))).map (fun t => (t.reg 0x2F, t.fifo)) =
      some (0x54, []) := by decide

/-- The step after `withFetchWord` runs a model-list command: CHAIN goes to its target. -/
theorem test_fetch_list_command :
    (got (step (State.reset.withFetchWord 64 0x004000000C00000C))).map State.walk =
      some (some ⟨0x00400000, 0, 12, 1⟩) := by decide

/-- A quad with more than ten words of bits runs in layout Q14. -/
theorem test_fetch_quad_q14 :
    (got (step (State.reset.withFetchWord 448 0x38000000))).map (fun t => (t.fifo, t.log)) = some ([], []) := by
  decide

/-! ### Instructions -/

/-- Section 2.6: only bit 0 of the data counts. -/
theorem test_ptrset_qsize :
    (got (exec (.ptrset 4 0xFFFFFFFE) { fresh .gen2 with pQsize := .q14 })).map State.pQsize = some .q10 := by
  decide

/-- Section 2.6. -/
theorem test_ptrset_render_target :
    (got (exec (.ptrset 1 0x01000000) (fresh .gen1))).map (fun t => (t.reg 0x42, t.rbase, t.dbase)) =
      some (0x01000000, 0, 256) := by decide

/-- Section 2.6: the high half raises the interrupt line. -/
theorem test_regw16_high_half :
    (got (exec (.regw16 true 0x40 0x0200) (fresh .gen1))).map (fun t => (t.reg 0x40, t.irqFifo)) =
      some (0x02000000, true) := by decide

/-- Section 2.6. -/
theorem test_regw16_low_half :
    (got (exec (.regw16 false 0x10 0x1234) ((fresh .gen1).setReg 0x10 0x11112222))).map (fun t => t.reg 0x10) =
      some 0x11111234 := by decide

/-- Section 2.6: a store into the push port from a command pushes nothing. -/
theorem test_regw32_push_port :
    (got (exec (.regw32 0x70 0x38000000) (fresh .gen1))).map (fun t => (t.reg 0x70, t.fifo)) =
      some (0x38000000, []) := by decide

/-- Section 2.3: the commit of bank B, generation 1. -/
theorem test_regw32_commits :
    (got (exec (.regw32 0x50 0x12347C1F)
      ((((fresh .gen1).setReg 0x54 2).setReg 0x53 0x00050007).setReg 0x51 0xCAFEF00D))).map
        (fun t => t.bankB.map Prod.snd) = some [0x1F, 0x7C, 0x34, 0x12, 0x0D, 0xF0, 0xFE, 0xCA] := by decide

/-- Section 2.7, the bit patterns of generation 2. -/
theorem test_matrix1_gen2 :
    (got (exec (.matrix1 ⟨⟨16384, -1, 4660⟩, ⟨1, -32768, -16384⟩, ⟨-8192, 32767, 8192⟩⟩
      ⟨0x80000000, 0x7FFFFFFF, 0x01000001⟩) (fresh .gen2))).map (fun t => (t.matFlt, t.trans)) =
    some (⟨⟨0x3F800000, 0xB8800000, 0x3E91A000⟩, ⟨0x38800000, 0xC0000000, 0xBF800000⟩,
      ⟨0xBF000000, 0x3FFFFE00, 0x3F000000⟩⟩, ⟨0xCF000000, 0x4F000000, 0x4B800000⟩) := by decide

/-- Section 2.7: the entries go in as they are in generation 1. -/
theorem test_matrix1_gen1 :
    (got (exec (.matrix1 ⟨⟨1, 2, 3⟩, ⟨4, 5, 6⟩, ⟨7, 8, 9⟩⟩ ⟨0xFFFFFFFF, 1, 2⟩) (fresh .gen1))).map
      (fun t => (t.matFix.r1.e2, t.matFix.r2.e1, t.trans.e0)) = some (6, 8, 0xFFFFFFFF) := by decide

/-- The two matrices of section 2.7's rounding vector. -/
def vecA : Mat3 Half := ⟨⟨1, 0, 0⟩, ⟨0, -1, 0⟩, ⟨0x7FFF, 0x7FFF, 0x7FFF⟩⟩

/-- See `vecA`. -/
def vecB : Mat3 Half := ⟨⟨0x2000, 1, 0x7FFF⟩, ⟨0, 0x2000, 0x7FFF⟩, ⟨0x7FFF, 0x7FFF, 0x7FFF⟩⟩

/-- Section 2.7: the floor and the 16-bit wrap. -/
theorem test_matrix2_gen1 :
    (got (exec (.matrix2 vecA vecB (.all 0)) (fresh .gen1))).map State.matFix =
      some ⟨⟨0, 0, 1⟩, ⟨0, -1, -2⟩, ⟨16379, 16381, -12⟩⟩ := by decide

/-- Section 2.7, the bit patterns of generation 2. -/
theorem test_matrix2_gen2 :
    (got (exec (.matrix2 vecA vecB (.all 0)) (fresh .gen2))).map State.matFlt =
      some ⟨⟨0x38000000, 0x31800000, 0x38FFFE00⟩, ⟨0, 0xB8000000, 0xB8FFFE00⟩,
        ⟨0x409FFDC0, 0x409FFEC0, 0x413FFD00⟩⟩ := by decide

/-- Section 2.7. -/
theorem test_lights :
    (got (exec (.lights ⟨16, -16, 256⟩) (fresh .gen1))).map (fun t => (t.light, t.aux)) =
      some (⟨16, -16, 256⟩, .all 0) := by decide

/-- Section 2.7. -/
theorem test_lightl :
    (got (exec (.lightl ⟨1, 2, 3⟩) (fresh .gen2))).map (fun t => (t.light, t.aux)) = some (.all 0, ⟨1, 2, 3⟩) := by
  decide

/-- R175: colour 0 and depth 0x7FFF in the first four bytes of each visible block, the others untouched. -/
theorem test_clear :
    (got (exec .clear { fresh .gen1 with disp := shown 2 1 })).map State.bankB =
      some [(0, 0), (1, 0), (2, 0xFF), (3, 0x7F), (8, 0), (9, 0), (10, 0xFF), (11, 0x7F)] := by decide

/-- Section 2.12's one-pixel quad under a projection centred on pixel (0, 0) (R240). -/
def smallQuad : Quad := ⟨⟨0, 0, 0x200, 0, 0, 0⟩, ⟨1, 0, 0x200, 0, 0, 0⟩, ⟨1, 1, 0x200, 0, 0, 0⟩, ⟨0, 1, 0x200, 0, 0, 0⟩⟩

/-- A cleared 2 × 2 display, the identity matrix, the colour 0x1111, the projection centred on pixel (0, 0). -/
def canvas : State :=
  clear ({ fresh .gen1 with
    cfg := { c1 with projCX := 0, projCY := 0 }
    disp := shown 2 2
    matFix := idFix }.setReg 0 0x1111)

/-- Sections 2.11 and 2.12: the quad writes its colour and depth to its one pixel and leaves the others cleared. -/
theorem test_quad_q10 :
    (got (exec (.quadQ10 smallQuad) canvas)).map (fun t => t.bankB.map Prod.snd) =
      some [0x11, 0x11, 0, 2, 0, 0, 0xFF, 0x7F, 0, 0, 0xFF, 0x7F, 0, 0, 0xFF, 0x7F] := by decide

/-- Section 2.12: the unsupported code is logged and the pixel stays. -/
theorem test_quad_unsupported :
    (got (exec (.quadQ14 smallQuad) (canvas.setReg 0x2F 7))).map (fun t => (t.log, t.bankB == canvas.bankB)) =
      some ([.unsupportedFillMode 7], true) := by decide

/-- Section 2.5. -/
theorem test_unknown_fifo :
    (got (exec (.unknownFifo 0xFF123456) { fresh .gen1 with fifo := [0xFF123456] })).map (fun t => (t.log, t.fifo)) =
      some ([.unknownOpcode 0xFF123456], []) := by decide

/-- A walk at word 2 of the list of section 2.14 that starts in the last column of row 0x30. -/
def crossing : State := { fresh .gen1 with walk := some ⟨0x003001FF, 2, 3, 0⟩ }

/-- Section 2.14: the address in the log is that of the block after the row boundary. -/
theorem test_unknown_model :
    (got (exec (.unknownModel 0xFF000001) crossing)).map (fun t => (t.log, t.walk)) =
      some ([.unknownSubcommand 0x00310000 0xFF000001], some ⟨0x003001FF, 3, 2, 0⟩) := by decide

/-- R196. -/
theorem test_end : (got (exec .endModel crossing)).map State.walk = some none := by decide

/-- Section 2.14: the CHAIN after the sixteen that were followed. -/
theorem test_chain_limit :
    (got (exec (.chain 3 0x00320000) { fresh .gen1 with walk := some ⟨0x00320000, 3, 0, 16⟩ })).map
      (fun t => (t.log, t.walk)) = some ([.chainLimit 0x00320000], none) := by decide

/-- Bank A with words placed from address 0. -/
def listed (ws : List Word) : State := { fresh .gen1 with bankA := storeStream c1 0 0 ws [] }

/-- Section 2.14's list: the REGW16 and the REGW32 run, END stops the walk before the last command. -/
theorem test_drawmodel_runs_list :
    (got (exec (.drawmodel 6 0) (listed [0x17101234, 0x18110000, 0xCAFEBABE, 0x08000000, 0x17125555, 0]))).map
      (fun t => (t.reg 0x10, t.reg 0x11, t.reg 0x12, t.walk)) = some (0x1234, 0xCAFEBABE, 0, none) := by decide

/-- Section 2.14: with two words the REGW32 does not fit and is dropped without a log. -/
theorem test_drawmodel_truncated :
    (got (exec (.drawmodel 2 0) (listed [0x17101234, 0x18110000]))).map (fun t => (t.reg 0x11, t.log)) =
      some (0, []) := by decide

/-! ### Host operations, geometry -/

/-- Section 2.4: a half write under `HALFMODE`. -/
theorem test_half_write :
    (got (step { (((fresh .gen1).setReg 0x10 0x11112222).setReg 0x40 0x00020000) with
      inputs := [.regWrite 0x10 true 0xABCD .w16] })).map (fun t => (t.reg 0x10, t.inputs)) =
    some (0xABCD2222, []) := by decide

/-- Section 2.8: the product of −16377 is floored, and the translation wraps. -/
theorem test_transform :
    let v := transformFix c1 ⟨⟨0x2000, -0x2000, 1⟩, ⟨0x4000, 0x4000, 0⟩, ⟨0, 0, 0x3FFF⟩⟩ ⟨0, 0, 0x7FFFFFFF⟩ (.all 0)
      ⟨3, 5, 7, 0, 0, 0⟩
    (v.x, v.y, v.z) = (-1, 8, -2147483643) := by decide

/-- Section 2.8, lighting: `n = 0x61` decodes to (3, 0, 1). -/
theorem test_lighting :
    (transformFix c1 idFix ⟨0, 0, 1000⟩ ⟨0, 0, 256⟩ ⟨100, 50, 0, 0x61, 0, 0⟩).i = 2 := by decide

/-- Section 2.8, generation 2: the last sum rounds to even. -/
theorem test_transform_gen2 :
    camFlt c1 ⟨0, 0, 0x3F800001⟩ 0x4B800000 (F32.ofInt 3) (F32.ofInt 7) (F32.ofInt 1) = 0x4B800001 := by decide

/-- Section 2.9, the odd numbers: the first and the last cut. -/
theorem test_near_cut :
    (cutFix c1 ⟨-7, 5, 500, 256, 512, 0⟩ ⟨9, -3, 515, 512, 256, 0⟩ = ⟨5, -2, 512, 460, 307, 0⟩) ∧
    (cutFix c1 ⟨-7, 9, 515, 256, 512, 0⟩ ⟨-7, 5, 500, 256, 512, 0⟩).y = 8 := by decide

/-! ### Pixel formats -/

/-- R35: red 31, green 1, blue 2 with bit 15 set in generation 1; the three bytes of a generation-2 colour. -/
theorem test_colour_channels :
    channels c1 0xFC22 = ⟨31, 1, 2⟩ ∧ nonColourBits c1 0xFC22 = 0x8000 ∧ packColour c1 ⟨31, 1, 2⟩ = 0x7C22 ∧
    channels (defaultCfg .gen2) 0xAB102030 = ⟨0x10, 0x20, 0x30⟩ ∧
    nonColourBits (defaultCfg .gen2) 0xAB102030 = 0xAB000000 := by decide

/-- R283: entry 0xFC22 loses bit 15 in generation 1; its channels 31, 1, 2 widen to 255, 8, 16 in generation 2. -/
theorem test_palette_colour :
    ({ (fresh .gen1).poly .textured8 with bankA := [(0, 0x22), (1, 0xFC)] }).pal 0 = 0x7C22 ∧
    ({ (fresh .gen2).poly .textured8 with bankA := [(0, 0x22), (1, 0xFC)] }).pal 0 = 0x00FF0810 := by decide

/-- R81: the even texel of byte 0x21 is 1, and 2 in the other order. R275: the codes and the first unsupported one. -/
theorem test_nibbles_and_fill_codes :
    texelNibble true 0x21 .lowFirst = 1 ∧ texelNibble true 0x21 .highFirst = 2 ∧
    fillModeOfCode defaultFillCodes 3 = some .textured4 ∧ fillModeOfCode defaultFillCodes 4 = some .textured8 ∧
    fillModeOfCode defaultFillCodes 5 = none := by decide

/-- R278: the factor that signals black, by default 0, and another. R41: a configured reset value. -/
theorem test_configured_black_and_reset :
    shade c1 0 0xFC22 = 0 ∧ shade { c1 with pix := { c1.pix with alphaBlack := 255 } } 255 0xFC22 = 0 ∧
    shade { c1 with pix := { c1.pix with alphaBlack := 255 } } 0 0xFC22 = 0x8000 ∧
    (State.resetOf { c1 with reset := { c1.reset with pTex := 5 } }).pTex = 5 := by decide

/-! ### Witnesses: for each statement with hypotheses, a state and operands that meet them -/

theorem test_witness_DecodeReadsBackEncode :
    c1.Wf ∧ (Instr.quadQ14 smallQuad).wf c1 = true ∧ (Instr.quadQ14 smallQuad).inCtx .model = true ∧
      (Instr.quadQ14 smallQuad).underSize .q14 = true ∧ (Instr.matrix1 idFix (.all 0)).wf c1 = true :=
  ⟨defaultCfg_wf _, by decide, by decide, by decide, by decide⟩

/-- Both clauses, at the boundary. -/
theorem test_witness_DecodeTakesExactlyNeed :
    need c1 .fifo .q10 0x01000002 = [0x01000002, 5].length ∧ [0x01000002].length < need c1 .fifo .q10 0x01000002 := by
  decide

/-- A state whose next operation pushes a word behind the given ones. -/
def pushing (g : Gen) (ws : List Word) (w : Word) : State := { fresh g with fifo := ws, inputs := [.fifoPush w] }

theorem test_witness_StepRunsPushedCommand :
    (pushing .gen1 [0x01000002] 9).walk = none ∧ (pushing .gen1 [0x01000002] 9).inputs = .fifoPush 9 :: [] ∧
    decode (pushing .gen1 [0x01000002] 9).cfg .fifo (pushing .gen1 [0x01000002] 9).pQsize
      ((pushing .gen1 [0x01000002] 9).fifo ++ [9]) = .ok (.ptrset 2 9, []) :=
  ⟨rfl, rfl, rfl⟩

theorem test_witness_PartialCommandOnlyBuffers :
    (pushing .gen1 [] 0x01000002).walk = none ∧ (pushing .gen1 [] 0x01000002).inputs = .fifoPush 0x01000002 :: [] ∧
    ∀ w0 ∈ ((pushing .gen1 [] 0x01000002).fifo ++ [0x01000002]).head?,
      ((pushing .gen1 [] 0x01000002).fifo ++ [0x01000002]).length <
        need (pushing .gen1 [] 0x01000002).cfg .fifo (pushing .gen1 [] 0x01000002).pQsize w0 := by
  refine ⟨rfl, rfl, ?_⟩
  intro w0 h
  obtain rfl : (0x01000002 : Word) = w0 := Option.some.inj h
  decide

/-- A walk of a given count at the start of a list in bank A that begins with a CHAIN. -/
def walking (mrem : Nat) : State :=
  { listed [0x0C000005, 0x00320000] with walk := some ⟨0, 0, mrem, 0⟩ }

theorem test_witness_StepRunsListCommand :
    (walking 2).cfg.Wf ∧ (walking 2).walk = some ⟨0, 0, 2, 0⟩ ∧
    need (walking 2).cfg .model (walking 2).pQsize (streamWord (walking 2).cfg (walking 2).bankA 0 0) = 2 ∧
    decode (walking 2).cfg .model (walking 2).pQsize (streamWords (walking 2).cfg (walking 2).bankA 0 0 2) =
      .ok (.chain 5 0x00320000, []) :=
  ⟨defaultCfg_wf _, rfl, by decide, by
    have h : streamWords (walking 2).cfg (walking 2).bankA 0 0 2 = [0x0C000005, 0x00320000] := by decide
    rw [h]; rfl⟩

theorem test_witness_TruncatedSubcommandEndsWalk :
    (walking 1).walk = some ⟨0, 0, 1, 0⟩ ∧
    1 < need (walking 1).cfg .model (walking 1).pQsize (streamWord (walking 1).cfg (walking 1).bankA 0 0) :=
  ⟨rfl, by decide⟩

/-- A state that meets the invariant and has a next operation; the statements about steps from such states. -/
theorem test_witness_StepKeepsInvariant :
    (pushing .gen2 [] 0x01000002).Inv ∧ ∃ t, step (pushing .gen2 [] 0x01000002) = .next t := by
  refine ⟨⟨defaultCfg_wf _, ⟨?_, Or.inr rfl, ⟨by decide, by decide, by decide⟩, by decide⟩,
    ⟨List.Pairwise.nil, by intro p h; exact absurd h List.not_mem_nil⟩,
    ⟨List.Pairwise.nil, by intro p h; exact absurd h List.not_mem_nil⟩,
    ⟨List.Pairwise.nil, by intro p h; exact absurd h List.not_mem_nil, by intro p h; exact absurd h List.not_mem_nil⟩,
    by decide, rfl⟩, ⟨_, rfl⟩⟩
  intro w h
  exact absurd h (by simp [pushing])

theorem test_witness_R42HoldsAlways : (defaultCfg .gen2).Wf ∧ (pushing .gen2 [] 0x01000002).Inv :=
  ⟨defaultCfg_wf _, test_witness_StepKeepsInvariant.1⟩

/-- Also a witness for `OutputsOnlyGrow` and `NoRuleReadsLog`. -/
theorem test_witness_StepKeepsConfiguration :
    ∃ t, step (pushing .gen1 [] 0xFF123456) = .next t ∧ t.log = [.unknownOpcode 0xFF123456] :=
  ⟨_, rfl, rfl⟩

/-- Legality of the configuration is the hypothesis of many statements, and the default layouts of some: this is the
witness for both generations. -/
theorem test_witness_legal_configuration :
    ((fresh .gen1).cfg.Wf ∧ (fresh .gen2).cfg.Wf ∧ canvas.cfg.Wf) ∧
    (∀ g, (defaultCfg g).DefaultEncoding ∧ (defaultCfg g).DefaultRegFields ∧ (defaultCfg g).DefaultPixels ∧
      (defaultCfg g).DefaultReset) ∧
    canvas.cfg.DefaultRegFields :=
  ⟨⟨defaultCfg_wf .gen1, defaultCfg_wf .gen2, { defaultCfg_wf .gen1 with }⟩, fun _ => ⟨⟨rfl, rfl⟩, rfl, rfl, rfl⟩, rfl⟩

theorem test_witness_PtrsetWritesItsSlot :
    (5 : BitVec 24) ∉ [c1.psel.rt, c1.psel.tex, c1.psel.pal, c1.psel.qsize] := by decide

theorem test_witness_Regw16WritesHalf : (0x10 : SlotNo) ∉ c1.slot.active ∧ (0x70 : SlotNo) = c1.slot.fifo := by decide

/-- A slot of each clause, the last data slot of each group among them. -/
theorem test_witness_Regw32WritesSlot :
    (0x7F : SlotNo) ∉ c1.slot.active ∧ (0x70 : SlotNo) = c1.slot.fifo ∧ (0x5A : SlotNo) = addrSlot c1 .bankA ∧
    (0x53 : SlotNo) = addrSlot c1 .bankB ∧ (dataSlots c1 .bankA)[1]? = some 0x59 ∧
    (dataSlots c1 .bankB)[2]? = some 0x52 ∧ (0x62 : SlotNo) ∈ [c1.slot.tTotal, c1.slot.tHvis, c1.slot.tVvis] := by
  decide

theorem test_witness_LatchReadsBlock :
    (fresh .gen1).latchOn .bankA = false ∧ ((fresh .gen1).setReg 0x5B 1).latchOn .bankA = true ∧
    ((0x59 : SlotNo), 1) ∈ usedData c1 .bankA ∧ (0x51 : SlotNo) ∈ (usedData c1 .bankB).map Prod.fst ∧
    (0x52 : SlotNo) ∉ (usedData c1 .bankB).map Prod.fst := by decide

/-- With `TRIG = 2` a group of two data slots never commits; in generation 2 the group of bank B does. -/
theorem test_witness_CommitWritesBlock :
    (dataSlots c1 .bankB)[2]? = some 0x52 ∧ ((fresh .gen1).setReg 0x54 0x22).trig .bankB = 2 ∧
    ¬ 2 < c1.ndata .bankB ∧
    ((fresh .gen2).setReg 0x54 0x22).writeThrough .bankB = true ∧ ((fresh .gen2).setReg 0x54 0x22).trig .bankB = 2 ∧
    2 < (defaultCfg .gen2).ndata .bankB ∧ 12 ∉ laneAddrs32 (defaultCfg .gen2) .bankB 0 2 := by decide

theorem test_witness_Matrix1LoadsGen1 :
    (fresh .gen1).cfg.gen = .gen1 ∧ opOf 0x1C007FFE = c1.op.matrix ∧ lo16 0x1C007FFE ≠ c1.matrixDisc := by decide

/-- First words of the decoding clauses: the discriminator, both forms of LIGHT, DRAWMODEL, QUAD. -/
theorem test_witness_decoding_clauses :
    opOf 0x1C007FFF = c1.op.matrix ∧ lo16 0x1C007FFF = c1.matrixDisc ∧
    opOf 0x237FFFFF = c1.op.light ∧ (0x237FFFFF : Word).getLsbD 23 = false ∧
    opOf 0x23800000 = c1.op.light ∧ (0x23800000 : Word).getLsbD 23 = true ∧
    opOf 0x13FFFFFF = c1.op.drawmodel ∧ opOf 0x38FFFFFF = c1.op.quad := by decide

/-- Also a witness for the two clauses of `Matrix2LoadsProduct`. -/
theorem test_witness_Matrix1LoadsGen2 : (fresh .gen2).cfg.gen = .gen2 ∧ (fresh .gen1).cfg.gen = .gen1 := by decide

theorem test_witness_TransformWrittenOnlyByItsCommands :
    (∃ t, exec (.lights (.all 1)) (fresh .gen1) = .next t) ∧ ∀ n a, Instr.lights (.all 1) ≠ .drawmodel n a :=
  ⟨⟨_, rfl⟩, by intro n a h; cases h⟩

/-- A display of one pixel: its last byte can be drawn, the next byte cannot. -/
theorem test_witness_ClearFillsVisibleRectangle :
    let s : State := { fresh .gen1 with disp := shown 1 1 }
    s.cfg.Wf ∧ 0 < s.disp.visW ∧ 0 < s.disp.visH ∧ s.drawableByte 3 ∧ ¬ s.drawableByte 4 := by
  refine ⟨defaultCfg_wf _, by decide, by decide, ⟨0, ⟨0, 0, by decide, by decide, by decide⟩, by decide⟩, ?_⟩
  rintro ⟨blk, ⟨x, y, hx, hy, rfl⟩, h⟩
  obtain rfl : x = 0 := by have : x < 1 := hx; omega
  obtain rfl : y = 0 := by have : y < 1 := hy; omega
  exact absurd h (by decide)

theorem test_witness_QuadFrame : ¬ (fresh .gen1).drawableByte 0 := by
  rintro ⟨blk, ⟨x, y, hx, hy, rfl⟩, h⟩
  exact absurd hx (Nat.not_lt_zero x)

theorem test_witness_NothingVisibleBeforeTiming : (fresh .gen1).disp.valid = false := rfl

theorem test_witness_EndStopsWalk : (fresh .gen1).cfg.Wf ∧ opOf 0x08ABCDEF = c1.op.endModel :=
  ⟨defaultCfg_wf _, by decide⟩

/-- The last CHAIN that is followed, and the next. -/
theorem test_witness_ChainJumpsUpToLimit :
    ({ fresh .gen1 with walk := some ⟨0, 0, 4, 15⟩ }).walk = some ⟨0, 0, 4, 15⟩ ∧ 15 < c1.maxChain ∧
    ({ fresh .gen1 with walk := some ⟨0, 0, 4, 16⟩ }).walk = some ⟨0, 0, 4, 16⟩ ∧ 16 = c1.maxChain :=
  ⟨rfl, by decide, rfl, rfl⟩

theorem test_witness_UnknownWordIsLoggedAndDropped :
    c1.opKnown .fifo (opOf 0x08000000) = false ∧ c1.opKnown .model (opOf 0x13000002) = false ∧
    crossing.walk = some ⟨0x003001FF, 2, 3, 0⟩ := ⟨by decide, by decide, rfl⟩

/-- Fill code 7 under both policies, a supported code, a quad that is drawn and one that is not. -/
theorem test_witness_QuadRunsPipeline :
    (canvas.setReg 0x2F 7).fillMode = none ∧ canvas.cfg.unsupportedFill = .skip ∧
    ({ canvas.cfg with unsupportedFill := .solid }).unsupportedFill = .solid ∧
    canvas.fillMode = some .solid ∧ canvas.screenOf smallQuad.list ≠ none ∧
    (fresh .gen1).screenOf smallQuad.list = none ∧ canvas.cfg.gen = .gen1 ∧ (fresh .gen2).cfg.gen = .gen2 := by decide

/-- Both generations after reset, where every vertex goes to the origin; a supported and an unsupported fill code. -/
theorem test_witness_QuadBehindPlaneIsDropped :
    (∀ v ∈ smallQuad.list,
      (transformFix (fresh .gen1).cfg (fresh .gen1).matFix (fresh .gen1).trans (fresh .gen1).light v).z <
        (fresh .gen1).cfg.nearZ) ∧ (fresh .gen1).cfg.gen ≠ .gen2 ∧
    (∀ v ∈ smallQuad.list,
      fGe (fresh .gen2).cfg (transformFlt (fresh .gen2).cfg (fresh .gen2).matFlt (fresh .gen2).trans v).z
        (fOfInt (fresh .gen2).cfg (fresh .gen2).cfg.nearZ) = false) ∧ (fresh .gen2).cfg.gen ≠ .gen1 ∧
    (fresh .gen2).fillMode = some .solid ∧
    ((fresh .gen2).setReg 0x2F 5).fillMode = none := by decide

/-- A finite translation that is not a zero, the smallest subnormal, and one that is, the negative zero. -/
theorem test_witness_TransformOfOriginIsTranslation :
    finiteRow ⟨0x7F7FFFFF, 1, 0⟩ 1 ∧ F32.magUnits 1 ≠ 0 ∧ finiteRow (.all 0) 0x80000000 ∧
    F32.magUnits 0x80000000 = 0 ∧ c1.f32 = .standard ∧ c1.fxFrac = 14 ∧ c1.fxRound = .standard ∧
    c1.lightIntensity = .standard := by
  unfold finiteRow
  decide

theorem test_witness_ClipKeepsOrDropsWholePolygon :
    (∀ v ∈ [1, 4], (fun n : Nat => decide (5 ≤ n)) v = false) ∧ (∀ v ∈ [5, 6], (fun n : Nat => decide (5 ≤ n)) v = true) ∧
    (∀ v ∈ [(⟨0, 0, 511, 0, 0, 0⟩ : CamFix)], v.z < c1.nearZ) ∧ (∀ v ∈ [(⟨0, 0, 512, 0, 0, 0⟩ : CamFix)], c1.nearZ ≤ v.z) ∧
    fGe c1 0x43FFFFFF (fOfInt c1 512) = false ∧ fGe c1 0x44000000 (fOfInt c1 512) = true := by decide

theorem test_witness_ClippedVerticesAreInFront :
    (⟨0, 0, 512, 0, 0, 0⟩ : CamFix) ∈ clipNear (insideFix c1) (cutFix c1) [⟨0, 0, 512, 0, 0, 0⟩] := by decide

theorem test_witness_RectangleCoversItsPixels :
    let v (x y : Int) : ScreenVertex := ⟨x, y, 0, 0, 0, 0⟩
    (0 : Int) < 2 ∧ (v 0 0).sx = 0 * 2 ^ 4 ∧ (v 32 0).sx = 2 * 2 ^ 4 ∧ (v 32 32).sy = 2 * 2 ^ 4 ∧
    triangleCovers (v 0 0) (v 32 0) (v 32 32) (1 * 2 ^ 4) (0 * 2 ^ 4) = true := by decide

theorem test_witness_InterpolationStaysBetween :
    let v (x y : Int) : ScreenVertex := ⟨x, y, 0, 0, 0, 0⟩
    0 < edgeFn (v 0 0) (v 32 0) 32 32 ∧ triangleCovers (v 0 0) (v 32 0) (v 32 32) 16 0 = true ∧ (1 : Int) ≤ 1 ∧ (1 : Int) ≤ 9 := by
  decide

theorem test_witness_TriangleDrawsEachPixelOnce :
    let p := canvas.poly .solid
    p.cfg.Wf ∧ p.visW ≤ p.cfg.bW ∧ p.visH ≤ p.cfg.bH ∧ 1 < p.visW ∧ 1 < p.visH ∧
    7 ∉ pixelAddrs p.cfg (pixelBlock p.cfg p.rbase 0 0) ∧ 3 ∈ pixelAddrs p.cfg (pixelBlock p.cfg p.rbase 0 0) :=
  ⟨test_witness_legal_configuration.1.2.2, by decide, by decide, by decide, by decide,
    by decide, by decide⟩

/-- The three cases of a triangle of the same statement: no area, one winding and the other. -/
theorem test_witness_TriangleDrawsEachPixelOnce_area :
    let v (x y : Int) : ScreenVertex := ⟨x, y, 0, 0, 0, 0⟩
    edgeFn (v 0 0) (v 1 0) 2 0 = 0 ∧ edgeFn (v 0 0) (v 1 0) 1 1 = 1 ∧ edgeFn (v 0 0) (v 1 1) 1 0 = -1 := by decide

/-- Depths at the boundary: equal passes, one more than the stored depth does not. -/
theorem test_witness_DepthTestDecidesWrite :
    let p := canvas.poly .solid
    p.mode ≠ .solidFixedDepth ∧ (p.depth 0x7FFF).toNat ≤ (pixDepth p.cfg canvas.bankB 0).toNat ∧
    p.colour (pixColor p.cfg canvas.bankB 0) 0 0 0 = some 0x1111 ∧
    (pixDepth p.cfg (setPixel p.cfg canvas.bankB 0 0 5) 0).toNat < (p.depth 6).toNat ∧
    (canvas.poly .solidFixedDepth).mode = .solidFixedDepth ∧ 4 ∉ pixelAddrs p.cfg 0 := by decide

/-- Texel 0 of an 8-bit texture at address 0 is 1, the transparent index. -/
theorem test_witness_TransparentTexelLeavesPixel :
    let p : Poly := { canvas.poly .textured8 with bankA := [(0, 1)], transEn := true, transIdx := 1 }
    (p.mode = .textured4 ∨ p.mode = .textured8) ∧ p.transEn = true ∧ (256 : Int) = 2 ^ p.cfg.pix.uvFrac ∧
    p.texel (0 / 256) (255 / 256) = p.transIdx ∧ (canvas.poly .textured4).mode = .textured4 ∧
    p.cfg.pix.nibbles = .lowFirst := by
  decide

/-- Texel 0 is not transparent while transparency is off, nor when the index is another; an index of 16. -/
theorem test_witness_BilinearAtCentreIsTexel :
    let p : Poly := { canvas.poly .textured4 with bankA := [(0, 1)], transIdx := 16 }
    ¬ (p.transEn = true ∧ p.texel 0 0 = p.transIdx) ∧
    ¬ (({ p with transEn := true }).transEn = true ∧ ({ p with transEn := true }).texel 0 0 = 16) ∧
    p.mode = .textured4 ∧ 16 ≤ p.transIdx ∧ 255 < 2 ^ c1.pix.uvFrac ∧ c1.gen = .gen1 ∧ (defaultCfg .gen2).gen = .gen2 := by decide

theorem test_witness_ShadeScalesChannels :
    255 < 2 ^ c1.pix.alphaFrac ∧ 255 ≠ c1.pix.alphaBlack ∧ 0 < 2 ^ c1.pix.alphaFrac := by decide

/-- The last block and the last lanes of a bank. -/
theorem test_witness_TranslationNeverFails :
    511 < (defaultCfg .gen2).height .bankB ∧ 511 < (defaultCfg .gen2).width .bankB := by decide

theorem test_witness_LaneWriteReadsBack :
    7 < c1.blockBytes .bankA ∧ 3 < c1.blockBytes .bankA / 2 ∧ 1 < c1.blockBytes .bankA / 4 ∧
    blockNum c1 .bankA 0x07FF01FF ≠ blockNum c1 .bankA 0 := by decide

/-- A state under `HALFMODE` with one operation to come. -/
def halfOp (op : HostOp) : State := { (fresh .gen1).setReg 0x40 0x00020000 with inputs := [op] }

theorem test_witness_HostWriteByWidth :
    (halfOp (.regWrite 0x10 true 1 .w16)).walk = none ∧ (halfOp (.regWrite 0x10 true 1 .w16)).cfg.gen = .gen1 ∧
    (halfOp (.regWrite 0x10 true 1 .w16)).halfMode = true ∧ (0x10 : SlotNo) ≠ c1.slot.fifo ∧
    (fresh .gen1).halfMode = false ∧ (fresh .gen2).cfg.gen ≠ .gen1 := by decide

theorem test_witness_HostPushesThroughPort :
    (halfOp (.regWrite 0x70 true 0x25000000 .w32)).walk = none ∧
    (halfOp (.regWrite 0x70 true 0x25000000 .w32)).inputs = .regWrite c1.slot.fifo true 0x25000000 .w32 :: [] :=
  ⟨rfl, rfl⟩

theorem test_witness_HostReadHasNoEffect :
    (halfOp (.regRead 0x10 true .w16)).walk = none ∧
    (halfOp (.regRead 0x10 true .w16)).inputs = .regRead 0x10 true .w16 :: [] := ⟨rfl, rfl⟩

theorem test_witness_ScanoutCopiesRows : canvas.disp.visW ≤ 65535 ∧ 1 < canvas.disp.visW := by decide

/-- A state with a display and one line to come. -/
def lineOp (d : Disp) (beam : Nat) : State := { fresh .gen1 with disp := d, beamRow := beam, inputs := [.hLine] }

/-- No geometry; the last line but one; the last line. -/
theorem test_witness_HLineAdvancesBeam :
    (lineOp .none 0).walk = none ∧ (lineOp .none 0).inputs = .hLine :: [] ∧ (lineOp .none 0).disp.valid = false ∧
    (lineOp (shown 2 2) 260).disp.valid = true ∧ 260 + 1 < (lineOp (shown 2 2) 260).disp.vtotal ∧
    (lineOp (shown 2 2) 261).disp.vtotal ≤ 261 + 1 :=
  ⟨rfl, rfl, rfl, rfl, by decide, by decide⟩

/-- The host's store into the control slot, as a half access and as a full one. -/
theorem test_witness_InterruptLineFollowsEnable :
    (halfOp (.regWrite 0x40 true 0x200 .w16)).walk = none ∧
    (halfOp (.regWrite 0x40 true 0x200 .w16)).inputs = .regWrite c1.slot.ctrl true 0x200 .w16 :: [] ∧
    (halfOp (.regWrite 0x40 true 0x200 .w16)).halfMode = true ∧ (fresh .gen1).halfMode = false :=
  ⟨rfl, rfl, by decide, by decide⟩

/-- A write that makes the configuration acceptable and one that does not; a beam inside the window and one above it. -/
theorem test_witness_TimingWriteRetimes :
    let s := ((fresh .gen1).setReg 0x60 0x01060200).setReg 0x61 0x01900000
    (0x62 : SlotNo) ∈ [c1.slot.tTotal, c1.slot.tHvis, c1.slot.tVvis] ∧
    (s.setReg 0x62 0x00F00000).timing.acceptable = true ∧ (s.setReg 0x62 0x01070000).timing.acceptable = false ∧
    (lineOp (shown 2 2) 1).rowsDue = true ∧ (lineOp (shown 2 2) 0).rowsDue = false := by decide

end Sys2Proof.Tests
end

section
/-! PROOF. The scope of the Core (00_scope.md): every step answers a next state (R5), and none changes the configuration
(R2). Both follow from one principle, `StepClosed.step`: what relates a state to the result of each part of a step
relates it to a next state of the whole step. -/

namespace Sys2Proof.Machine

/-! ### What a step answers, from its parts -/

/-- A relation that every part of a step respects: the commands, the stores, the display line, the host's read, and the
fields the sequencing of a step sets by itself. -/
structure StepClosed (R : State → State → Prop) : Prop where
  refl : ∀ s, R s s
  trans : ∀ {s t u}, R s t → R t u → R s u
  effect : ∀ i s, R s (effect i s)
  setReg : ∀ slot v s, R s (s.setReg slot v)
  sideEffect : ∀ slot s, R s (sideEffect slot s)
  hLine : ∀ s, R s (hLine s)
  regRead : ∀ slot high w s, R s (regRead slot high w s)
  fifo : ∀ ws (s : State), R s { s with fifo := ws }
  inputs : ∀ ops (s : State), R s { s with inputs := ops }
  walk : ∀ k (s : State), R s { s with walk := k }

/-- The outcome is a next state, in relation `R` to the state before. -/
def NextIn (R : State → State → Prop) (s : State) (o : Host.Outcome State Fault Refusal) : Prop :=
  ∃ t, o = .next t ∧ R s t

/-- Work done before an operation is part of what leads to its next state. -/
theorem StepClosed.nextIn_after {R : State → State → Prop} (h : StepClosed R) {s t : State}
    {o : Host.Outcome State Fault Refusal} (hst : R s t) (ho : NextIn R t o) : NextIn R s o := by
  obtain ⟨u, hu, htu⟩ := ho
  exact ⟨u, hu, h.trans hst htu⟩

/-- A push (R145). -/
theorem StepClosed.fifoPush {R : State → State → Prop} (h : StepClosed R) (w : Word) (s : State) :
    NextIn R s (fifoPush w s) := by
  have hpush : R s { s with fifo := s.fifo ++ [w] } := h.fifo _ s
  rcases fifoPush_cases w s with ⟨_, _, hrest⟩ | ⟨i, _, _, hrun⟩
  · exact ⟨_, hrest, hpush⟩
  · exact ⟨_, hrun, h.trans hpush (h.trans (h.effect i _) (h.fifo [] _))⟩

/-- The host's side effect of a store (R142, R144). -/
theorem StepClosed.hostSideEffect {R : State → State → Prop} (h : StepClosed R) (slot : SlotNo) (s : State) :
    NextIn R s (hostSideEffect slot s) := by
  rcases hostSideEffect_cases slot s with hport | hother
  · rw [hport]
    exact h.fifoPush _ s
  · exact ⟨_, hother, h.sideEffect slot s⟩

/-- A register write of the host, as a half access or a full one (R140, R141). -/
theorem StepClosed.regWrite {R : State → State → Prop} (h : StepClosed R) (slot : SlotNo) (high : Bool) (v : Word)
    (w : Width) (s : State) : NextIn R s (regWrite slot high v w s) := by
  have hstore : ∀ x, NextIn R s (Machine.hostSideEffect slot (s.setReg slot x)) := fun x =>
    h.nextIn_after (h.setReg slot x s) (h.hostSideEffect slot _)
  unfold Machine.regWrite
  by_cases hhalf : s.halfAccess w = true
  · rw [if_pos hhalf]
    cases high
    case true => exact ⟨_, rfl, h.setReg slot _ s⟩
    case false => exact hstore _
  · rw [if_neg hhalf]
    exact hstore _

/-- An operation of the environment (R10, R12). -/
theorem StepClosed.hostOp {R : State → State → Prop} (h : StepClosed R) (op : HostOp) (s : State) :
    NextIn R s (hostOp op s) := by
  cases op with
  | regWrite slot high v w => exact h.regWrite slot high v w s
  | regRead slot high w => exact ⟨_, rfl, h.regRead slot high w s⟩
  | fifoPush w => exact h.fifoPush w s
  | hLine => exact ⟨_, rfl, h.hLine s⟩

/-- The walker's move past a sub-command (R192). -/
theorem StepClosed.atSub {R : State → State → Prop} (h : StepClosed R) (s : State) (k : Walker) (i : Instr) (n : Nat) :
    R s (s.atSub k i n) := by
  unfold State.atSub
  split
  · exact h.refl s
  · exact h.walk _ s

/-- A turn of a walk (R192, R194). -/
theorem StepClosed.walkStep {R : State → State → Prop} (h : StepClosed R) (k : Walker) (s : State) :
    NextIn R s (walkStep k s) := by
  unfold Machine.walkStep
  by_cases hend : k.mrem = 0
  · rw [if_pos hend]
    exact ⟨_, rfl, h.walk none s⟩
  · rw [if_neg hend]
    cases s.subAt k with
    | none => exact ⟨_, rfl, h.walk none s⟩
    | some p =>
      obtain ⟨i, n⟩ := p
      exact ⟨_, exec_eq i _, h.trans (h.atSub s k i n) (h.effect i _)⟩

/-- Every step answers a next state, in relation to the state before by whatever relation its parts respect. -/
theorem StepClosed.step {R : State → State → Prop} (h : StepClosed R) (s : State) : NextIn R s (step s) := by
  cases hw : s.walk with
  | some k =>
    rw [step_walk hw]
    exact h.walkStep k s
  | none =>
    cases hi : s.inputs with
    | nil => exact ⟨s, step_idle hw hi, h.refl s⟩
    | cons op rest =>
      rw [step_op hw hi]
      exact h.nextIn_after (h.inputs rest s) (h.hostOp op _)

/-- The next state of a step is the one it answers. -/
theorem StepClosed.of_step {R : State → State → Prop} (h : StepClosed R) {s t : State} (hst : Machine.step s = .next t) :
    R s t := by
  obtain ⟨u, hu, hsu⟩ := h.step s
  obtain rfl : u = t := by simpa [hu] using hst
  exact hsu

/-! ### No operation stops (R5, R330) -/

/-- The relation that always holds: of `StepClosed.step` it leaves that there is a next state. -/
theorem stepClosed_true : StepClosed (fun _ _ => True) := by
  constructor <;> intros <;> trivial

/-- Settles O8: an instruction's next state is its effect; a step answers one by `StepClosed.step`. -/
theorem noOperationStops : Obligations.NoOperationStops := by
  refine ⟨fun i s => ⟨effect i s, exec_eq i s⟩, fun s => ?_⟩
  obtain ⟨t, ht, -⟩ := stepClosed_true.step s
  exact ⟨t, ht⟩

/-! ### The configuration (R2, R6) -/

theorem hLine_cfg (s : State) : (hLine s).cfg = s.cfg := by
  unfold hLine
  repeat' split
  all_goals rfl

/-- Every part of a step keeps the configuration. -/
theorem stepClosed_cfg : StepClosed (fun s t => t.cfg = s.cfg) where
  refl _ := rfl
  trans hst htu := htu.trans hst
  effect := effect_cfg
  setReg slot v s := setReg_cfg s slot v
  sideEffect slot s := sideEffect_cfg s slot
  hLine := hLine_cfg
  regRead _ _ _ _ := rfl
  fifo _ _ := rfl
  inputs _ _ := rfl
  walk _ _ := rfl

/-- Settles O12: the configuration is kept by every part of a step, and so by the step. -/
theorem stepKeepsConfiguration : Obligations.StepKeepsConfiguration :=
  fun _ _ hst => stepClosed_cfg.of_step hst

end Sys2Proof.Machine
end

section
/-! PROOF. The state after reset and between operations (10_state.md): reset leaves the configured values (R41) and meets
the invariant; every step keeps it (R42). The invariant is the part a command can touch, `State.dataInv`, which every part
of a step keeps, and the part that says an operation has come to its end, `State.atRest`. -/

namespace Sys2Proof.Machine

/-! ### The invariant in two parts -/

/-- An operation has come to its end: no walk is in progress (R10), and the command in the buffer is a known one with words
still to come (R42 (a)). -/
structure State.atRest (s : State) : Prop where
  no_walk : s.walk = none
  pending : s.pendingIncomplete

theorem atRest_of_slotFrame {s t : State} (h : s.atRest) (hf : t.slotFrame = s.slotFrame) : t.atRest := by
  have hwalk : t.walk = s.walk := congrArg SlotFrame.walk hf
  have hfifo : t.fifo = s.fifo := congrArg SlotFrame.fifo hf
  have hcfg : t.cfg = s.cfg := congrArg SlotFrame.cfg hf
  have hq : t.pQsize = s.pQsize := congrArg SlotFrame.pQsize hf
  refine ⟨hwalk.trans h.no_walk, ?_⟩
  unfold State.pendingIncomplete
  rw [hfifo, hcfg, hq]
  exact h.pending

/-- No command is longer than fourteen words, so an incomplete one has at most thirteen in the buffer (R29, R42 (d)). -/
theorem pendingIncomplete_fifo_le {s : State} (hc : s.cfg.Wf) (h : s.pendingIncomplete) : s.fifo.length ≤ 13 := by
  unfold State.pendingIncomplete at h
  cases hf : s.fifo with
  | nil => simp
  | cons w0 r =>
    rw [hf] at h
    have hlt := (h w0 rfl).2
    have hle : need s.cfg .fifo s.pQsize w0 ≤ 14 := hc.count_le _
    omega

theorem quadSize_words (q : QuadSize) : q.words = 10 ∨ q.words = 14 := by
  cases q
  · exact .inl rfl
  · exact .inr rfl

theorem inv_iff {s : State} : s.Inv ↔ s.dataInv ∧ s.atRest := by
  constructor
  · intro h
    exact ⟨⟨h.cfg_wf, h.bankA_ok, h.bankB_ok, ⟨h.r42.display, h.out_ok, h.visW_le⟩⟩, ⟨h.no_walk, h.r42.pending⟩⟩
  · rintro ⟨hd, hr⟩
    have hr42 : s.r42 :=
      ⟨hr.pending, quadSize_words _, hd.display.display, pendingIncomplete_fifo_le hd.cfg_wf hr.pending⟩
    exact ⟨hd.cfg_wf, hr42, hd.bankA_ok, hd.bankB_ok, hd.display.out_ok, hd.display.visW_le, hr.no_walk⟩

/-! ### The part a command can touch -/

/-- A line of the display beam leaves both banks alone (R147). -/
theorem hLine_mem (s : State) (bk : Bank) : (hLine s).mem bk = s.mem bk := by
  unfold hLine
  repeat' split
  all_goals cases bk <;> rfl

theorem hLine_dataInv {s : State} (h : s.dataInv) : (hLine s).dataInv := by
  have hA : (hLine s).bankA = s.bankA := hLine_mem s .bankA
  have hB : (hLine s).bankB = s.bankB := hLine_mem s .bankB
  refine ⟨?_, ?_, ?_, hLine_displayInv h.display⟩
  · rw [hLine_cfg]
    exact h.cfg_wf
  · rw [hLine_cfg, hA]
    exact h.bankA_ok
  · rw [hLine_cfg, hB]
    exact h.bankB_ok

/-- Every part of a step keeps banks, display and bitmap in form. -/
theorem stepClosed_dataInv : StepClosed (fun s t => s.dataInv → t.dataInv) where
  refl _ h := h
  trans hst htu h := htu (hst h)
  effect i _ h := effect_dataInv h i
  setReg slot v _ h := setReg_dataInv h slot v
  sideEffect slot _ h := sideEffect_dataInv h slot
  hLine _ h := hLine_dataInv h
  regRead _ _ _ _ h := dataInv_congr h rfl rfl rfl rfl rfl rfl rfl
  fifo _ _ h := dataInv_congr h rfl rfl rfl rfl rfl rfl rfl
  inputs _ _ h := dataInv_congr h rfl rfl rfl rfl rfl rfl rfl
  walk _ _ h := dataInv_congr h rfl rfl rfl rfl rfl rfl rfl

/-! ### The part that says an operation has ended -/

/-- Outside a walk no command of a list begins one. -/
theorem runSub_walk_none (i : Instr) {s : State} (h : s.walk = none) : (runSub i s).walk = none := by
  cases i
  case endModel => rfl
  case chain count addr => simp [runSub, chain, h]
  case unknownModel w => simp [runSub, unknownModel, h]
  all_goals exact (runSub_walk _ s (by simp) (by simp) (by simp)).trans h

/-- Outside a walk an instruction runs to its end: a DRAWMODEL's walk has ended when it returns (R10, R192). -/
theorem effect_walk_none (i : Instr) {s : State} (h : s.walk = none) : (effect i s).walk = none := by
  have hsub := runSub_walk_none i h
  cases i
  case drawmodel count addr => exact drawmodel_walk count addr s
  case unknownFifo w => exact h
  all_goals exact hsub

/-- Words that are no complete command are fewer than the first of them needs (R110). -/
theorem length_lt_need_of_decode_error {c : Cfg} {ctx : Ctx} {q : QuadSize} {w0 : Word} {r : List Word} {e : DecodeError}
    (h : decode c ctx q (w0 :: r) = .error e) : (w0 :: r).length < need c ctx q w0 := by
  simp only [decode] at h
  split at h
  · assumption
  · simp at h

/-- A word with an unknown opcode byte is a command by itself (R115, R120). -/
theorem opKnown_of_one_lt_need {c : Cfg} {ctx : Ctx} {q : QuadSize} {w0 : Word} (h : 1 < need c ctx q w0) :
    c.opKnown ctx (opOf w0) = true := by
  by_contra hknown
  have hunknown : c.opKnown ctx (opOf w0) = false := by simpa using hknown
  have hformat : formatOf c ctx q w0 = .unknown := by simp [formatOf, hunknown]
  have hone : need c ctx q w0 = 1 := congrArg c.count hformat
  omega

/-- Words the decoder finds incomplete may rest in the buffer (R42 (a)). -/
theorem pendingIncomplete_of_decode_error {s : State} {e : DecodeError}
    (h : decode s.cfg .fifo s.pQsize s.fifo = .error e) : s.pendingIncomplete := by
  unfold State.pendingIncomplete
  cases hf : s.fifo with
  | nil => simp
  | cons w0 r =>
    rintro _ ⟨⟩
    rw [hf] at h
    have hlt := length_lt_need_of_decode_error h
    have hlen : (w0 :: r).length = r.length + 1 := rfl
    exact ⟨opKnown_of_one_lt_need (q := s.pQsize) (by omega), hlt⟩

/-- An empty buffer holds no command. -/
theorem pendingIncomplete_of_fifo_nil {s : State} (h : s.fifo = []) : s.pendingIncomplete := by
  simp [State.pendingIncomplete, h]

/-- A push leaves the words of an incomplete command, or runs a complete one and leaves the buffer empty (R145). -/
theorem fifoPush_atRest (w : Word) {s : State} (h : s.walk = none) : NextIn (fun _ t => t.atRest) s (fifoPush w s) := by
  rcases fifoPush_cases w s with ⟨e, hd, hrest⟩ | ⟨i, r, -, hrun⟩
  · exact ⟨_, hrest, h, pendingIncomplete_of_decode_error hd⟩
  · exact ⟨_, hrun, effect_walk_none i h, pendingIncomplete_of_fifo_nil rfl⟩

theorem hostSideEffect_atRest (slot : SlotNo) {s : State} (h : s.atRest) :
    NextIn (fun _ t => t.atRest) s (hostSideEffect slot s) := by
  rcases hostSideEffect_cases slot s with hport | hother
  · rw [hport]
    exact fifoPush_atRest _ h.no_walk
  · exact ⟨_, hother, atRest_of_slotFrame h (sideEffect_slotFrame s slot)⟩

theorem setReg_atRest {s : State} (h : s.atRest) (slot : SlotNo) (v : Word) : (s.setReg slot v).atRest :=
  atRest_of_slotFrame h rfl

theorem regWrite_atRest (slot : SlotNo) (high : Bool) (v : Word) (w : Width) {s : State} (h : s.atRest) :
    NextIn (fun _ t => t.atRest) s (regWrite slot high v w s) := by
  unfold regWrite
  by_cases hhalf : s.halfAccess w = true
  · rw [if_pos hhalf]
    cases high
    case true => exact ⟨_, rfl, setReg_atRest h slot _⟩
    case false => exact hostSideEffect_atRest slot (setReg_atRest h slot _)
  · rw [if_neg hhalf]
    exact hostSideEffect_atRest slot (setReg_atRest h slot _)

theorem hLine_slotFrame (s : State) : (hLine s).slotFrame = s.slotFrame := by
  unfold hLine
  repeat' split
  all_goals rfl

/-- Every operation of the environment comes to its end (R10, R42 (a)). -/
theorem hostOp_atRest (op : HostOp) {s : State} (h : s.atRest) : NextIn (fun _ t => t.atRest) s (hostOp op s) := by
  cases op with
  | regWrite slot high v w => exact regWrite_atRest slot high v w h
  | regRead slot high w => exact ⟨_, rfl, h.no_walk, h.pending⟩
  | fifoPush w => exact fifoPush_atRest w h.no_walk
  | hLine => exact ⟨_, rfl, atRest_of_slotFrame h (hLine_slotFrame s)⟩

theorem step_atRest {s t : State} (h : s.atRest) (hst : step s = .next t) : t.atRest := by
  cases hi : s.inputs with
  | nil =>
    obtain rfl : s = t := by simpa [step_idle h.no_walk hi] using hst
    exact h
  | cons op rest =>
    have hready : ({ s with inputs := rest } : State).atRest := ⟨h.no_walk, h.pending⟩
    obtain ⟨u, hu, hrest⟩ := hostOp_atRest op hready
    obtain rfl : u = t := by simpa [step_op h.no_walk hi, hu] using hst
    exact hrest

/-! ### After reset, and after every step -/

/-- Settles O60: the reset state is read off field by field; by the default values each configured one is zero. -/
theorem resetLeavesTable : Obligations.ResetLeavesTable := by
  rintro c i _ rfl
  refine ⟨⟨rfl, rfl, rfl, rfl, rfl, rfl, rfl, rfl, rfl, rfl, rfl, rfl⟩,
    ⟨rfl, rfl, rfl, fun hc => hc.reset_invalid, fun _ => ⟨rfl, rfl⟩, rfl⟩, fun hdefault => ?_⟩
  have hreset : c.reset = defaultReset c.gen := hdefault
  have hreg : ∀ j, (State.resetOf c).reg j = 0 := by
    intro j
    simp [State.reg, State.resetOf, hreset, defaultReset]
  have hqsize : (State.resetOf c).pQsize.words = if c.gen = .gen1 then 10 else 14 := by
    simp only [State.resetOf, hreset]
    cases c.gen <;> rfl
  have hirq : (State.resetOf c).irqFifo = false := by
    simp [State.irqFifo, hreg]
  refine ⟨hreg i, ?_, ?_, hqsize, ?_, ?_, ?_, ?_, ?_, ?_, ?_, hirq⟩
  all_goals simp [State.resetOf, hreset, defaultReset, Disp.none]

theorem resetOf_displayInv {c : Cfg} (h : c.Wf) : (State.resetOf c).displayInv := by
  have hvalid : (State.resetOf c).disp.valid = false := h.reset_invalid
  refine ⟨⟨Nat.zero_le _, ?_, ?_⟩, ⟨.nil, ?_, ?_⟩, ?_⟩
  · simp [hvalid]
  · simp [hvalid]
  · simp [State.resetOf]
  · simp [State.resetOf]
  · simp [Disp.visW, hvalid]

/-- After reset under a legal configuration nothing is written, nothing is visible and nothing waits (R41, R42). -/
theorem resetOf_inv {c : Cfg} (h : c.Wf) : (State.resetOf c).Inv := by
  obtain ⟨hA, hB⟩ := resetOf_mem_wf c
  have hdata : (State.resetOf c).dataInv :=
    ⟨h, ⟨hA, by simp [State.resetOf]⟩, ⟨hB, by simp [State.resetOf]⟩, resetOf_displayInv h⟩
  exact inv_iff.2 ⟨hdata, rfl, pendingIncomplete_of_fifo_nil rfl⟩

/-- Settles O9. -/
theorem resetMeetsInvariant : Obligations.ResetMeetsInvariant :=
  ⟨fun _ hc => resetOf_inv hc, resetOf_inv (defaultCfg_wf .gen1)⟩

/-- Settles O10: each of the two parts of the invariant is kept. -/
theorem stepKeepsInvariant : Obligations.StepKeepsInvariant := by
  intro s t hs hst
  obtain ⟨hdata, hrest⟩ := inv_iff.1 hs
  exact inv_iff.2 ⟨stepClosed_dataInv.of_step hst hdata, step_atRest hrest hst⟩

/-- Settles O11: R42's conditions are part of the invariant. -/
theorem r42HoldsAlways : Obligations.R42HoldsAlways :=
  ⟨fun _ hc => (resetOf_inv hc).r42, fun s t hs hst => (stepKeepsInvariant s t hs hst).r42⟩

end Sys2Proof.Machine
end

section
/-! PROOF. The log is an output (R33): from two states that differ in the log alone every part of a step does the same and
appends the same events. `LogBlind` says this of a function on states; it is kept by composition and by a choice that
does not look at the log, and so passes from the parts to the step. -/

namespace Sys2Proof.Machine

/-! ### Functions that do not read the log -/

/-- The state with another log. -/
def State.withLog (s : State) (l : List Event) : State := { s with log := l }

/-- A function that does not read the log: whatever the log is, it does the same and appends the same events (R33). -/
def LogBlind (f : State → State) : Prop :=
  ∀ s : State, ∃ e, ∀ l, f (s.withLog l) = (f s).withLog (l ++ e)

/-- An operation that does not read the log: on states that differ in the log alone it answers the next state of one
function that does not (R33). -/
def LogBlindOp (F : State → Host.Outcome State Fault Refusal) : Prop :=
  ∀ s : State, ∃ f, LogBlind f ∧ ∀ l, F (s.withLog l) = .next (f (s.withLog l))

/-- What a function that does not read the log makes of the log itself. -/
theorem LogBlind.log_append {f : State → State} (hf : LogBlind f) (s : State) :
    ∃ e, (f s).log = s.log ++ e ∧ ∀ l, f (s.withLog l) = (f s).withLog (l ++ e) := by
  obtain ⟨e, he⟩ := hf s
  exact ⟨e, congrArg State.log (he s.log), he⟩

/-- A function that leaves the log as it is, whatever it is. -/
theorem LogBlind.of_commutes {f : State → State} (h : ∀ (s : State) l, f (s.withLog l) = (f s).withLog l) : LogBlind f :=
  fun s => ⟨[], fun l => by rw [h, List.append_nil]⟩

theorem LogBlind.id : LogBlind fun s => s := .of_commutes fun _ _ => rfl

theorem LogBlind.comp {f g : State → State} (hg : LogBlind g) (hf : LogBlind f) : LogBlind fun s => g (f s) := by
  intro s
  obtain ⟨e, he⟩ := hf s
  obtain ⟨e', he'⟩ := hg (f s)
  refine ⟨e ++ e', fun l => ?_⟩
  show g (f (s.withLog l)) = (g (f s)).withLog (l ++ (e ++ e'))
  rw [he, he', List.append_assoc]

/-- A choice between functions that the log does not decide. -/
theorem LogBlind.of_branch {f : State → State} 
    (h : ∀ s : State, ∃ g, LogBlind g ∧ ∀ l, f (s.withLog l) = g (s.withLog l)) : LogBlind f := by
  intro s
  obtain ⟨g, hg, hfg⟩ := h s
  obtain ⟨e, he⟩ := hg s
  refine ⟨e, fun l => ?_⟩
  have hs : f s = g s := hfg s.log
  rw [hfg, he, hs]

theorem LogBlind.ite {p : State → Prop} [DecidablePred p] {f g : State → State}
    (hp : ∀ s l, p (State.withLog s l) ↔ p s) (hf : LogBlind f) (hg : LogBlind g) :
    LogBlind fun s => if p s then f s else g s := by
  refine .of_branch fun s => ?_
  by_cases h : p s
  · exact ⟨f, hf, fun l => if_pos ((hp s l).2 h)⟩
  · exact ⟨g, hg, fun l => if_neg fun hl => h ((hp s l).1 hl)⟩

theorem LogBlindOp.next {f : State → State} (hf : LogBlind f) : LogBlindOp fun s => .next (f s) :=
  fun _ => ⟨f, hf, fun _ => rfl⟩

theorem LogBlindOp.after {F : State → Host.Outcome State Fault Refusal} {f : State → State} (hF : LogBlindOp F)
    (hf : LogBlind f) : LogBlindOp fun s => F (f s) := by
  intro s
  obtain ⟨e, he⟩ := hf s
  obtain ⟨g, hg, hFg⟩ := hF (f s)
  refine ⟨fun s => g (f s), hg.comp hf, fun l => ?_⟩
  show F (f (s.withLog l)) = .next (g (f (s.withLog l)))
  rw [he, hFg]

/-! ### Slot writes, the walker's field -/

theorem logBlind_setWalk (k : Option Walker) : LogBlind fun s => { s with walk := k } := .of_commutes fun _ _ => rfl

/-- A store of a value that the log does not decide. -/
theorem logBlind_setReg (slot : SlotNo) {v : State → Word} (hv : ∀ s l, v (State.withLog s l) = v s) :
    LogBlind fun s => s.setReg slot (v s) :=
  .of_commutes fun s l => congrArg (fun x => (s.withLog l).setReg slot x) (hv s l)

theorem logBlind_autoIncrement (bk : Bank) : LogBlind (autoIncrement bk) :=
  .ite (fun _ _ => .rfl) (.of_commutes fun _ _ => rfl) .id

theorem logBlind_loadData (bk : Bank) : LogBlind (loadData bk) := by
  refine .of_commutes fun s l => ?_
  have hmem : (s.withLog l).mem bk = s.mem bk := by cases bk <;> rfl
  unfold loadData
  rw [hmem]
  exact List.foldl_hom (fun t => State.withLog t l) (fun _ _ => rfl)

theorem logBlind_latch (bk : Bank) : LogBlind (latch bk) :=
  .ite (fun _ _ => .rfl) ((logBlind_autoIncrement bk).comp (logBlind_loadData bk)) .id

theorem logBlind_storeData (bk : Bank) : LogBlind (storeData bk) :=
  .of_commutes fun _ _ => by cases bk <;> rfl

theorem logBlind_commit (bk : Bank) (j : Nat) : LogBlind (commit bk j) :=
  .ite (fun _ _ => .rfl) ((logBlind_autoIncrement bk).comp (logBlind_storeData bk)) .id

theorem logBlind_retimeScanout : LogBlind retimeScanout :=
  .ite (fun _ _ => .rfl) (fun s => ⟨[.scanout s.scanRow s.rowsPassed true], fun _ => rfl⟩) .id

/-- The new configuration, if it is acceptable, is taken from the registers (R314, R315). -/
theorem logBlind_retime : LogBlind retime := by
  have htake : LogBlind fun s => if s.timing.acceptable then reconfigure s.timing s else s :=
    .ite (fun _ _ => .rfl) (fun s => ⟨[s.timing.event], fun _ => rfl⟩) .id
  exact htake.comp logBlind_retimeScanout

theorem logBlind_sideEffect (slot : SlotNo) : LogBlind (sideEffect slot) :=
  .ite (fun _ _ => .rfl) .id <| .ite (fun _ _ => .rfl) (logBlind_latch .bankA) <|
  .ite (fun _ _ => .rfl) (logBlind_latch .bankB) <| .ite (fun _ _ => .rfl) (logBlind_commit .bankA 0) <|
  .ite (fun _ _ => .rfl) (logBlind_commit .bankA 1) <| .ite (fun _ _ => .rfl) (logBlind_commit .bankB 0) <|
  .ite (fun _ _ => .rfl) (logBlind_commit .bankB 1) <| .ite (fun _ _ => .rfl) (logBlind_commit .bankB 2) <|
  .ite (fun _ _ => .rfl) logBlind_retime <| .ite (fun _ _ => .rfl) logBlind_retime <|
  .ite (fun _ _ => .rfl) logBlind_retime .id

theorem logBlind_storeSlot (slot : SlotNo) (v : Word) : LogBlind (storeSlot slot v) :=
  (logBlind_sideEffect slot).comp (logBlind_setReg slot fun _ _ => rfl)

theorem logBlind_storeHalf (high : Bool) (slot : SlotNo) (h : Half) : LogBlind (storeHalf high slot h) := by
  have hstore : LogBlind fun s => s.setReg slot (replaceHalf (s.reg slot) high h) :=
    logBlind_setReg slot fun _ _ => rfl
  cases high
  case true => exact hstore
  case false => exact (logBlind_sideEffect slot).comp hstore

/-! ### Commands -/

/-- An event that the log does not decide is appended, whatever stands before it. -/
theorem logBlind_logEvent {ev : State → Event} (hev : ∀ s l, ev (State.withLog s l) = ev s) :
    LogBlind fun s => s.logEvent (ev s) :=
  fun s => ⟨[ev s], fun l => congrArg (fun e => (s.withLog l).logEvent e) (hev s l)⟩

theorem logBlind_ptrset (sel : BitVec 24) (data : Word) : LogBlind (ptrset sel data) := by
  have hpage : LogBlind fun s => storeSlot s.cfg.slot.page data s :=
    .of_branch fun s => ⟨storeSlot s.cfg.slot.page data, logBlind_storeSlot _ data, fun _ => rfl⟩
  exact .ite (fun _ _ => .rfl) hpage <| .ite (fun _ _ => .rfl) (.of_commutes fun _ _ => rfl) <|
    .ite (fun _ _ => .rfl) (.of_commutes fun _ _ => rfl) <| .ite (fun _ _ => .rfl) (.of_commutes fun _ _ => rfl) <|
    logBlind_logEvent fun _ _ => rfl

theorem logBlind_matrix1 (m : Mat3 Half) (t : Vec3 Word) : LogBlind (matrix1 m t) := by
  refine .of_commutes fun s l => ?_
  have hcfg : (s.withLog l).cfg = s.cfg := rfl
  unfold matrix1
  rw [hcfg]
  cases s.cfg.gen <;> rfl

theorem logBlind_matrix2 (a b : Mat3 Half) (t : Vec3 Word) : LogBlind (matrix2 a b t) := by
  refine .of_commutes fun s l => ?_
  have hcfg : (s.withLog l).cfg = s.cfg := rfl
  unfold matrix2
  rw [hcfg]
  cases s.cfg.gen <;> rfl

theorem logBlind_logFillMode : LogBlind logFillMode := by
  refine .of_branch fun s => ?_
  cases hm : s.fillMode with
  | some m =>
    have hml : ∀ l, (s.withLog l).fillMode = some m := fun _ => hm
    exact ⟨_, .id, fun l => by simp only [logFillMode, hml]⟩
  | none =>
    have hml : ∀ l, (s.withLog l).fillMode = none := fun _ => hm
    exact ⟨fun t => t.logEvent (.unsupportedFillMode t.fillCode), logBlind_logEvent fun _ _ => rfl,
      fun l => by simp only [logFillMode, hml]⟩

/-- What a QUAD logs and draws is decided by registers, pointers, transform state, display and banks (R201). -/
theorem logBlind_drawQuad (vin : List InVertex) : LogBlind (drawQuad vin) := by
  refine .of_branch fun s => ?_
  cases hm : s.drawMode with
  | none =>
    have hml : ∀ l, (s.withLog l).drawMode = none := fun _ => hm
    exact ⟨logFillMode, logBlind_logFillMode, fun l => by simp only [drawQuad, hml]⟩
  | some mode =>
    have hml : ∀ l, (s.withLog l).drawMode = some mode := fun _ => hm
    cases hv : s.screenOf vin with
    | none =>
      have hvl : ∀ l, (s.withLog l).screenOf vin = none := fun _ => hv
      exact ⟨logFillMode, logBlind_logFillMode, fun l => by simp only [drawQuad, hml, hvl]⟩
    | some scr =>
      have hvl : ∀ l, (s.withLog l).screenOf vin = some scr := fun _ => hv
      have hdraw : LogBlind fun t => { t with bankB := (s.poly mode).rasterFan scr s.bankB } :=
        .of_commutes fun _ _ => rfl
      refine ⟨_, hdraw.comp logBlind_logFillMode, fun l => ?_⟩
      have hpoly : (s.withLog l).poly mode = s.poly mode := rfl
      have hbank : (s.withLog l).bankB = s.bankB := rfl
      simp only [drawQuad, hml, hvl, hpoly, hbank]

/-- A function that holds the state where no walk is in progress, and for each walk is one that does not read the log. -/
theorem LogBlind.of_walk {f : State → State} (hnone : ∀ s, s.walk = none → f s = s)
    (hsome : ∀ k, ∃ g, LogBlind g ∧ ∀ s, s.walk = some k → f s = g s) : LogBlind f := by
  refine .of_branch fun s => ?_
  cases hw : s.walk with
  | none => exact ⟨_, .id, fun l => hnone (s.withLog l) hw⟩
  | some k =>
    obtain ⟨g, hg, hfg⟩ := hsome k
    exact ⟨g, hg, fun l => hfg (s.withLog l) hw⟩

theorem logBlind_chain (count : Half) (addr : Word) : LogBlind (chain count addr) := by
  refine .of_walk (fun s hw => by simp only [chain, hw]) fun k => ⟨fun s =>
    if s.cfg.maxChain ≤ k.mchain then { s.logEvent (.chainLimit addr) with walk := none }
    else { s with walk := some { mp := addr, k := 0, mrem := count.toNat, mchain := k.mchain + 1 } }, ?_,
    fun s hw => by simp only [chain, hw]⟩
  exact .ite (fun _ _ => .rfl) (fun _ => ⟨[.chainLimit addr], fun _ => rfl⟩) (logBlind_setWalk _)

theorem logBlind_unknownModel (w : Word) : LogBlind (unknownModel w) := by
  refine .of_walk (fun s hw => by simp only [unknownModel, hw]) fun k => ⟨fun s =>
    { s.logEvent (.unknownSubcommand (streamAddr s.cfg k.mp k.k) w) with
      walk := some { k with k := k.k + 1, mrem := k.mrem - 1 } }, ?_, fun s hw => by simp only [unknownModel, hw]⟩
  exact fun s => ⟨[.unknownSubcommand (streamAddr s.cfg k.mp k.k) w], fun _ => rfl⟩

theorem logBlind_runSub (i : Instr) : LogBlind (runSub i) := by
  cases i
  case ptrset sel data => exact logBlind_ptrset sel data
  case endModel => exact logBlind_setWalk none
  case chain count addr => exact logBlind_chain count addr
  case regw16 high slot data => exact logBlind_storeHalf high slot data
  case regw32 slot data => exact logBlind_storeSlot slot data
  case matrix1 m t => exact logBlind_matrix1 m t
  case matrix2 a b t => exact logBlind_matrix2 a b t
  case lights l => exact .of_commutes fun _ _ => rfl
  case lightl a => exact .of_commutes fun _ _ => rfl
  case clear => exact .of_commutes fun _ _ => rfl
  case quadQ10 q => exact logBlind_drawQuad q.list
  case quadQ14 q => exact logBlind_drawQuad q.list
  case unknownModel w => exact logBlind_unknownModel w
  case drawmodel count addr => exact .id
  case unknownFifo w => exact .id

/-! ### The walker -/

theorem logBlind_atSub (k : Walker) (i : Instr) (n : Nat) : LogBlind fun s => s.atSub k i n :=
  .of_commutes fun _ _ => by cases i <;> rfl

/-- A turn reads its sub-command from bank A (R192). -/
theorem logBlind_walkTurn : LogBlind walkTurn := by
  refine .of_branch fun s => ?_
  cases hw : s.walk with
  | none =>
    have hwl : ∀ l, (s.withLog l).walk = none := fun _ => hw
    exact ⟨_, .id, fun l => by simp only [walkTurn, hwl]⟩
  | some k =>
    have hwl : ∀ l, (s.withLog l).walk = some k := fun _ => hw
    by_cases hrem : k.mrem = 0
    · exact ⟨_, logBlind_setWalk none, fun l => by simp only [walkTurn, hwl, if_pos hrem]⟩
    cases hsub : s.subAt k with
    | none =>
      have hsubl : ∀ l, (s.withLog l).subAt k = none := fun _ => hsub
      exact ⟨_, logBlind_setWalk none, fun l => by simp only [walkTurn, hwl, if_neg hrem, hsubl]⟩
    | some p =>
      obtain ⟨i, n⟩ := p
      have hsubl : ∀ l, (s.withLog l).subAt k = some (i, n) := fun _ => hsub
      exact ⟨_, (logBlind_runSub i).comp (logBlind_atSub k i n), fun l => by
        simp only [walkTurn, hwl, if_neg hrem, hsubl]⟩

theorem logBlind_walkLoop (n : Nat) : LogBlind (walkLoop n) := by
  induction n with
  | zero => exact .id
  | succ n ih =>
    exact .of_walk (fun s hw => by simp only [walkLoop, hw]) fun k =>
      ⟨_, ih.comp logBlind_walkTurn, fun s hw => by simp only [walkLoop, hw]⟩

theorem logBlind_drawmodel (count : Half) (addr : Word) : LogBlind (drawmodel count addr) := 
  .of_branch fun s => ⟨_, (logBlind_walkLoop (walkBound s.cfg)).comp (logBlind_setWalk _), fun _ => rfl⟩

theorem logBlind_effect (i : Instr) : LogBlind (effect i) := by
  have hsub := logBlind_runSub i
  cases i
  case drawmodel count addr => exact logBlind_drawmodel count addr
  case unknownFifo w => exact fun _ => ⟨[.unknownOpcode w], fun _ => rfl⟩
  all_goals exact hsub

/-! ### Operations of the environment -/

theorem logBlind_hLine : LogBlind hLine := by
  have hframe : LogBlind frameEnd := fun s =>
    ⟨[.scanout s.scanRow s.disp.visH false, .frame], fun l => by
      simp [frameEnd, scanout, State.logEvent, State.withLog, State.dbase, State.reg]⟩
  have hwrap : LogBlind fun s => { s with beamRow := 0 } := .of_commutes fun _ _ => rfl
  exact .ite (fun _ _ => .rfl) .id <| .ite (fun _ _ => .rfl) (.of_commutes fun _ _ => rfl) <| hwrap.comp hframe

/-- A push decodes the buffer (R145). -/
theorem logBlindOp_fifoPush (w : Word) : LogBlindOp (fifoPush w) := by
  have hpush : LogBlind fun s => { s with fifo := s.fifo ++ [w] } := .of_commutes fun _ _ => rfl
  have hempty : LogBlind fun s => { s with fifo := [] } := .of_commutes fun _ _ => rfl
  intro s
  cases hd : decode s.cfg .fifo s.pQsize (s.fifo ++ [w]) with
  | error e =>
    refine ⟨_, hpush, fun l => ?_⟩
    have hdl : decode (s.withLog l).cfg .fifo (s.withLog l).pQsize ((s.withLog l).fifo ++ [w]) = .error e := hd
    simp only [fifoPush, hdl]
  | ok p =>
    obtain ⟨i, r⟩ := p
    refine ⟨_, hempty.comp ((logBlind_effect i).comp hpush), fun l => ?_⟩
    have hdl : decode (s.withLog l).cfg .fifo (s.withLog l).pQsize ((s.withLog l).fifo ++ [w]) = .ok (i, r) := hd
    simp only [fifoPush, hdl, exec_eq, clearFifo]

/-- The push port pushes the slot's content, which the log does not decide (R144). -/
theorem logBlindOp_hostSideEffect (slot : SlotNo) : LogBlindOp (hostSideEffect slot) := by
  intro s
  by_cases hport : slot = s.cfg.slot.fifo
  · obtain ⟨f, hf, hpush⟩ := logBlindOp_fifoPush (s.reg slot) s
    exact ⟨f, hf, fun l => (hostSideEffect_fifo (s := s.withLog l) hport).trans (hpush l)⟩
  · exact ⟨_, logBlind_sideEffect slot, fun _ => hostSideEffect_ne hport⟩

theorem logBlindOp_regWrite (slot : SlotNo) (high : Bool) (v : Word) (w : Width) :
    LogBlindOp (regWrite slot high v w) := by
  have hhalf : LogBlind fun s => s.setReg slot (replaceHalf (s.reg slot) high (lo16 v)) :=
    logBlind_setReg slot fun _ _ => rfl
  have hfull : LogBlind fun s => s.setReg slot v := logBlind_setReg slot fun _ _ => rfl
  intro s
  by_cases hacc : s.halfAccess w = true
  · have haccl : ∀ l, (s.withLog l).halfAccess w = true := fun _ => hacc
    cases high
    case true => exact ⟨_, hhalf, fun l => by simp only [regWrite, haccl, if_true]⟩
    case false =>
      obtain ⟨f, hf, hrun⟩ := (logBlindOp_hostSideEffect slot).after hhalf s
      exact ⟨f, hf, fun l => by rw [← hrun]; simp [regWrite, haccl]⟩
  · have haccl : ∀ l, ¬ (s.withLog l).halfAccess w = true := fun _ => hacc
    obtain ⟨f, hf, hrun⟩ := (logBlindOp_hostSideEffect slot).after hfull s
    exact ⟨f, hf, fun l => by rw [← hrun]; simp [regWrite, haccl]⟩

theorem logBlindOp_hostOp (op : HostOp) : LogBlindOp (hostOp op) := by
  cases op with
  | regWrite slot high v w => exact logBlindOp_regWrite slot high v w
  | regRead slot high w => exact .next (.of_commutes fun _ _ => rfl)
  | fifoPush w => exact logBlindOp_fifoPush w
  | hLine => exact .next logBlind_hLine

theorem logBlindOp_walkStep (k : Walker) : LogBlindOp (walkStep k) := by
  intro s
  by_cases hrem : k.mrem = 0
  · exact ⟨_, logBlind_setWalk none, fun l => by simp only [walkStep, if_pos hrem]⟩
  cases hsub : s.subAt k with
  | none =>
    have hsubl : ∀ l, (s.withLog l).subAt k = none := fun _ => hsub
    exact ⟨_, logBlind_setWalk none, fun l => by simp only [walkStep, if_neg hrem, hsubl]⟩
  | some p =>
    obtain ⟨i, n⟩ := p
    have hsubl : ∀ l, (s.withLog l).subAt k = some (i, n) := fun _ => hsub
    exact ⟨_, (logBlind_effect i).comp (logBlind_atSub k i n), fun l => by
      simp only [walkStep, if_neg hrem, hsubl, exec_eq]⟩

theorem logBlindOp_step : LogBlindOp step := by
  intro s
  cases hw : s.walk with
  | some k =>
    obtain ⟨f, hf, hturn⟩ := logBlindOp_walkStep k s
    exact ⟨f, hf, fun l => (step_walk (s := s.withLog l) hw).trans (hturn l)⟩
  | none =>
    cases hi : s.inputs with
    | nil => exact ⟨_, .id, fun l => step_idle (s := s.withLog l) hw hi⟩
    | cons op rest =>
      have htake : LogBlind fun s => { s with inputs := rest } := .of_commutes fun _ _ => rfl
      obtain ⟨f, hf, hop⟩ := (logBlindOp_hostOp op).after htake s
      exact ⟨f, hf, fun l => (step_op (s := s.withLog l) hw hi).trans (hop l)⟩

/-- Settles O14: the step is made of parts that do not read the log. -/
theorem noRuleReadsLog : Obligations.NoRuleReadsLog := by
  intro s t l hst
  obtain ⟨f, hf, hstep⟩ := logBlindOp_step s
  obtain ⟨e, hlog, hother⟩ := hf.log_append s
  obtain rfl : f s = t := by simpa [show step s = .next (f s) from hstep s.log] using hst
  exact ⟨e, hlog, (hstep l).trans (congrArg _ (hother l))⟩

end Sys2Proof.Machine
end

section
/-! PROOF. The streams only grow (R13, R33): the log by `NoRuleReadsLog`, the replies and the announcements because every
part of a step leaves what stands in them in place. -/

namespace Sys2Proof.Machine

/-- What a relation says of every sub-command of a list and of the fields the sequencing sets, it says of every
instruction: a DRAWMODEL is a sequence of sub-commands (R160, R192). -/
theorem rel_effect_of_runSub {R : State → State → Prop} (hrefl : ∀ s, R s s)
    (htrans : ∀ {s t u}, R s t → R t u → R s u) (hwalk : ∀ k (s : State), R s { s with walk := k })
    (hunknown : ∀ w s, R s (unknownFifo w s)) (hsub : ∀ i s, R s (runSub i s)) (i : Instr) (s : State) :
    R s (effect i s) := by
  have hat : ∀ s k i n, R s (s.atSub k i n) := by
    intro s k i n
    unfold State.atSub
    split
    · exact hrefl s
    · exact hwalk _ s
  have hturn : ∀ s, R s (walkTurn s) := by
    intro s
    unfold walkTurn
    repeat' split
    · exact hrefl s
    · exact hwalk none s
    · exact hwalk none s
    · exact htrans (hat s _ _ _) (hsub _ _)
  have hloop : ∀ n s, R s (walkLoop n s) := by
    intro n
    induction n with
    | zero => exact hrefl
    | succ n ih =>
      intro s
      unfold walkLoop
      split
      · exact hrefl s
      · exact htrans (hturn s) (ih _)
  have hi := hsub i s
  cases i
  case drawmodel count addr => exact htrans (hwalk _ s) (hloop _ _)
  case unknownFifo w => exact hunknown w s
  all_goals exact hi

/-- The replies to the host and the announcements of a state stand first in those of a later one (R13). -/
structure OutputsGrow (s t : State) : Prop where
  replies : s.replies <+: t.replies
  announced : s.announced <+: t.announced

theorem OutputsGrow.of_eq {s t : State} (hr : t.replies = s.replies) (ha : t.announced = s.announced) :
    OutputsGrow s t :=
  ⟨hr ▸ List.prefix_refl _, ha ▸ List.prefix_refl _⟩

theorem OutputsGrow.trans {s t u : State} (hst : OutputsGrow s t) (htu : OutputsGrow t u) : OutputsGrow s u :=
  ⟨hst.replies.trans htu.replies, hst.announced.trans htu.announced⟩

theorem retimeScanout_announced (s : State) : (retimeScanout s).announced = s.announced := by
  unfold retimeScanout
  split <;> rfl

/-- A retime announces at most the geometry it takes (R314, R316). -/
theorem retime_announced (s : State) : s.announced <+: (retime s).announced := by
  rcases retime_cases s with h | ⟨-, h⟩ <;> rw [h]
  · rw [retimeScanout_announced]
  · exact (List.prefix_append _ _).trans (by rw [reconfigure, retimeScanout_announced])

theorem sideEffect_announced (slot : SlotNo) (s : State) : s.announced <+: (sideEffect slot s).announced := by
  rcases sideEffect_cases s slot with h | ⟨bk, -, h⟩ | ⟨bk, j, -, h⟩ | ⟨-, h⟩ <;> rw [h]
  · rw [latch_proj s State.announced (fun _ _ _ => rfl) bk]
  · rw [commit_proj s State.announced (fun _ _ _ => rfl) bk (fun t m => setMem_announced t bk m) j]
  · exact retime_announced s

theorem sideEffect_outputsGrow (slot : SlotNo) (s : State) : OutputsGrow s (sideEffect slot s) :=
  ⟨by rw [sideEffect_replies], sideEffect_announced slot s⟩

theorem setReg_outputsGrow (slot : SlotNo) (v : Word) (s : State) : OutputsGrow s (s.setReg slot v) := .of_eq rfl rfl

theorem storeSlot_outputsGrow (slot : SlotNo) (v : Word) (s : State) : OutputsGrow s (storeSlot slot v s) :=
  (setReg_outputsGrow slot v s).trans (sideEffect_outputsGrow slot _)

theorem storeHalf_outputsGrow (high : Bool) (slot : SlotNo) (h : Half) (s : State) :
    OutputsGrow s (storeHalf high slot h s) := by
  cases high
  case true => exact setReg_outputsGrow slot _ s
  case false => exact (setReg_outputsGrow slot _ s).trans (sideEffect_outputsGrow slot _)

theorem ptrset_outputsGrow (sel : BitVec 24) (data : Word) (s : State) : OutputsGrow s (ptrset sel data s) := by
  unfold ptrset
  repeat' split
  · exact storeSlot_outputsGrow _ data s
  all_goals exact .of_eq rfl rfl

theorem drawQuad_outputsGrow (vin : List InVertex) (s : State) : OutputsGrow s (drawQuad vin s) := by
  obtain ⟨e, he⟩ := drawQuad_eq vin s
  rw [he]
  exact .of_eq rfl rfl

theorem runSub_outputsGrow (i : Instr) (s : State) : OutputsGrow s (runSub i s) := by
  cases i
  case ptrset sel data => exact ptrset_outputsGrow sel data s
  case regw16 high slot data => exact storeHalf_outputsGrow high slot data s
  case regw32 slot data => exact storeSlot_outputsGrow slot data s
  case quadQ10 q => exact drawQuad_outputsGrow _ s
  case quadQ14 q => exact drawQuad_outputsGrow _ s
  case matrix1 m t =>
    show OutputsGrow s (matrix1 m t s)
    unfold matrix1
    split <;> exact .of_eq rfl rfl
  case matrix2 a b t =>
    show OutputsGrow s (matrix2 a b t s)
    unfold matrix2
    split <;> exact .of_eq rfl rfl
  case chain count addr =>
    show OutputsGrow s (chain count addr s)
    unfold chain
    repeat' split
    all_goals exact .of_eq rfl rfl
  case unknownModel w =>
    show OutputsGrow s (unknownModel w s)
    unfold unknownModel
    split <;> exact .of_eq rfl rfl
  all_goals exact .of_eq rfl rfl

theorem hLine_outputsGrow (s : State) : OutputsGrow s (hLine s) := by
  unfold hLine
  repeat' split
  all_goals exact .of_eq rfl rfl

theorem stepClosed_outputsGrow : StepClosed OutputsGrow where
  refl _ := .of_eq rfl rfl
  trans := .trans
  effect := rel_effect_of_runSub (fun _ => .of_eq rfl rfl) .trans (fun _ _ => .of_eq rfl rfl) (fun _ _ => .of_eq rfl rfl)
    runSub_outputsGrow
  setReg := setReg_outputsGrow
  sideEffect := sideEffect_outputsGrow
  hLine := hLine_outputsGrow
  regRead _ _ _ _ := ⟨List.prefix_append _ _, List.prefix_refl _⟩
  fifo _ _ := .of_eq rfl rfl
  inputs _ _ := .of_eq rfl rfl
  walk _ _ := .of_eq rfl rfl

/-- Settles O13: a step appends events to the log, and its parts leave replies and announcements in place. -/
theorem outputsOnlyGrow : Obligations.OutputsOnlyGrow := by
  intro s t hst
  obtain ⟨e, hlog, -⟩ := noRuleReadsLog s t s.log hst
  obtain ⟨hreplies, hannounced⟩ := stepClosed_outputsGrow.of_step hst
  exact ⟨hlog ▸ List.prefix_append _ _, hreplies, hannounced⟩

end Sys2Proof.Machine
end

section
/-! PROOF. The transform state (R28) and its three writers: MATRIX, LIGHTS and LIGHTL each write their own part, and no
other command of a list writes any. -/

namespace Sys2Proof.Machine

/-- The transform state: the matrix of each generation, the translation, the light vector, the secondary point (R28). -/
structure TransformState where
  matFix : Mat3 Half
  matFlt : Mat3 Word
  trans : Vec3 Word
  light : Vec3 Half
  aux : Vec3 Word

/-- See `TransformState`. -/
def State.transform (s : State) : TransformState := ⟨s.matFix, s.matFlt, s.trans, s.light, s.aux⟩

/-- A slot write and its side effect leave the transform state alone (R142). -/
theorem transform_of_slotFrame {s t : State} (h : t.slotFrame = s.slotFrame) : t.transform = s.transform :=
  congrArg (fun f : SlotFrame => TransformState.mk f.matFix f.matFlt f.trans f.light f.aux) h

theorem ptrset_transform (sel : BitVec 24) (data : Word) (s : State) : (ptrset sel data s).transform = s.transform := by
  unfold ptrset
  repeat' split
  · exact transform_of_slotFrame (storeSlot_slotFrame s _ data)
  all_goals rfl

theorem drawQuad_transform (vin : List InVertex) (s : State) : (drawQuad vin s).transform = s.transform := by
  obtain ⟨e, he⟩ := drawQuad_eq vin s
  rw [he]
  rfl

theorem chain_transform (count : Half) (addr : Word) (s : State) : (chain count addr s).transform = s.transform := by
  unfold chain
  repeat' split
  all_goals rfl

theorem unknownModel_transform (w : Word) (s : State) : (unknownModel w s).transform = s.transform := by
  unfold unknownModel
  split <;> rfl

/-- A MATRIX of either form writes the matrix of the generation and the translation, no more (R168 to R170). -/
theorem matrix1_light_aux (m : Mat3 Half) (v : Vec3 Word) (s : State) :
    (matrix1 m v s).light = s.light ∧ (matrix1 m v s).aux = s.aux := by
  unfold matrix1
  split <;> exact ⟨rfl, rfl⟩

theorem matrix2_light_aux (a b : Mat3 Half) (v : Vec3 Word) (s : State) :
    (matrix2 a b v s).light = s.light ∧ (matrix2 a b v s).aux = s.aux := by
  unfold matrix2
  split <;> exact ⟨rfl, rfl⟩

/-- An instruction that writes no transform state, and is no DRAWMODEL, leaves all of it as it was (R28). -/
theorem effect_transform {i : Instr} (s : State) (hdraw : ∀ n a, i ≠ .drawmodel n a) (hm1 : ∀ m v, i ≠ .matrix1 m v)
    (hm2 : ∀ a b v, i ≠ .matrix2 a b v) (hlights : ∀ l, i ≠ .lights l) (hlightl : ∀ a, i ≠ .lightl a) :
    (effect i s).transform = s.transform := by
  cases i
  case drawmodel n a => exact absurd rfl (hdraw n a)
  case matrix1 m v => exact absurd rfl (hm1 m v)
  case matrix2 a b v => exact absurd rfl (hm2 a b v)
  case lights l => exact absurd rfl (hlights l)
  case lightl a => exact absurd rfl (hlightl a)
  case ptrset sel data => exact ptrset_transform sel data s
  case regw16 high slot data => exact transform_of_slotFrame (storeHalf_slotFrame s high slot data)
  case regw32 slot data => exact transform_of_slotFrame (storeSlot_slotFrame s slot data)
  case quadQ10 q => exact drawQuad_transform _ s
  case quadQ14 q => exact drawQuad_transform _ s
  case chain count addr => exact chain_transform count addr s
  case unknownModel w => exact unknownModel_transform w s
  all_goals rfl

/-- Settles O26: the four writers by what each leaves alone, every other instruction by `effect_transform`. -/
theorem transformWrittenOnlyByItsCommands : Obligations.TransformWrittenOnlyByItsCommands := by
  intro i s t hexec hdraw
  obtain rfl : effect i s = t := by simpa [exec_eq] using hexec
  have hrest := effect_transform (i := i) s hdraw
  simp only [State.transform, TransformState.mk.injEq] at hrest
  cases i
  case matrix1 m v =>
    obtain ⟨hlight, haux⟩ := matrix1_light_aux m v s
    exact ⟨fun h => absurd rfl (h m v), fun _ => hlight, fun _ => haux⟩
  case matrix2 a b v =>
    obtain ⟨hlight, haux⟩ := matrix2_light_aux a b v s
    exact ⟨fun _ h => absurd rfl (h a b v), fun _ => hlight, fun _ => haux⟩
  case lights l => exact ⟨fun _ _ => ⟨rfl, rfl, rfl⟩, fun h => absurd rfl (h l), fun _ => rfl⟩
  case lightl a => exact ⟨fun _ _ => ⟨rfl, rfl, rfl⟩, fun _ => rfl, fun h => absurd rfl (h a)⟩
  all_goals
    obtain ⟨hfix, hflt, htrans, hlight, haux⟩ := hrest (by simp) (by simp) (by simp) (by simp)
    exact ⟨fun _ _ => ⟨hfix, hflt, htrans⟩, fun _ => hlight, fun _ => haux⟩

end Sys2Proof.Machine
end

section
/-! PROOF. The memory (20_memory.md): the address translator (R72 to R74), the lanes of a block (R75 to R78), and the
indirect access of a bank through its group of slots (R85 to R87). -/

namespace Sys2Proof.Machine

/-! ### The address translator (R72 to R74) -/

section Translation

variable {c : Cfg} {bk : Bank}

/-- The linear block number an advance reaches lies in the bank. -/
theorem advance_lin_lt (h : c.Wf) (bk : Bank) (k : Nat) : k % (c.width bk * c.height bk) < c.width bk * c.height bk :=
  Nat.mod_lt _ (Nat.mul_pos (h.width_pos bk) (h.height_pos bk))

/-- The row and the column of an advanced address are those of the linear block number it reaches (R74). -/
theorem row_col_advance (h : c.Wf) (bk : Bank) (a : Word) (n : Nat) :
    row c bk (advance c bk a n) = (blockNum c bk a + n) % (c.width bk * c.height bk) / c.width bk ∧
      col c bk (advance c bk a n) = (blockNum c bk a + n) % (c.width bk * c.height bk) % c.width bk :=
  row_col_mkAddr h bk (Nat.div_lt_of_lt_mul (advance_lin_lt h bk _)) (Nat.mod_lt _ (h.width_pos bk))

theorem blockNum_advance (h : c.Wf) (bk : Bank) (a : Word) (n : Nat) :
    blockNum c bk (advance c bk a n) = (blockNum c bk a + n) % (c.width bk * c.height bk) := by
  obtain ⟨hrow, hcol⟩ := row_col_advance h bk a n
  rw [blockNum, hrow, hcol, Nat.div_add_mod']

theorem advance_normal (h : c.Wf) (bk : Bank) (a : Word) (n : Nat) :
    advance c bk a n = mkAddr c (row c bk (advance c bk a n)) (col c bk (advance c bk a n)) := by
  obtain ⟨hrow, hcol⟩ := row_col_advance h bk a n
  rw [hrow, hcol, advance]

end Translation

/-- Settles O49, by the bounds of row and column and by reading a normal-form address back. -/
theorem translationNeverFails : Obligations.TranslationNeverFails := by
  intro c bk a h
  refine ⟨?_, fun y x hy hx => row_col_mkAddr h bk hy hx⟩
  rw [Nat.mul_comm]
  exact blockNum_lt h bk a

/-- Settles O50: an advance is a normal-form address of the linear block number, which lies in the bank. -/
theorem advanceIsLinear : Obligations.AdvanceIsLinear :=
  fun _ bk a n h => ⟨blockNum_advance h bk a n, advance_normal h bk a n⟩

/-! ### A lane written leaves the other lanes (R78) -/

section Lanes

variable {c : Cfg} {bk : Bank} {blk blk' k k' : Nat}

theorem lane8_setLane8_ne (h : c.Wf) (m : Memory) (v : Byte) (hk : k < c.blockBytes bk) (hk' : k' < c.blockBytes bk)
    (e : blk' ≠ blk ∨ k' ≠ k) : lane8 c bk (setLane8 c bk m blk k v) blk' k' = lane8 c bk m blk' k' :=
  lane8_congr fun _ ha => setLane8_get_ne m v (laneAddrs8_disjoint h hk hk' e ha)

theorem lane16_setLane16_ne (h : c.Wf) (m : Memory) (v : Half) (hk : k < c.blockBytes bk / 2)
    (hk' : k' < c.blockBytes bk / 2) (e : blk' ≠ blk ∨ k' ≠ k) :
    lane16 c bk (setLane16 c bk m blk k v) blk' k' = lane16 c bk m blk' k' :=
  lane16_congr fun _ ha => setLane16_get_ne m v (laneAddrs16_disjoint h hk hk' e ha)

theorem lane32_setLane32_ne (h : c.Wf) (m : Memory) (v : Word) (hk : k < c.blockBytes bk / 4)
    (hk' : k' < c.blockBytes bk / 4) (e : blk' ≠ blk ∨ k' ≠ k) :
    lane32 c bk (setLane32 c bk m blk k v) blk' k' = lane32 c bk m blk' k' :=
  lane32_congr fun _ ha => setLane32_get_ne m v (laneAddrs32_disjoint h hk hk' e ha)

end Lanes

/-- Settles O51, width by width: a lane reads back, and the bytes of two lanes are disjoint. -/
theorem laneWriteReadsBack : Obligations.LaneWriteReadsBack := by
  intro c bk m a h
  refine ⟨fun k v hk => ⟨?_, fun a' k' hk' e => ?_⟩, fun k v hk => ⟨?_, fun a' k' hk' e => ?_⟩,
    fun k v hk => ⟨?_, fun a' k' hk' e => ?_⟩⟩
  · exact lane8_setLane8 h m _ k v
  · exact lane8_setLane8_ne h m v hk hk' e
  · exact lane16_setLane16 h m _ hk v
  · exact lane16_setLane16_ne h m v hk hk' e
  · exact lane32_setLane32 h m _ hk v
  · exact lane32_setLane32_ne h m v hk hk' e

/-! ### The slots of a group (R30) -/

section Slots

variable {c : Cfg} {bk : Bank}

/-- The slots of a group stand side by side in the slot table, so they are distinct (R24). -/
theorem groupSlots_nodup (h : c.Wf) (bk : Bank) : (dataSlots c bk ++ [addrSlot c bk, modeSlot c bk]).Nodup := by
  refine h.slots_nodup.sublist (List.IsInfix.sublist ?_)
  cases bk
  case bankA =>
    exact ⟨[c.slot.color, c.slot.alpha, c.slot.texmode, c.slot.zbias, c.slot.ctrl, c.slot.page, c.slot.ibD0,
      c.slot.ibD1, c.slot.ibD2, c.slot.ibAddr, c.slot.ibMode], _, rfl⟩
  case bankB =>
    exact ⟨[c.slot.color, c.slot.alpha, c.slot.texmode, c.slot.zbias, c.slot.ctrl, c.slot.page], _, rfl⟩

theorem dataSlots_nodup (h : c.Wf) (bk : Bank) : (dataSlots c bk).Nodup :=
  (List.nodup_append.1 (groupSlots_nodup h bk)).1

theorem addrSlot_ne_modeSlot (h : c.Wf) (bk : Bank) : addrSlot c bk ≠ modeSlot c bk := by
  simpa using (List.nodup_append.1 (groupSlots_nodup h bk)).2.1

theorem dataSlot_ne (h : c.Wf) {i : SlotNo} (hi : i ∈ dataSlots c bk) : i ≠ addrSlot c bk ∧ i ≠ modeSlot c bk := by
  obtain ⟨-, -, hdisj⟩ := List.nodup_append.1 (groupSlots_nodup h bk)
  exact ⟨hdisj i hi _ (by simp), hdisj i hi _ (by simp)⟩

theorem mem_dataSlots_of_usedData {p : SlotNo × Nat} (hp : p ∈ usedData c bk) : p.1 ∈ dataSlots c bk :=
  List.mem_of_mem_take (List.fst_mem_of_mem_zipIdx hp)

theorem index_lt_of_usedData {p : SlotNo × Nat} (hp : p ∈ usedData c bk) : p.2 < c.ndata bk := by
  have := List.snd_lt_of_mem_zipIdx hp
  simp only [List.length_take] at this
  omega

theorem usedData_slots_nodup (h : c.Wf) (bk : Bank) : ((usedData c bk).map Prod.fst).Nodup := by
  rw [usedData, List.zipIdx_map_fst]
  exact (dataSlots_nodup h bk).take

theorem usedData_indices_nodup (c : Cfg) (bk : Bank) : ((usedData c bk).map Prod.snd).Nodup := by
  rw [usedData, List.zipIdx_map_snd]
  exact List.nodup_range'

end Slots

/-! ### The side effects of a group's slots (R142) -/

section Effects

variable {s : State} {bk : Bank}

theorem sideEffect_addrSlot (h : s.cfg.Wf) (bk : Bank) : sideEffect (addrSlot s.cfg bk) s = latch bk s := by
  have hn := h.slots_nodup
  simp only [Slots.all, List.nodup_cons, List.mem_cons, List.not_mem_nil, not_or] at hn
  cases bk <;> simp [sideEffect, addrSlot, hn]

theorem sideEffect_dataSlot (h : s.cfg.Wf) {j : Nat} {slot : SlotNo} (hj : (dataSlots s.cfg bk)[j]? = some slot) :
    sideEffect slot s = commit bk j s := by
  have hn := h.slots_nodup
  simp only [Slots.all, List.nodup_cons, List.mem_cons, List.not_mem_nil, not_or] at hn
  match bk, j, hj with
  | .bankA, 0, rfl | .bankA, 1, rfl | .bankB, 0, rfl | .bankB, 1, rfl | .bankB, 2, rfl =>
    simp [sideEffect, hn, eq_comm]

theorem exec_regw32_addrSlot (h : s.cfg.Wf) (bk : Bank) (v : Word) :
    exec (.regw32 (addrSlot s.cfg bk) v) s = .next (latch bk (s.setReg (addrSlot s.cfg bk) v)) :=
  congrArg _ (sideEffect_addrSlot (s := s.setReg _ v) h bk)

theorem exec_regw32_dataSlot (h : s.cfg.Wf) {j : Nat} {slot : SlotNo} (hj : (dataSlots s.cfg bk)[j]? = some slot)
    (v : Word) : exec (.regw32 slot v) s = .next (commit bk j (s.setReg slot v)) :=
  congrArg _ (sideEffect_dataSlot (s := s.setReg _ v) h hj)

/-! A store into a slot other than the mode slot leaves the mode bits of the group as they were (R30). -/

theorem latchOn_setReg {i : SlotNo} (hi : modeSlot s.cfg bk ≠ i) (v : Word) :
    (s.setReg i v).latchOn bk = s.latchOn bk := by
  simp [State.latchOn, reg_setReg_ne s v hi]

theorem writeThrough_setReg {i : SlotNo} (hi : modeSlot s.cfg bk ≠ i) (v : Word) :
    (s.setReg i v).writeThrough bk = s.writeThrough bk := by
  simp [State.writeThrough, reg_setReg_ne s v hi]

theorem trig_setReg {i : SlotNo} (hi : modeSlot s.cfg bk ≠ i) (v : Word) : (s.setReg i v).trig bk = s.trig bk := by
  simp [State.trig, reg_setReg_ne s v hi]

theorem autoInc_congr {t : State} (hcfg : t.cfg = s.cfg)
    (hmode : t.reg (modeSlot s.cfg bk) = s.reg (modeSlot s.cfg bk)) :
    t.autoInc bk = s.autoInc bk := by
  simp [State.autoInc, hcfg, hmode]

theorem autoInc_setReg {i : SlotNo} (hi : modeSlot s.cfg bk ≠ i) (v : Word) :
    (s.setReg i v).autoInc bk = s.autoInc bk :=
  autoInc_congr rfl (reg_setReg_ne s v hi)

/-! The advance of the address slot (R87). -/

theorem reg_autoIncrement_addrSlot (s : State) (bk : Bank) :
    (autoIncrement bk s).reg (addrSlot s.cfg bk) =
      if s.autoInc bk then advance s.cfg bk (s.reg (addrSlot s.cfg bk)) 1 else s.reg (addrSlot s.cfg bk) := by
  unfold autoIncrement
  split
  · exact reg_setReg_same s _ _
  · rfl

theorem reg_autoIncrement_ne {i : SlotNo} (hi : i ≠ addrSlot s.cfg bk) : (autoIncrement bk s).reg i = s.reg i := by
  unfold autoIncrement
  split
  · exact reg_setReg_ne s _ hi
  · rfl

end Effects

/-! ### Loading the data slots (R85) -/

section Load

variable {s : State} {bk : Bank}

theorem reg_storeEach_of_not_mem (f : SlotNo × Nat → Word) {l : List (SlotNo × Nat)} {i : SlotNo}
    (hi : i ∉ l.map Prod.fst) (t : State) : (l.foldl (fun t p => t.setReg p.1 (f p)) t).reg i = t.reg i := by
  induction l generalizing t with
  | nil => rfl
  | cons q r ih =>
    simp only [List.map_cons, List.mem_cons, not_or] at hi
    rw [List.foldl_cons, ih hi.2, reg_setReg_ne t _ hi.1]

theorem reg_storeEach_of_mem (f : SlotNo × Nat → Word) {l : List (SlotNo × Nat)} (hl : (l.map Prod.fst).Nodup)
    {p : SlotNo × Nat} (hp : p ∈ l) (t : State) : (l.foldl (fun t p => t.setReg p.1 (f p)) t).reg p.1 = f p := by
  induction l generalizing t with
  | nil => cases hp
  | cons q r ih =>
    obtain ⟨hq, hr⟩ := List.nodup_cons.1 hl
    rw [List.foldl_cons]
    rcases List.mem_cons.1 hp with rfl | hp
    · rw [reg_storeEach_of_not_mem f hq, reg_setReg_same]
    · exact ih hr hp _

theorem reg_loadData_of_mem (h : s.cfg.Wf) {p : SlotNo × Nat} (hp : p ∈ usedData s.cfg bk) :
    (loadData bk s).reg p.1 = lane32 s.cfg bk (s.mem bk) (s.groupBlock bk) p.2 :=
  reg_storeEach_of_mem (fun p => lane32 s.cfg bk (s.mem bk) (s.groupBlock bk) p.2) (usedData_slots_nodup h bk) hp s

theorem reg_loadData_of_not_mem {i : SlotNo} (hi : i ∉ (usedData s.cfg bk).map Prod.fst) :
    (loadData bk s).reg i = s.reg i :=
  reg_storeEach_of_not_mem (fun p => lane32 s.cfg bk (s.mem bk) (s.groupBlock bk) p.2) hi s

@[simp] theorem loadData_cfg (s : State) (bk : Bank) : (loadData bk s).cfg = s.cfg :=
  loadData_proj s State.cfg (fun _ _ _ => rfl) bk

theorem addrSlot_modeSlot_not_used (h : s.cfg.Wf) (bk : Bank) :
    addrSlot s.cfg bk ∉ (usedData s.cfg bk).map Prod.fst ∧ modeSlot s.cfg bk ∉ (usedData s.cfg bk).map Prod.fst := by
  constructor <;> intro hi <;> obtain ⟨p, hp, e⟩ := List.mem_map.1 hi
  · exact (dataSlot_ne h (mem_dataSlots_of_usedData hp)).1 e
  · exact (dataSlot_ne h (mem_dataSlots_of_usedData hp)).2 e

/-- What a latch leaves in the registers (R85, R87). -/
theorem latch_regs (h : s.cfg.Wf) (hon : s.latchOn bk = true) :
    (∀ p ∈ usedData s.cfg bk, (latch bk s).reg p.1 = lane32 s.cfg bk (s.mem bk) (s.groupBlock bk) p.2) ∧
    (latch bk s).reg (addrSlot s.cfg bk) =
      (if s.autoInc bk then advance s.cfg bk (s.reg (addrSlot s.cfg bk)) 1 else s.reg (addrSlot s.cfg bk)) ∧
    ∀ i, i ≠ addrSlot s.cfg bk → i ∉ (usedData s.cfg bk).map Prod.fst → (latch bk s).reg i = s.reg i := by
  obtain ⟨haddr, hmode⟩ := addrSlot_modeSlot_not_used h bk
  have hne {i : SlotNo} (hi : i ≠ addrSlot s.cfg bk) :
      (autoIncrement bk (loadData bk s)).reg i = (loadData bk s).reg i :=
    reg_autoIncrement_ne (by simpa using hi)
  rw [latch, if_pos hon]
  refine ⟨fun p hp => ?_, ?_, fun i hi hused => ?_⟩
  · rw [hne (dataSlot_ne h (mem_dataSlots_of_usedData hp)).1, reg_loadData_of_mem h hp]
  · have := reg_autoIncrement_addrSlot (loadData bk s) bk
    rwa [loadData_cfg, reg_loadData_of_not_mem haddr,
      autoInc_congr (loadData_cfg s bk) (reg_loadData_of_not_mem hmode)] at this
  · rw [hne hi, reg_loadData_of_not_mem hused]

end Load

/-- Settles O19: the store leaves the mode slot, so the latch decides on the old bit and reads the block the stored
address names. -/
theorem latchReadsBlock : Obligations.LatchReadsBlock := by
  intro s bk v h
  have hmode := (addrSlot_ne_modeSlot h bk).symm
  rw [exec_regw32_addrSlot h]
  refine ⟨fun hoff => ?_, fun hon => ⟨_, rfl, ?_, ?_⟩⟩
  · rw [latch, if_neg (by simp [latchOn_setReg hmode, hoff])]
  · generalize hu : latch bk (s.setReg (addrSlot s.cfg bk) v) = u
    have hframe := latch_proj (s.setReg (addrSlot s.cfg bk) v) (fun t => { t with regs := u.regs })
      (fun _ _ _ => rfl) bk
    rwa [hu] at hframe
  · obtain ⟨hdata, haddr, hrest⟩ := latch_regs (s := s.setReg (addrSlot s.cfg bk) v) h
      ((latchOn_setReg hmode v).trans hon)
    simp only [State.groupBlock, setReg_cfg, setReg_mem, reg_setReg_same, autoInc_setReg hmode] at hdata haddr hrest
    exact ⟨hdata, haddr, fun i hi hused => (hrest i hi hused).trans (reg_setReg_ne s v hi)⟩

/-! ### Storing the data slots (R86) -/

section Store

variable {c : Cfg} {s : State} {bk : Bank}

/-- The frame of word lanes stored one after another: bytes of none of them. -/
theorem get_storeLanes_of_not_mem (f : SlotNo × Nat → Word) {l : List (SlotNo × Nat)} {blk a : Nat}
    (ha : ∀ p ∈ l, a ∉ laneAddrs32 c bk blk p.2) (m : Memory) :
    (l.foldl (fun m p => setLane32 c bk m blk p.2 (f p)) m).get a = m.get a := by
  induction l generalizing m with
  | nil => rfl
  | cons q r ih =>
    rw [List.foldl_cons, ih fun p hp => ha p (List.mem_cons_of_mem q hp)]
    exact setLane32_get_ne m _ (ha q List.mem_cons_self)

theorem lane32_storeLanes_of_not_mem (h : c.Wf) (f : SlotNo × Nat → Word) {l : List (SlotNo × Nat)} {blk k : Nat}
    (hl : ∀ p ∈ l, p.2 < c.ndata bk) (hk : k < c.ndata bk) (hkl : k ∉ l.map Prod.snd) (m : Memory) :
    lane32 c bk (l.foldl (fun m p => setLane32 c bk m blk p.2 (f p)) m) blk k = lane32 c bk m blk k := by
  refine lane32_congr fun a ha => get_storeLanes_of_not_mem f (fun p hp => ?_) m
  have hne : k ≠ p.2 := fun e => hkl (List.mem_map.2 ⟨p, hp, e.symm⟩)
  exact laneAddrs32_disjoint h (hl p hp) hk (.inr hne) ha

theorem lane32_storeLanes_of_mem (h : c.Wf) (f : SlotNo × Nat → Word) {l : List (SlotNo × Nat)} {blk : Nat}
    (hl : ∀ p ∈ l, p.2 < c.ndata bk) (hnodup : (l.map Prod.snd).Nodup) {p : SlotNo × Nat} (hp : p ∈ l) (m : Memory) :
    lane32 c bk (l.foldl (fun m p => setLane32 c bk m blk p.2 (f p)) m) blk p.2 = f p := by
  induction l generalizing m with
  | nil => cases hp
  | cons q r ih =>
    obtain ⟨hq, hr⟩ := List.nodup_cons.1 hnodup
    have hlr : ∀ p ∈ r, p.2 < c.ndata bk := fun p hp => hl p (List.mem_cons_of_mem q hp)
    rw [List.foldl_cons]
    rcases List.mem_cons.1 hp with rfl | hp
    · rw [lane32_storeLanes_of_not_mem h f hlr (hl p List.mem_cons_self) hq]
      exact lane32_setLane32 h m blk (hl p List.mem_cons_self) _
    · exact ih hlr hr hp _

theorem lane32_storeData (h : s.cfg.Wf) {p : SlotNo × Nat} (hp : p ∈ usedData s.cfg bk) :
    lane32 s.cfg bk ((storeData bk s).mem bk) (s.groupBlock bk) p.2 = s.reg p.1 := by
  rw [storeData, setMem_mem]
  exact lane32_storeLanes_of_mem h (fun p => s.reg p.1) (fun _ => index_lt_of_usedData)
    (usedData_indices_nodup _ bk) hp _

theorem get_storeData_of_not_mem {a : Nat}
    (ha : ∀ p ∈ usedData s.cfg bk, a ∉ laneAddrs32 s.cfg bk (s.groupBlock bk) p.2) :
    ((storeData bk s).mem bk).get a = (s.mem bk).get a := by
  rw [storeData, setMem_mem]
  exact get_storeLanes_of_not_mem (fun p => s.reg p.1) ha _

theorem mem_setMem_ne {bk' : Bank} (hne : bk' ≠ bk) (m : Memory) : (s.setMem bk m).mem bk' = s.mem bk' := by
  match bk, bk', hne with
  | .bankA, .bankB, _ | .bankB, .bankA, _ => rfl

theorem autoIncrement_mem (s : State) (bk bk' : Bank) : (autoIncrement bk s).mem bk' = s.mem bk' :=
  autoIncrement_proj s (fun t => t.mem bk') (fun _ _ _ => setReg_mem ..) bk

@[simp] theorem storeData_cfg (s : State) (bk : Bank) : (storeData bk s).cfg = s.cfg := setMem_cfg ..

@[simp] theorem reg_storeData (s : State) (bk : Bank) (i : SlotNo) : (storeData bk s).reg i = s.reg i := reg_setMem ..

/-- A triggered commit stores the data slots and advances the address (R86, R87). -/
theorem commit_of_trig {j : Nat} (hthru : s.writeThrough bk = true) (htrig : s.trig bk = j) (hj : j < s.cfg.ndata bk) :
    commit bk j s = autoIncrement bk (storeData bk s) := if_pos ⟨hthru, htrig, hj⟩

/-- What a triggered commit leaves in the banks (R86). -/
theorem autoIncrement_storeData_banks (h : s.cfg.Wf) (bk : Bank) :
    (∀ p ∈ usedData s.cfg bk,
      lane32 s.cfg bk ((autoIncrement bk (storeData bk s)).mem bk) (s.groupBlock bk) p.2 = s.reg p.1) ∧
    (∀ a, (∀ p ∈ usedData s.cfg bk, a ∉ laneAddrs32 s.cfg bk (s.groupBlock bk) p.2) →
      ((autoIncrement bk (storeData bk s)).mem bk).get a = (s.mem bk).get a) ∧
    ∀ bk', bk' ≠ bk → (autoIncrement bk (storeData bk s)).mem bk' = s.mem bk' := by
  simp only [autoIncrement_mem]
  exact ⟨fun _ => lane32_storeData h, fun _ => get_storeData_of_not_mem, fun _ hne => mem_setMem_ne hne _⟩

/-- What a triggered commit leaves in the registers (R87). -/
theorem autoIncrement_storeData_regs (s : State) (bk : Bank) :
    (autoIncrement bk (storeData bk s)).reg (addrSlot s.cfg bk) =
      (if s.autoInc bk then advance s.cfg bk (s.reg (addrSlot s.cfg bk)) 1 else s.reg (addrSlot s.cfg bk)) ∧
    ∀ i, i ≠ addrSlot s.cfg bk → (autoIncrement bk (storeData bk s)).reg i = s.reg i := by
  constructor
  · have := reg_autoIncrement_addrSlot (storeData bk s) bk
    rwa [storeData_cfg, reg_storeData, autoInc_congr (storeData_cfg s bk) (reg_storeData ..)] at this
  · intro i hi
    rw [reg_autoIncrement_ne (by simpa using hi), reg_storeData]

end Store

/-- Settles O20: the store leaves the mode and the address slot, so the commit decides on the old bits and writes the
block the address named before. -/
theorem commitWritesBlock : Obligations.CommitWritesBlock := by
  intro s bk j slot v h hslot
  obtain ⟨haddr, hmode⟩ := dataSlot_ne h (List.mem_of_getElem? hslot)
  have hthru' : (s.setReg slot v).writeThrough bk = s.writeThrough bk := writeThrough_setReg hmode.symm v
  have htrig' : (s.setReg slot v).trig bk = s.trig bk := trig_setReg hmode.symm v
  rw [exec_regw32_dataSlot h hslot]
  refine ⟨fun hidle => ?_, fun hthru htrig hj => ⟨_, rfl, ?_, ?_⟩⟩
  · rw [commit, if_neg]
    rwa [hthru', htrig']
  · generalize hu : commit bk j (s.setReg slot v) = u
    have hframe := commit_proj (s.setReg slot v)
      (fun t => { t with regs := u.regs, bankA := u.bankA, bankB := u.bankB }) (fun _ _ _ => rfl) bk
      (fun _ _ => by cases bk <;> rfl) j
    rwa [hu] at hframe
  · rw [commit_of_trig (hthru'.trans hthru) (htrig'.trans htrig) hj]
    obtain ⟨hlanes, hbytes, hother⟩ := autoIncrement_storeData_banks (s := s.setReg slot v) h bk
    obtain ⟨hadv, hrest⟩ := autoIncrement_storeData_regs (s.setReg slot v) bk
    simp only [State.groupBlock, setReg_cfg, setReg_mem, reg_setReg_ne s v haddr.symm, reg_setReg,
      autoInc_setReg hmode.symm] at hlanes hbytes hother hadv hrest
    refine ⟨hlanes, hbytes, hother, ?_, hadv, fun i hslot hi => ?_⟩
    · simpa using hrest slot haddr
    · simpa [hslot] using hrest i hi

end Sys2Proof.Machine
end

section
/-! PROOF. The encoding (30_encoding.md). The first word alone tells the format of a command (R110, R114, R115): one
equation of `formatOf` for each opcode byte. The round trip joins two facts: the first word of an encoded instruction
tells its format, and operands that read back make up the instruction. -/

namespace Sys2Proof.Machine

/-! ### The format of a first word (R114, R115) -/

section FormatOf

variable {c : Cfg} {ctx : Ctx} {q : QuadSize} {w : Word}

theorem formatOf_of_unknown (h : c.opKnown ctx (opOf w) = false) : formatOf c ctx q w = .unknown := by
  simp [formatOf, h]

theorem formatOf_of_ptrset (h : opOf w = c.op.ptrset) : formatOf c ctx q w = .ptrset := by
  simp [formatOf, h, known_both c ctx]

theorem formatOf_of_endModel (hc : c.Wf) (h : opOf w = c.op.endModel) : formatOf c .model q w = .endModel := by
  simp [formatOf, h, known_model c, (ops_apart hc).endModel]

theorem formatOf_of_chain (hc : c.Wf) (h : opOf w = c.op.chain) : formatOf c .model q w = .chain := by
  simp [formatOf, h, known_model c, (ops_apart hc).chain]

theorem formatOf_of_drawmodel (hc : c.Wf) (h : opOf w = c.op.drawmodel) : formatOf c .fifo q w = .drawmodel := by
  simp [formatOf, h, known_fifo c, (ops_apart hc).drawmodel]

theorem formatOf_of_regw16 (hc : c.Wf) (h : opOf w = c.op.regw16) : formatOf c ctx q w = .regw16 := by
  simp [formatOf, h, known_both c ctx, (ops_apart hc).regw16]

theorem formatOf_of_regw32 (hc : c.Wf) (h : opOf w = c.op.regw32) : formatOf c ctx q w = .regw32 := by
  simp [formatOf, h, known_both c ctx, (ops_apart hc).regw32]

/-- The discriminator tells the two forms of MATRIX apart (R118). -/
theorem formatOf_of_matrix (hc : c.Wf) (h : opOf w = c.op.matrix) :
    formatOf c ctx q w = if w.extractLsb' c.fmt.discLo 16 = c.matrixDisc then .matrix2 else .matrix1 := by
  simp [formatOf, h, known_both c ctx, (ops_apart hc).matrix]

/-- One bit tells the two forms of LIGHT apart (R119). -/
theorem formatOf_of_light (hc : c.Wf) (h : opOf w = c.op.light) :
    formatOf c ctx q w = if w.getLsbD c.fmt.longBit = c.fmt.longCode then .lightl else .lights := by
  simp [formatOf, h, known_both c ctx, (ops_apart hc).light]

theorem formatOf_of_clear (hc : c.Wf) (h : opOf w = c.op.clear) : formatOf c ctx q w = .clear := by
  simp [formatOf, h, known_both c ctx, (ops_apart hc).clear]

theorem formatOf_of_quad_q10 (hc : c.Wf) (h : opOf w = c.op.quad) : formatOf c ctx .q10 w = .quadQ10 := by
  simp [formatOf, h, known_both c ctx, (ops_apart hc).quad]

theorem formatOf_of_quad_q14 (hc : c.Wf) (h : opOf w = c.op.quad) : formatOf c ctx .q14 w = .quadQ14 := by
  simp [formatOf, h, known_both c ctx, (ops_apart hc).quad]

end FormatOf

/-! ### What the decoder answers (R110, R112) -/

section Decode

variable {c : Cfg} {ctx : Ctx} {q : QuadSize} {w0 : Word} {r : List Word}

theorem decode_of_need_le (h : need c ctx q w0 ≤ (w0 :: r).length) :
    decode c ctx q (w0 :: r) =
      .ok (readFormat c ctx (w0 :: r) (formatOf c ctx q w0), (w0 :: r).drop (need c ctx q w0)) :=
  if_neg (Nat.not_lt.2 h)

theorem decode_of_lt_need (h : (w0 :: r).length < need c ctx q w0) :
    decode c ctx q (w0 :: r) = .error (.incomplete (need c ctx q w0)) :=
  if_pos h

/-- As many words as their format has are a command, whatever words follow (R110). -/
theorem decode_append {f : Format} {ws : List Word} (rest : List Word) (hlen : ws.length = c.count f)
    (hf : formatOf c ctx q (ws.headD 0) = f) :
    decode c ctx q (ws ++ rest) = .ok (readFormat c ctx (ws ++ rest) f, rest) := by
  cases ws with
  | nil => exact absurd hlen (count_pos c f).ne
  | cons w0 r =>
    have hneed : need c ctx q w0 = (w0 :: r).length := by rw [hlen, ← hf]; rfl
    have hle : need c ctx q w0 ≤ (w0 :: (r ++ rest)).length := by simp [hneed]
    rw [List.cons_append, decode_of_need_le hle, hneed, ← List.cons_append, List.drop_left]
    exact congrArg (fun g => Except.ok (readFormat c ctx _ g, rest)) hf

end Decode

/-- Settles O2: the decoder's one comparison is of the length with `need`. -/
theorem decodeTakesExactlyNeed : Obligations.DecodeTakesExactlyNeed :=
  fun _ _ _ _ _ => ⟨fun hle => ⟨_, decode_of_need_le hle⟩, decode_of_lt_need⟩

/-! ### Unknown words (R120) -/

/-- An unknown word is a command by itself. -/
theorem decode_of_unknown {c : Cfg} {ctx : Ctx} {q : QuadSize} {w : Word} (r : List Word)
    (h : c.opKnown ctx (opOf w) = false) : decode c ctx q (w :: r) = .ok (unknownIn ctx w, r) :=
  decode_append (ws := [w]) r rfl (formatOf_of_unknown h)

theorem exec_unknownModel {s : State} {k : Walker} (w : Word) (h : s.walk = some k) :
    exec (.unknownModel w) s = .next { s with
      log := s.log ++ [.unknownSubcommand (streamAddr s.cfg k.mp k.k) w]
      walk := some { k with k := k.k + 1, mrem := k.mrem - 1 } } := by
  simp only [exec, execUnknownModel, unknownModel, h, State.logEvent]

/-- Settles O32: an unknown word is decoded alone in each context, and its two meanings set only the fields named. -/
theorem unknownWordIsLoggedAndDropped : Obligations.UnknownWordIsLoggedAndDropped :=
  fun _ w r =>
    ⟨fun h => ⟨decode_of_unknown r h, rfl⟩, fun h => ⟨decode_of_unknown r h, fun _ => exec_unknownModel w⟩⟩

/-! ### The first word of an encoded instruction tells its format -/

/-- What an encoded instruction has in the place of the matrix discriminator (R118). -/
theorem disc_encode {c : Cfg} (hc : c.Wf) {i : Instr} {s : Bool} {x : Half} {f : Field} (hf : f = c.fmt.disc)
    (h : (⟨f, s, 16, x⟩ : Operand) ∈ i.operands c) : ((encode c i).headD 0).extractLsb' c.fmt.discLo 16 = x := by
  rw [encode_headD, operandWord_at (operands_wf hc i) h hf, BitVec.setWidth_eq]

theorem formatOf_encode {c : Cfg} (hc : c.Wf) {ctx : Ctx} {q : QuadSize} {i : Instr} (hshows : i.formatShows c = true)
    (hctx : i.inCtx ctx = true) (hsize : i.underSize q = true) :
    formatOf c ctx q ((encode c i).headD 0) = i.format := by
  have hop : ∀ {op}, Field.opcode.unsigned op ∈ i.operands c → opOf ((encode c i).headD 0) = op := opOf_encode hc
  cases i with
  | ptrset sel data => exact formatOf_of_ptrset (hop (by simp [Instr.operands]))
  | endModel =>
    obtain rfl : ctx = .model := by simpa [Instr.inCtx] using hctx
    exact formatOf_of_endModel hc (hop (by simp [Instr.operands]))
  | chain count addr =>
    obtain rfl : ctx = .model := by simpa [Instr.inCtx] using hctx
    exact formatOf_of_chain hc (hop (by simp [Instr.operands]))
  | drawmodel count addr =>
    obtain rfl : ctx = .fifo := by simpa [Instr.inCtx] using hctx
    exact formatOf_of_drawmodel hc (hop (by simp [Instr.operands]))
  | regw16 high slot data => exact formatOf_of_regw16 hc (hop (by simp [Instr.operands]))
  | regw32 slot data => exact formatOf_of_regw32 hc (hop (by simp [Instr.operands]))
  | matrix1 m t =>
    have hdisc := disc_encode hc (i := .matrix1 m t) (s := true) (x := m.r0.e2) hc.disc_place
      (by simp [Instr.operands, Mat3.operands, Vec3.operands, Field.twos])
    rw [formatOf_of_matrix hc (hop (by simp [Instr.operands])), hdisc]
    exact if_neg (by simpa [Instr.formatShows] using hshows)
  | matrix2 a b t =>
    have hdisc := disc_encode hc (i := .matrix2 a b t) (s := false) (x := c.matrixDisc) rfl
      (by simp [Instr.operands, Field.unsigned])
    rw [formatOf_of_matrix hc (hop (by simp [Instr.operands])), hdisc]
    exact if_pos rfl
  | lights l =>
    have hlong := longBit_encode hc (i := .lights l) (b := BitVec.ofBool !c.fmt.longCode) (by simp [Instr.operands])
    rw [formatOf_of_light hc (hop (by simp [Instr.operands])), hlong]
    exact if_neg (by simp)
  | lightl a =>
    have hlong := longBit_encode hc (i := .lightl a) (b := BitVec.ofBool c.fmt.longCode) (by simp [Instr.operands])
    rw [formatOf_of_light hc (hop (by simp [Instr.operands])), hlong]
    exact if_pos (by simp)
  | clear => exact formatOf_of_clear hc (hop (by simp [Instr.operands]))
  | quadQ10 v =>
    obtain rfl : q = .q10 := by simpa [Instr.underSize] using hsize
    exact formatOf_of_quad_q10 hc (hop (by simp [Instr.operands]))
  | quadQ14 v =>
    obtain rfl : q = .q14 := by simpa [Instr.underSize] using hsize
    exact formatOf_of_quad_q14 hc (hop (by simp [Instr.operands]))
  | unknownFifo w =>
    obtain rfl : ctx = .fifo := by simpa [Instr.inCtx] using hctx
    rw [encode_whole hc (w := w) (by simp [Instr.operands])]
    exact formatOf_of_unknown (by simpa [Instr.formatShows, opOf] using hshows)
  | unknownModel w =>
    obtain rfl : ctx = .model := by simpa [Instr.inCtx] using hctx
    rw [encode_whole hc (w := w) (by simp [Instr.operands])]
    exact formatOf_of_unknown (by simpa [Instr.formatShows, opOf] using hshows)

/-! ### Operands that read back make up the instruction -/

/-- The first word, read as a whole. -/
theorem whole_read_zero (ws : List Word) : (Field.whole 0).read false 32 ws = ws.headD 0 := by
  cases ws <;> simp [Field.read, Field.whole, extend]

theorem readFormat_of_read {c : Cfg} {ctx : Ctx} {i : Instr} {ws : List Word} (hctx : i.inCtx ctx = true)
    (hread : ∀ o ∈ i.operands c, o.field.read o.signed o.size ws = o.value) : readFormat c ctx ws i.format = i := by
  cases i with
  | endModel => rfl
  | clear => rfl
  | ptrset sel data =>
    simp only [Instr.operands, Field.unsigned, List.forall_mem_cons] at hread
    obtain ⟨-, hsel, hdata, -⟩ := hread
    simp only [Instr.format, readFormat, hsel, hdata]
  | chain count addr =>
    simp only [Instr.operands, Field.unsigned, List.forall_mem_cons] at hread
    obtain ⟨-, hcount, haddr, -⟩ := hread
    simp only [Instr.format, readFormat, hcount, haddr]
  | drawmodel count addr =>
    simp only [Instr.operands, Field.unsigned, List.forall_mem_cons] at hread
    obtain ⟨-, hcount, haddr, -⟩ := hread
    simp only [Instr.format, readFormat, hcount, haddr]
  | regw16 high slot data =>
    simp only [Instr.operands, Field.unsigned, List.forall_mem_cons] at hread
    obtain ⟨-, hhalf, hslot, hdata, -⟩ := hread
    have hcode : ((high == c.fmt.halfCode) == c.fmt.halfCode) = high := by
      cases high <;> cases c.fmt.halfCode <;> rfl
    simp only [Instr.format, readFormat, hhalf, hslot, hdata, BitVec.getLsbD_ofBool, decide_true, Bool.true_and, hcode]
  | regw32 slot data =>
    simp only [Instr.operands, Field.unsigned, List.forall_mem_cons] at hread
    obtain ⟨-, hslot, hdata, -⟩ := hread
    simp only [Instr.format, readFormat, hslot, hdata]
  | matrix1 m t =>
    have hm := readMat_twos (f := c.fmt.m1) (m := m) fun o ho => hread o (by simp [Instr.operands, ho])
    have ht := readVec_twos (f := c.fmt.t1) (v := t) fun o ho => hread o (by simp [Instr.operands, ho])
    simp only [Instr.format, readFormat, hm, ht]
  | matrix2 a b t =>
    have ha := readMat_twos (f := c.fmt.m2a) (m := a) fun o ho => hread o (by simp [Instr.operands, ho])
    have hb := readMat_twos (f := c.fmt.m2b) (m := b) fun o ho => hread o (by simp [Instr.operands, ho])
    have ht := readVec_twos (f := c.fmt.t2) (v := t) fun o ho => hread o (by simp [Instr.operands, ho])
    simp only [Instr.format, readFormat, ha, hb, ht]
  | lights l =>
    have hl := readVec_twos (f := c.fmt.lights) (v := l) fun o ho => hread o (by simp [Instr.operands, ho])
    simp only [Instr.format, readFormat, hl]
  | lightl a =>
    have ha := readVec_unsigned (f := c.fmt.lightl) (v := a) fun o ho => hread o (by simp [Instr.operands, ho])
    simp only [Instr.format, readFormat, ha]
  | quadQ10 v =>
    have hv := readQuad (f := c.fmt.q10) (q := v) fun o ho => hread o (by simp [Instr.operands, ho])
    simp only [Instr.format, readFormat, hv]
  | quadQ14 v =>
    have hv := readQuad (f := c.fmt.q14) (q := v) fun o ho => hread o (by simp [Instr.operands, ho])
    simp only [Instr.format, readFormat, hv]
  | unknownFifo w =>
    obtain rfl : ctx = .fifo := by simpa [Instr.inCtx] using hctx
    have hw := hread ((Field.whole 0).unsigned w) (by simp [Instr.operands])
    exact congrArg Instr.unknownFifo ((whole_read_zero ws).symm.trans hw)
  | unknownModel w =>
    obtain rfl : ctx = .model := by simpa [Instr.inCtx] using hctx
    have hw := hread ((Field.whole 0).unsigned w) (by simp [Instr.operands])
    exact congrArg Instr.unknownModel ((whole_read_zero ws).symm.trans hw)

/-- Settles O1: the first word tells the format, so the decoder takes the encoded words, and every operand reads back. -/
theorem decodeReadsBackEncode : Obligations.DecodeReadsBackEncode := by
  intro c hc ctx q i rest hw hctx hsize
  have hshows : i.formatShows c = true := (Bool.and_eq_true_iff.1 hw).2
  have hformat := formatOf_encode hc hshows hctx hsize
  rw [decode_append rest (encode_length c i) hformat, readFormat_of_read hctx (read_operand hc hw rest)]

end Sys2Proof.Machine
end

section
/-! PROOF. The host interface (40_host_interface.md): register access by its effective width (R140 to R143), the push of a
command word (R144, R145) and the line of the display beam (R147); with them what a command's store into a slot leaves
alone (R142, R164, R166). -/

namespace Sys2Proof.Machine

/-! ### A command's store (R164, R166) -/

/-- Settles O18: a slot write of a command is a store and a side effect, and both keep the frame. -/
theorem slotWriteFrame : Obligations.SlotWriteFrame :=
  fun s slot v high d =>
    ⟨⟨_, exec_eq (.regw32 slot v) s, storeSlot_slotFrame s slot v⟩,
      ⟨_, exec_eq (.regw16 high slot d) s, storeHalf_slotFrame s high slot d⟩⟩

/-! ### The push of a command word (R145) -/

/-- An operation placed next is the one a step performs. -/
theorem step_with_input (s : State) (h : s.walk = none) (op : HostOp) (rest : List HostOp) :
    step { s with inputs := op :: rest } = hostOp op { s with inputs := rest } :=
  step_op (s := { s with inputs := op :: rest }) h rfl

/-- A push that completes a command runs it, with all its words in the buffer, and then empties the buffer. -/
theorem fifoPush_of_decode_ok {w : Word} {s : State} {i : Instr} {r : List Word}
    (h : decode s.cfg .fifo s.pQsize (s.fifo ++ [w]) = .ok (i, r)) :
    fifoPush w s = .next { effect i { s with fifo := s.fifo ++ [w] } with fifo := [] } := by
  rcases fifoPush_cases w s with ⟨e, hd, -⟩ | ⟨i', r', hd, hrun⟩
  · rw [h] at hd
    cases hd
  · rw [h] at hd
    cases hd
    exact hrun

/-- A push that completes no command leaves its word in the buffer. -/
theorem fifoPush_of_decode_error {w : Word} {s : State} {e : DecodeError}
    (h : decode s.cfg .fifo s.pQsize (s.fifo ++ [w]) = .error e) :
    fifoPush w s = .next { s with fifo := s.fifo ++ [w] } := by
  rcases fifoPush_cases w s with ⟨-, -, hrest⟩ | ⟨i, r, hd, -⟩
  · exact hrest
  · rw [h] at hd
    cases hd

/-- Words that are fewer than the first of them needs make up no command yet (R115). -/
theorem decode_error_of_length_lt {c : Cfg} {ctx : Ctx} {q : QuadSize} {ws : List Word}
    (h : ∀ w0 ∈ ws.head?, ws.length < need c ctx q w0) : ∃ e, decode c ctx q ws = .error e := by
  cases ws with
  | nil => exact ⟨_, rfl⟩
  | cons w0 r => exact ⟨_, decode_of_lt_need (h w0 rfl)⟩

/-- Settles O4: the step performs the push, and the push runs the command it completes. -/
theorem stepRunsPushedCommand : Obligations.StepRunsPushedCommand := by
  intro s w rest i r hwalk hin hd
  refine ⟨_, exec_eq i _, ?_⟩
  rw [step_op hwalk hin]
  exact fifoPush_of_decode_ok (s := { s with inputs := rest }) hd

/-- Settles O5: the decoder finds the words in the buffer incomplete, so the push only adds one. -/
theorem partialCommandOnlyBuffers : Obligations.PartialCommandOnlyBuffers := by
  intro s w rest hwalk hin hlt
  obtain ⟨e, hd⟩ := decode_error_of_length_lt hlt
  rw [step_op hwalk hin]
  exact fifoPush_of_decode_error (s := { s with inputs := rest }) hd

/-! ### Register access by effective width (R140 to R143) -/

/-- R140's condition for a half access. -/
theorem halfAccess_iff {s : State} {w : Width} :
    s.halfAccess w = true ↔ s.cfg.gen = .gen1 ∧ s.halfMode = true ∧ w = .w16 := by
  simp only [State.halfAccess, Bool.and_eq_true, beq_iff_eq, and_assoc]

/-- An access of width 32 is full in every mode (R140). -/
theorem not_halfAccess_w32 (s : State) : ¬ s.halfAccess .w32 = true := by
  simp [halfAccess_iff]

section Access

variable {s : State} {slot : SlotNo} {v : Word} {w : Width}

/-- A write of a high half is a store and no more (R141). -/
theorem regWrite_high (h : s.halfAccess w = true) :
    regWrite slot true v w s = .next (s.setReg slot (joinHalves (lo16 v) (lo16 (s.reg slot)))) := if_pos h

/-- A write of a low half is a store and the host's side effect (R141). -/
theorem regWrite_low (h : s.halfAccess w = true) :
    regWrite slot false v w s = hostSideEffect slot (s.setReg slot (joinHalves (hi16 (s.reg slot)) (lo16 v))) :=
  if_pos h

/-- A full write is a store of the whole value and the host's side effect, whichever half is named (R141). -/
theorem regWrite_full {high : Bool} (h : ¬ s.halfAccess w = true) :
    regWrite slot high v w s = hostSideEffect slot (s.setReg slot v) := if_neg h

/-- A full write of the push port pushes the value it stores (R144). -/
theorem regWrite_port_full {high : Bool} (h : ¬ s.halfAccess w = true) :
    regWrite s.cfg.slot.fifo high v w s = fifoPush v (s.setReg s.cfg.slot.fifo v) := by
  rw [regWrite_full h, hostSideEffect_fifo (by rw [setReg_cfg]), reg_setReg_same]

/-- The value read is the slot or a half of it, as a number (R143). -/
theorem regReadValue_toNat (high : Bool) :
    (regReadValue slot high w s).toNat =
      if s.halfAccess w then (if high then (hi16 (s.reg slot)).toNat else (lo16 (s.reg slot)).toNat)
      else (s.reg slot).toNat := by
  unfold regReadValue
  by_cases hhalf : s.halfAccess w = true
  · rw [if_pos hhalf, if_pos hhalf, BitVec.toNat_setWidth_of_le (by omega)]
    cases high <;> rfl
  · rw [if_neg hhalf, if_neg hhalf]

end Access

/-- Settles O52: the step performs the write, by the equation of its effective width. -/
theorem hostWriteByWidth : Obligations.HostWriteByWidth := by
  intro s slot high v w rest hwalk hin
  rw [step_op hwalk hin]
  refine ⟨?_, ?_, ?_, fun _ => rfl⟩
  · rintro hhalf rfl
    exact regWrite_high (s := { s with inputs := rest }) (halfAccess_iff.2 hhalf)
  · rintro hhalf rfl
    exact regWrite_low (s := { s with inputs := rest }) (halfAccess_iff.2 hhalf)
  · intro hfull
    exact regWrite_full (s := { s with inputs := rest }) (mt halfAccess_iff.1 hfull)

/-- Settles O53: an access of width 32 is full, and the side effect of the push port is a push of what it holds. -/
theorem hostPushesThroughPort : Obligations.HostPushesThroughPort := by
  intro s high v rest hwalk hin
  calc step s
      _ = regWrite s.cfg.slot.fifo high v .w32 { s with inputs := rest } := step_op hwalk hin
      _ = fifoPush v { s.setReg s.cfg.slot.fifo v with inputs := rest } :=
          regWrite_port_full (s := { s with inputs := rest }) (not_halfAccess_w32 _)
      _ = step { s.setReg s.cfg.slot.fifo v with inputs := .fifoPush v :: rest } :=
          (step_with_input (s.setReg s.cfg.slot.fifo v) hwalk (.fifoPush v) rest).symm

/-- Settles O54: the step performs the read, which records the value and nothing else. -/
theorem hostReadHasNoEffect : Obligations.HostReadHasNoEffect := by
  intro s slot high w rest hwalk hin
  refine ⟨regReadValue slot high w { s with inputs := rest }, step_op hwalk hin, ?_⟩
  rw [regReadValue_toNat]
  exact if_congr halfAccess_iff rfl rfl

/-! ### The line of the display beam (R147, R312) -/

/-- The end of a frame copies the rows not yet copied, logs the scanout and the frame, and returns the count of copied
rows to 0 (R312). -/
theorem frameEnd_eq (s : State) :
    frameEnd s = { s with
      out := (scanout s.scanRow s.disp.visH false s).out
      log := s.log ++ [.scanout s.scanRow s.disp.visH false, .frame]
      scanRow := 0 } := by
  simp [frameEnd, scanout, State.logEvent]

section Line

variable {s : State}

/-- Without a valid geometry there is no beam to move. -/
theorem hLine_of_invalid (h : s.disp.valid = false) : hLine s = s := by simp [hLine, h]

/-- Inside a frame the beam moves to the next row. -/
theorem hLine_of_row_lt (hvalid : s.disp.valid = true) (hrow : s.beamRow + 1 < s.disp.vtotal) :
    hLine s = { s with beamRow := s.beamRow + 1 } := by
  simp [hLine, hvalid, hrow]

/-- At the last row the frame ends and the beam returns to the first. -/
theorem hLine_of_last_row (hvalid : s.disp.valid = true) (hrow : s.disp.vtotal ≤ s.beamRow + 1) :
    hLine s = { s with
      out := (scanout s.scanRow s.disp.visH false s).out
      log := s.log ++ [.scanout s.scanRow s.disp.visH false, .frame]
      scanRow := 0
      beamRow := 0 } := by
  simp [hLine, hvalid, Nat.not_lt.2 hrow, frameEnd_eq]

end Line

/-- Settles O57: the step performs the line, by the equation of each case. -/
theorem hLineAdvancesBeam : Obligations.HLineAdvancesBeam := by
  intro s rest hwalk hin
  rw [step_op hwalk hin]
  refine ⟨fun hvalid => ?_, fun hvalid hrow => ?_, fun hvalid hrow => ?_⟩
  · exact congrArg _ (hLine_of_invalid (s := { s with inputs := rest }) hvalid)
  · exact congrArg _ (hLine_of_row_lt (s := { s with inputs := rest }) hvalid hrow)
  · exact congrArg _ (hLine_of_last_row (s := { s with inputs := rest }) hvalid hrow)

end Sys2Proof.Machine
end

section
/-! PROOF. The state-setting commands (41_fifo_commands.md, R160 to R175). Their words are read through the default
configuration, which has every default layout (R115 to R123); their meanings are stores (R161 to R166), loads of the
transform state (R168 to R173), one of which converts its entries exactly (R169), and a loop of pixel writes (R175). -/

namespace Sys2Proof.Machine

/-! ### Commands in the default layouts (R115 to R123) -/

section Layout

variable {c : Cfg} {ctx : Ctx} {q : QuadSize}

/-- A field as wide as its operand reads the same signed and unsigned (R123). -/
@[simp] theorem read_exact (k lo n : Nat) (signed : Bool) (ws : List Word) :
    (Field.mk k lo n).read signed n ws = (ws.getD k 0).extractLsb' lo n := by
  cases signed <;> simp [Field.read, extend]

@[simp] theorem read_loField (k : Nat) (signed : Bool) (ws : List Word) :
    (loField k).read signed 16 ws = lo16 (ws.getD k 0) := read_exact k 0 16 signed ws

@[simp] theorem read_hiField (k : Nat) (signed : Bool) (ws : List Word) :
    (hiField k).read signed 16 ws = hi16 (ws.getD k 0) := read_exact k 16 16 signed ws

@[simp] theorem read_whole (k : Nat) (signed : Bool) (ws : List Word) :
    (Field.whole k).read signed 32 ws = ws.getD k 0 := by
  rw [Field.whole, read_exact, BitVec.extractLsb'_eq_self]

/-- The first matrix of a two-matrix load begins with word 1 (R118). -/
theorem halfwordMatrix_zero : halfwordMatrix 0 =
    ⟨⟨loField 1, hiField 1, loField 2⟩, ⟨hiField 2, loField 3, hiField 3⟩, ⟨loField 4, hiField 4, loField 5⟩⟩ := rfl

/-- The second matrix begins with the high half of word 5 (R118). -/
theorem halfwordMatrix_nine : halfwordMatrix 9 =
    ⟨⟨hiField 5, loField 6, hiField 6⟩, ⟨loField 7, hiField 7, loField 8⟩, ⟨hiField 8, loField 9, hiField 9⟩⟩ := rfl

/-- Under the default encoding a command has the default number of words, and its operands in their default places. -/
theorem decode_of_default (he : c.DefaultEncoding) {f : Format} {ws : List Word} (rest : List Word)
    (hlen : ws.length = (defaultCfg .gen1).count f) (hf : formatOf c ctx q (ws.headD 0) = f) :
    decode c ctx q (ws ++ rest) = .ok (readFormat (defaultCfg .gen1) ctx (ws ++ rest) f, rest) := by
  obtain ⟨hfmt, hcounts⟩ := he
  have hcount : (defaultCfg .gen1).count f = c.count f := by
    cases f <;> simp only [Cfg.count, hcounts] <;> rfl
  have hread : readFormat c ctx (ws ++ rest) f = readFormat (defaultCfg .gen1) ctx (ws ++ rest) f := by
    cases f <;> simp only [readFormat, hfmt] <;> rfl
  rw [decode_append rest (hlen.trans hcount) hf, hread]

variable {w0 : Word}

/-- The default place of the matrix discriminator is the low half of the first word (R118). -/
theorem formatOf_of_matrix_default (hc : c.Wf) (he : c.DefaultEncoding) (h : opOf w0 = c.op.matrix) :
    formatOf c ctx q w0 = if lo16 w0 = c.matrixDisc then .matrix2 else .matrix1 := by
  rw [formatOf_of_matrix hc h, he.1]
  rfl

/-- By default bit 23 of the first word selects the long LIGHT (R119). -/
theorem formatOf_of_light_default (hc : c.Wf) (he : c.DefaultEncoding) (h : opOf w0 = c.op.light) :
    formatOf c ctx q w0 = if w0.getLsbD 23 = true then .lightl else .lights := by
  rw [formatOf_of_light hc h, he.1]
  rfl

theorem decode_ptrset (he : c.DefaultEncoding) (h : opOf w0 = c.op.ptrset) (data : Word) (r : List Word) :
    decode c ctx q (w0 :: data :: r) = .ok (.ptrset (w0.extractLsb' 0 24) data, r) := by
  refine (decode_of_default he (ws := [w0, data]) r rfl (formatOf_of_ptrset h)).trans ?_
  simp [readFormat, defaultCfg, defaultFormats]

theorem decode_regw16 (hc : c.Wf) (he : c.DefaultEncoding) (h : opOf w0 = c.op.regw16) (r : List Word) :
    decode c ctx q (w0 :: r) = .ok (.regw16 (w0.getLsbD 23) (w0.extractLsb' 16 7) (lo16 w0), r) := by
  refine (decode_of_default he (ws := [w0]) r rfl (formatOf_of_regw16 hc h)).trans ?_
  simp [readFormat, defaultCfg, defaultFormats]

theorem decode_regw32 (hc : c.Wf) (he : c.DefaultEncoding) (h : opOf w0 = c.op.regw32) (data : Word) (r : List Word) :
    decode c ctx q (w0 :: data :: r) = .ok (.regw32 (w0.extractLsb' 16 7) data, r) := by
  refine (decode_of_default he (ws := [w0, data]) r rfl (formatOf_of_regw32 hc h)).trans ?_
  simp [readFormat, defaultCfg, defaultFormats]

theorem decode_matrix1 (hc : c.Wf) (he : c.DefaultEncoding) (h : opOf w0 = c.op.matrix)
    (hdisc : lo16 w0 ≠ c.matrixDisc) (w1 w2 w3 w4 w5 w6 w7 : Word) (r : List Word) :
    decode c ctx q (w0 :: w1 :: w2 :: w3 :: w4 :: w5 :: w6 :: w7 :: r) =
      .ok (.matrix1
        ⟨⟨lo16 w2, hi16 w2, lo16 w0⟩, ⟨lo16 w3, hi16 w3, hi16 w1⟩, ⟨lo16 w4, hi16 w4, lo16 w1⟩⟩ ⟨w5, w6, w7⟩, r) := by
  have hf : formatOf c ctx q w0 = .matrix1 := (formatOf_of_matrix_default hc he h).trans (if_neg hdisc)
  refine (decode_of_default he (ws := [w0, w1, w2, w3, w4, w5, w6, w7]) r rfl hf).trans ?_
  simp [readFormat, defaultCfg, defaultFormats, wholeWords, Mat3.map, Vec3.map]

theorem decode_matrix2 (hc : c.Wf) (he : c.DefaultEncoding) (h : opOf w0 = c.op.matrix)
    (hdisc : lo16 w0 = c.matrixDisc) (w1 w2 w3 w4 w5 w6 w7 w8 w9 w10 w11 w12 : Word) (r : List Word) :
    decode c ctx q (w0 :: w1 :: w2 :: w3 :: w4 :: w5 :: w6 :: w7 :: w8 :: w9 :: w10 :: w11 :: w12 :: r) =
      .ok (.matrix2
        ⟨⟨lo16 w1, hi16 w1, lo16 w2⟩, ⟨hi16 w2, lo16 w3, hi16 w3⟩, ⟨lo16 w4, hi16 w4, lo16 w5⟩⟩
        ⟨⟨hi16 w5, lo16 w6, hi16 w6⟩, ⟨lo16 w7, hi16 w7, lo16 w8⟩, ⟨hi16 w8, lo16 w9, hi16 w9⟩⟩
        ⟨w10, w11, w12⟩, r) := by
  have hf : formatOf c ctx q w0 = .matrix2 := (formatOf_of_matrix_default hc he h).trans (if_pos hdisc)
  refine (decode_of_default he (ws := [w0, w1, w2, w3, w4, w5, w6, w7, w8, w9, w10, w11, w12]) r rfl hf).trans ?_
  simp [readFormat, defaultCfg, defaultFormats, wholeWords, halfwordMatrix_zero, halfwordMatrix_nine, Mat3.map,
    Vec3.map]

theorem decode_lights (hc : c.Wf) (he : c.DefaultEncoding) (h : opOf w0 = c.op.light)
    (hshort : w0.getLsbD 23 = false) (w1 : Word) (r : List Word) :
    decode c ctx q (w0 :: w1 :: r) = .ok (.lights ⟨lo16 w0, hi16 w1, lo16 w1⟩, r) := by
  have hf : formatOf c ctx q w0 = .lights :=
    (formatOf_of_light_default hc he h).trans (if_neg (Bool.eq_false_iff.1 hshort))
  refine (decode_of_default he (ws := [w0, w1]) r rfl hf).trans ?_
  simp [readFormat, defaultCfg, defaultFormats, Vec3.map]

theorem decode_lightl (hc : c.Wf) (he : c.DefaultEncoding) (h : opOf w0 = c.op.light)
    (hlong : w0.getLsbD 23 = true) (w1 w2 w3 : Word) (r : List Word) :
    decode c ctx q (w0 :: w1 :: w2 :: w3 :: r) = .ok (.lightl ⟨w1, w2, w3⟩, r) := by
  have hf : formatOf c ctx q w0 = .lightl := (formatOf_of_light_default hc he h).trans (if_pos hlong)
  refine (decode_of_default he (ws := [w0, w1, w2, w3]) r rfl hf).trans ?_
  simp [readFormat, defaultCfg, defaultFormats, wholeWords, Vec3.map]

theorem decode_clear (hc : c.Wf) (he : c.DefaultEncoding) (h : opOf w0 = c.op.clear) (r : List Word) :
    decode c ctx q (w0 :: r) = .ok (.clear, r) :=
  decode_of_default he (ws := [w0]) r rfl (formatOf_of_clear hc h)

end Layout

/-- Settles O3: each example is a closed computation of the decoder under the default configuration. -/
theorem decodeReadsExampleWords : Obligations.DecodeReadsExampleWords := ⟨rfl, rfl, rfl, rfl, rfl, rfl⟩

/-! ### Stores into the slots (R161, R164, R166) -/

section Stores

variable {s : State}

/-- A slot with no function and the push port have no side effect inside a command (R22, R142). -/
theorem sideEffect_of_store_only {slot : SlotNo} (h : slot ∉ s.cfg.slot.active ∨ slot = s.cfg.slot.fifo) :
    sideEffect slot s = s := by
  rcases h with hpassive | hport
  · exact sideEffect_passive s hpassive
  · rw [sideEffect, if_pos hport]

/-- The side effect of a timing slot is a retime (R142, R314). -/
theorem sideEffect_timing (h : s.cfg.Wf) {slot : SlotNo}
    (hslot : slot ∈ [s.cfg.slot.tTotal, s.cfg.slot.tHvis, s.cfg.slot.tVvis]) : sideEffect slot s = retime s := by
  have hn := h.slots_nodup
  simp only [Slots.all, List.nodup_cons, List.mem_cons, List.not_mem_nil, not_or] at hn
  simp only [List.mem_cons, List.not_mem_nil, or_false] at hslot
  rcases hslot with rfl | rfl | rfl <;> simp [sideEffect, hn, eq_comm]

/-- The page-select slot has no side effect: its fields are read where they are used (R26, R142). -/
theorem page_not_active (h : s.cfg.Wf) : s.cfg.slot.page ∉ s.cfg.slot.active := by
  have hn := h.slots_nodup
  simp only [Slots.all, List.nodup_cons, List.mem_cons, List.not_mem_nil, not_or] at hn
  simp [Slots.active, hn]

end Stores

/-- Settles O17: the store keeps the configuration, so the side effect is the one of the slot's class. -/
theorem regw32WritesSlot : Obligations.Regw32WritesSlot := by
  intro s slot v h
  refine ⟨fun he ctx w0 r hop => decode_regw32 h he hop v r, rfl, fun hstore => ?_, ?_, ?_, fun htiming => ?_⟩
  · exact congrArg _ (sideEffect_of_store_only (s := s.setReg slot v) hstore)
  · rintro bk rfl
    exact exec_regw32_addrSlot h bk v
  · exact fun bk j hj => exec_regw32_dataSlot h hj v
  · exact congrArg _ (sideEffect_timing (s := s.setReg slot v) h htiming)

/-- Settles O16: either half is a store, and the store of the low half runs the side effect the slot has. -/
theorem regw16WritesHalf : Obligations.Regw16WritesHalf := by
  intro s slot d h
  refine ⟨fun he ctx w0 r hop => decode_regw16 h he hop r, rfl, rfl, fun hstore => ?_⟩
  exact congrArg _ (sideEffect_of_store_only (s := s.setReg slot (joinHalves (hi16 (s.reg slot)) d)) hstore)

/-! ### PTRSET (R161) -/

section Ptrset

variable {s : State}

theorem ptrset_rt (h : s.cfg.Wf) (data : Word) : ptrset s.cfg.psel.rt data s = s.setReg s.cfg.slot.page data := by
  rw [ptrset, if_pos rfl]
  exact sideEffect_passive (s.setReg s.cfg.slot.page data) (page_not_active h)

/-- In a legal configuration no selector is an earlier one of the table (R116). -/
theorem psel_apart {c : Cfg} (h : c.Wf) :
    c.psel.tex ≠ c.psel.rt ∧ (c.psel.pal ≠ c.psel.rt ∧ c.psel.pal ≠ c.psel.tex) ∧
      c.psel.qsize ≠ c.psel.rt ∧ c.psel.qsize ≠ c.psel.tex ∧ c.psel.qsize ≠ c.psel.pal := by
  have hn := h.psel_nodup
  simp only [List.nodup_cons, List.mem_cons, List.not_mem_nil, or_false, not_or] at hn
  obtain ⟨⟨htex, hpal, hqsize⟩, ⟨hpal', hqsize'⟩, hqsize'', -⟩ := hn
  exact ⟨Ne.symm htex, ⟨Ne.symm hpal, Ne.symm hpal'⟩, Ne.symm hqsize, Ne.symm hqsize', Ne.symm hqsize''⟩

theorem ptrset_tex (h : s.cfg.Wf) (data : Word) : ptrset s.cfg.psel.tex data s = { s with pTex := data } := by
  simp [ptrset, psel_apart h]

theorem ptrset_pal (h : s.cfg.Wf) (data : Word) : ptrset s.cfg.psel.pal data s = { s with pPal := data } := by
  simp [ptrset, psel_apart h]

theorem ptrset_qsize (h : s.cfg.Wf) (data : Word) :
    ptrset s.cfg.psel.qsize data s = { s with pQsize := quadSizeOf s.cfg data } := by
  simp [ptrset, psel_apart h]

theorem ptrset_unknown {sel : BitVec 24}
    (hsel : sel ∉ [s.cfg.psel.rt, s.cfg.psel.tex, s.cfg.psel.pal, s.cfg.psel.qsize]) (data : Word) :
    ptrset sel data s = { s with log := s.log ++ [.unknownPointerSlot sel data] } := by
  simp only [List.mem_cons, List.not_mem_nil, or_false, not_or] at hsel
  simp [ptrset, hsel, State.logEvent]

end Ptrset

/-- By default bit 0 of the data selects the quad size (R161). -/
theorem quadSizeOf_default {c : Cfg} (he : c.DefaultEncoding) (data : Word) :
    quadSizeOf c data = if data.getLsbD 0 then .q14 else .q10 := by
  rw [quadSizeOf, he.1]
  rfl

/-- Settles O15, selector by selector. -/
theorem ptrsetWritesItsSlot : Obligations.PtrsetWritesItsSlot := by
  intro s data h
  refine ⟨fun he => ⟨fun ctx w0 r hop => decode_ptrset he hop data r, ?_⟩, ?_, ?_, ?_, ?_, fun sel hsel => ?_⟩
  · rw [← quadSizeOf_default he]
    exact congrArg _ (ptrset_qsize h data)
  · exact congrArg _ (ptrset_rt h data)
  · exact congrArg _ (ptrset_tex h data)
  · exact congrArg _ (ptrset_pal h data)
  · exact congrArg _ (ptrset_qsize h data)
  · exact congrArg _ (ptrset_unknown hsel data)

/-! ### MATRIX and LIGHT (R168 to R173) -/

/-- Settles O21: the generation selects the fixed-point load. -/
theorem matrix1LoadsGen1 : Obligations.Matrix1LoadsGen1 := by
  intro s h hgen
  refine ⟨fun m t => ?_, fun he w0 w1 w2 w3 w4 w5 w6 w7 hop hdisc => ?_⟩
  · simp only [exec, execMatrix1, matrix1, hgen]
  · exact decode_matrix1 h he hop hdisc w1 w2 w3 w4 w5 w6 w7 []

/-- Settles O22: the generation selects the load that converts. -/
theorem matrix1LoadsGen2 : Obligations.Matrix1LoadsGen2 := by
  intro s m t hgen
  simp only [exec, execMatrix1, matrix1, hgen]
  rfl

/-- Settles O25: the two forms set one field each, and bit 23 of the first word tells them apart. -/
theorem lightLoadsItsVector : Obligations.LightLoadsItsVector :=
  ⟨fun _ _ _ => ⟨rfl, rfl⟩, fun _ h he _ _ w1 w2 w3 r hop =>
    ⟨fun hshort => decode_lights h he hop hshort w1 r, fun hlong => decode_lightl h he hop hlong w1 w2 w3 r⟩⟩

/-- Entry `[r][k]` of a product is the inner product of row `r` and column `k` (R170). -/
theorem matMul_entry {α β : Type} (dot : Vec3 α → Vec3 α → β) (a b : Mat3 α) (r k : Fin 3) :
    (matMul dot a b).entry r k =
      dot ⟨a.entry r 0, a.entry r 1, a.entry r 2⟩ ⟨b.entry 0 k, b.entry 1 k, b.entry 2 k⟩ := by
  fin_cases r <;> fin_cases k <;> rfl

/-- With the default functions an entry of the product is the 16-bit wrap of the floor of the exact sum over
`2^FX_FRAC` (R170). -/
theorem dotFix_standard {c : Cfg} (hround : c.fxRound = .standard) (hwrap : c.wrap16 = .standard) (r k : Vec3 Half) :
    (dotFix c r k).toInt = Int.bmod
      ((r.e0.toInt * k.e0.toInt + r.e1.toInt * k.e1.toInt + r.e2.toInt * k.e2.toInt) / 2 ^ c.fxFrac) (2 ^ 16) := by
  rw [dotFix, fxRound_standard hround, wrap16_standard hwrap, BitVec.toInt_ofInt]

/-- Settles O24: each generation stores the matrix product with its own inner product. -/
theorem matrix2LoadsProduct : Obligations.Matrix2LoadsProduct := by
  refine ⟨fun s h he ctx w0 w1 w2 w3 w4 w5 w6 w7 w8 w9 w10 w11 w12 r hop hdisc =>
    decode_matrix2 h he hop hdisc w1 w2 w3 w4 w5 w6 w7 w8 w9 w10 w11 w12 r,
    fun s a b t => ⟨fun hgen => ?_, fun hgen => ?_⟩⟩
  · refine ⟨matMul (dotFix s.cfg) a b, by simp only [exec, execMatrix2, matrix2, hgen], fun r k => ?_⟩
    rw [matMul_entry]
    exact ⟨rfl, fun hround hwrap => dotFix_standard hround hwrap _ _⟩
  · refine ⟨matMul (dotFlt s.cfg) a b, ?_, fun r k => matMul_entry ..⟩
    simp only [exec, execMatrix2, matrix2, hgen]
    rfl

/-! ### The conversion of an entry is exact (R169, R226) -/

namespace F32

/-! An encoding made of a sign, an exponent field and a fraction reads back its parts. -/

section Parts

variable {neg : Bool} {e f : Nat}

theorem withSign_toNat (he : e < 2 ^ 8) (hf : f < 2 ^ 23) :
    (withSign neg (e * 2 ^ 23 + f)).toNat = (if neg then 2 ^ 31 else 0) + (e * 2 ^ 23 + f) := by
  rw [withSign, BitVec.toNat_ofNat, Nat.mod_eq_of_lt]
  cases neg <;> simp <;> omega

theorem expField_withSign (he : e < 2 ^ 8) (hf : f < 2 ^ 23) : expField (withSign neg (e * 2 ^ 23 + f)) = e := by
  rw [expField, withSign_toNat he hf]
  cases neg <;> simp <;> omega

theorem fracField_withSign (he : e < 2 ^ 8) (hf : f < 2 ^ 23) : fracField (withSign neg (e * 2 ^ 23 + f)) = f := by
  rw [fracField, withSign_toNat he hf]
  cases neg <;> simp <;> omega

theorem signBit_withSign (he : e < 2 ^ 8) (hf : f < 2 ^ 23) : signBit (withSign neg (e * 2 ^ 23 + f)) = neg := by
  rw [signBit, BitVec.getLsbD, Nat.testBit_eq_decide_div_mod_eq, withSign_toNat he hf]
  cases neg <;> simp <;> omega

theorem magUnits_withSign (he : e < 2 ^ 8) (hf : f < 2 ^ 23) :
    magUnits (withSign neg (e * 2 ^ 23 + f)) = if e = 0 then f else (2 ^ 23 + f) * 2 ^ (e - 1) := by
  rw [magUnits, expField_withSign he hf, fracField_withSign he hf]

theorem isFinite_withSign (he : e < 2 ^ 8) (hf : f < 2 ^ 23) (hmax : e ≠ 255) :
    isFinite (withSign neg (e * 2 ^ 23 + f)) = true := by
  rw [isFinite, expField_withSign he hf]
  simpa using hmax

end Parts

/-- A quotient without remainder needs no rounding. -/
theorem divEven_mul (n : Nat) {den : Nat} (hden : 0 < den) : divEven (n * den) den = n := by
  simp [divEven, hden]

theorem log2_mul_two_pow {m : Nat} (hm : m ≠ 0) (n : Nat) : (m * 2 ^ n).log2 = m.log2 + n := by
  induction n with
  | zero => simp
  | succ n ih =>
    rw [Nat.pow_succ, ← Nat.mul_assoc, Nat.mul_comm _ 2, Nat.log2_two_mul (by positivity), ih, Nat.add_assoc]

/-- The leading bit of a normal significand carries into the exponent field, short of infinity. -/
theorem carry_leading_bit {k e : Nat} (hk : 2 ^ 23 ≤ k ∧ k < 2 ^ 24) (he : e < 254) :
    min (e * 2 ^ 23 + k) (255 * 2 ^ 23) = (e + 1) * 2 ^ 23 + (k - 2 ^ 23) := by omega

/-! A value `m * 2^n` of at most 24 significant bits, in units of 2^-149, is rounded to itself where its quantum, of
exponent `e`, is in range. -/

section Exact

variable {m n e den : Nat}

/-- `m` moved up to the 24 bits of a normal significand. -/
theorem significand_bounds (hm : m ≠ 0) (hlt : m < 2 ^ 24) :
    2 ^ 23 ≤ m * 2 ^ (23 - m.log2) ∧ m * 2 ^ (23 - m.log2) < 2 ^ 24 := by
  have hlog : m.log2 < 24 := (Nat.log2_lt hm).2 hlt
  rw [← Nat.le_log2 (by positivity), ← Nat.log2_lt (by positivity), log2_mul_two_pow hm]
  omega

/-- The value is its significand times its quantum. -/
theorem significand_mul (hm : m ≠ 0) (hlt : m < 2 ^ 24) (he : m.log2 + n = e + 23) :
    m * 2 ^ (23 - m.log2) * 2 ^ e = m * 2 ^ n := by
  have hlog : m.log2 < 24 := (Nat.log2_lt hm).2 hlt
  have hexp : 23 - m.log2 + e = n := by omega
  rw [Nat.mul_assoc, ← Nat.pow_add, hexp]

theorem roundMag_exact (hm : m ≠ 0) (hlt : m < 2 ^ 24) (he : m.log2 + n = e + 23) (hmax : e < 254) (hden : 0 < den) :
    roundMag (m * 2 ^ n * den) den = (e + 1) * 2 ^ 23 + (m * 2 ^ (23 - m.log2) - 2 ^ 23) := by
  have hquantum : quantumExp (m * 2 ^ n * den) den = e := by
    rw [quantumExp, Nat.mul_div_cancel _ hden, log2_mul_two_pow hm, he, Nat.add_sub_cancel]
  have hdiv : divEven (m * 2 ^ n * den) (den * 2 ^ e) = m * 2 ^ (23 - m.log2) := by
    rw [← significand_mul hm hlt he, Nat.mul_assoc, Nat.mul_comm _ den, divEven_mul _ (by positivity)]
  rw [roundMag, hquantum, hdiv]
  exact carry_leading_bit (significand_bounds hm hlt) hmax

theorem ofUnits_exact (hm : m ≠ 0) (hlt : m < 2 ^ 24) (he : m.log2 + n = e + 23) (hmax : e < 254) (hden : 0 < den)
    (neg : Bool) :
    isFinite (ofUnits neg (m * 2 ^ n * den) den) = true ∧
      units (ofUnits neg (m * 2 ^ n * den) den) = if neg then -((m * 2 ^ n : Nat) : Int) else (m * 2 ^ n : Nat) := by
  have hsig := significand_mul hm hlt he
  have hbounds := significand_bounds hm hlt
  rw [units, ofUnits, roundMag_exact hm hlt he hmax hden]
  generalize m * 2 ^ (23 - m.log2) = k at hsig hbounds ⊢
  have hexp : e + 1 < 2 ^ 8 := by omega
  have hfrac : k - 2 ^ 23 < 2 ^ 23 := by omega
  rw [isFinite_withSign hexp hfrac (by omega), signBit_withSign hexp hfrac, magUnits_withSign hexp hfrac,
    if_neg (Nat.succ_ne_zero e), Nat.add_sub_cancel' hbounds.1, Nat.add_sub_cancel, hsig]
  exact ⟨rfl, rfl⟩

end Exact

theorem ofRat_zero (n : Nat) : ofRat 0 n = 0 := by
  simp [ofRat, ofUnits, roundMag, quantumExp, divEven, withSign]

/-- `i / 2^n` with a numerator of at most 24 bits, above the least quantum, is converted exactly (R226). -/
theorem ofRat_exact {i : Int} {n : Nat} (hi : i.natAbs < 2 ^ 24) (hn : n ≤ 126) :
    isFinite (ofRat i n) = true ∧ units (ofRat i n) * 2 ^ n = i * 2 ^ 149 := by
  by_cases hzero : i = 0
  · rw [hzero, ofRat_zero, show units 0 = 0 from rfl]
    exact ⟨rfl, by simp⟩
  have habs : i.natAbs ≠ 0 := Int.natAbs_ne_zero.2 hzero
  have hlog : i.natAbs.log2 < 24 := (Nat.log2_lt habs).2 hi
  have hnum : i.natAbs * 2 ^ 149 = i.natAbs * 2 ^ (149 - n) * 2 ^ n := by
    rw [Nat.mul_assoc, ← Nat.pow_add, Nat.sub_add_cancel (by omega)]
  obtain ⟨hfinite, hunits⟩ := ofUnits_exact (n := 149 - n) (e := i.natAbs.log2 + (149 - n) - 23) habs hi (by omega)
    (by omega) (Nat.two_pow_pos n) (decide (i < 0))
  rw [← hnum] at hfinite hunits
  have hsigned : units (ofRat i n) = i * 2 ^ (149 - n) := by
    rw [ofRat, hunits]
    rcases lt_or_ge i 0 with hneg | hpos
    · simp [hneg, abs_of_neg]
    · simp [hpos, not_lt.2 hpos, abs_of_nonneg]
  refine ⟨hfinite, ?_⟩
  rw [hsigned, mul_assoc, ← pow_add, Nat.sub_add_cancel (by omega)]

end F32

/-- Settles O23: an entry has at most 16 significant bits. -/
theorem entryConversionIsExact : Obligations.EntryConversionIsExact := by
  intro e
  have hlow := BitVec.le_toInt e
  have hhigh := BitVec.toInt_lt (x := e)
  exact F32.ofRat_exact (by omega) (by omega)

/-! ### CLEAR (R175) -/

/-- What turn `x` of a loop brings about and every other turn keeps holds for every `x` after the loop. -/
theorem foldl_range_forall {σ : Type} {P : Nat → σ → Prop} {f : σ → Nat → σ} {n : Nat}
    (hset : ∀ m x, x < n → P x (f m x)) (hkeep : ∀ m x x', x < n → P x' m → P x' (f m x)) (m : σ) :
    ∀ x < n, P x ((List.range n).foldl f m) := by
  induction n with
  | zero => exact fun x hx => absurd hx (Nat.not_lt_zero x)
  | succ n ih =>
    intro x hx
    rw [List.range_succ, List.foldl_append]
    rcases Nat.lt_succ_iff_lt_or_eq.1 hx with hlt | rfl
    · exact hkeep _ n x n.lt_succ_self (ih (fun m y hy => hset m y (hy.trans n.lt_succ_self))
        (fun m y y' hy => hkeep m y y' (hy.trans n.lt_succ_self)) x hlt)
    · exact hset _ x hx

/-- What the turn at `(x, y)` of a rectangle's loop brings about and every other turn keeps holds for the whole
rectangle after the loop. -/
theorem forRect_forall {σ : Type} {P : Nat → Nat → σ → Prop} {w h : Nat} {f : σ → Nat → Nat → σ}
    (hset : ∀ m x y, P x y (f m x y)) (hkeep : ∀ m x y x' y', P x' y' m → P x' y' (f m x y)) (m : σ) :
    ∀ x y, x < w → y < h → P x y (forRect w h f m) := by
  intro x y hx hy
  refine foldl_range_forall (P := P x) (fun m y _ => ?_) (fun m y y' _ hm => ?_) m y hy
  · exact foldl_range_forall (P := fun x => P x y) (fun m x _ => hset m x y) (fun m x x' _ => hkeep m x y x' y) m x hx
  · exact foldl_range_induct hm fun m x' _ => hkeep m x' y x y'

section Clear

variable {c : Cfg}

/-- A pixel write leaves the pixel of another block (R272). -/
theorem setPixel_read_ne (h : c.Wf) (m : Memory) {blk blk' : Nat} (hne : blk' ≠ blk) (v : Color) (d : Half) :
    pixColor c (setPixel c m blk v d) blk' = pixColor c m blk' ∧
      pixDepth c (setPixel c m blk v d) blk' = pixDepth c m blk' := by
  have hbyte : ∀ a ∈ pixelAddrs c blk', (setPixel c m blk v d).get a = m.get a :=
    fun a ha => setPixel_get_ne m v d (pixelAddrs_disjoint h hne ha)
  exact ⟨pixColor_congr fun a ha => hbyte a (List.mem_append_left _ ha),
    pixDepth_congr fun a ha => hbyte a (List.mem_append_right _ ha)⟩

/-- The pixel of a block is cleared: the clear colour and the greatest depth (R175). -/
def PixelCleared (c : Cfg) (blk : Nat) (m : Memory) : Prop :=
  pixColor c m blk = storedColour c.gen c.clearColor ∧ pixDepth c m blk = depthMaxHalf c

/-- The write of a cleared pixel clears its block and keeps every block cleared that is. -/
theorem pixelCleared_setPixel (h : c.Wf) {m : Memory} {blk blk' : Nat} (hm : blk' = blk ∨ PixelCleared c blk' m) :
    PixelCleared c blk' (setPixel c m blk c.clearColor (depthMaxHalf c)) := by
  by_cases e : blk' = blk
  · rw [e]
    exact setPixel_read h m blk c.clearColor (depthMaxHalf c)
  · obtain ⟨hcolor, hdepth⟩ := setPixel_read_ne h m e c.clearColor (depthMaxHalf c)
    obtain ⟨hcolor', hdepth'⟩ := hm.resolve_left e
    exact ⟨hcolor.trans hcolor', hdepth.trans hdepth'⟩

/-- Every pixel of the rectangle is cleared, also where the rectangle wraps onto itself: all writes are alike. -/
theorem pixelCleared_clearRect (h : c.Wf) (base w ht : Nat) (m : Memory) :
    ∀ x y, x < w → y < ht → PixelCleared c (pixelBlock c base x y) (clearRect c base w ht m) :=
  forRect_forall (P := fun x y m => PixelCleared c (pixelBlock c base x y) m)
    (fun _ _ _ => pixelCleared_setPixel h (.inl rfl)) (fun _ _ _ _ _ hm => pixelCleared_setPixel h (.inr hm)) m

theorem depthMaxHalf_toNat (h : c.Wf) : (depthMaxHalf c).toNat = c.depthMax := by
  have := h.depthMax_le
  rw [depthMaxHalf, BitVec.toNat_ofNat, Nat.mod_eq_of_lt (by omega)]

end Clear

/-- Settles O27: the loop clears every visible pixel, and its pixel writes touch drawable bytes only. -/
theorem clearFillsVisibleRectangle : Obligations.ClearFillsVisibleRectangle := by
  intro s h
  refine ⟨fun he ctx w r hop => decode_clear h he hop r, clear s, rfl, rfl, fun x y hx hy => ?_, fun a ha => ?_⟩
  · obtain ⟨hcolor, hdepth⟩ := pixelCleared_clearRect h s.rbase s.disp.visW s.disp.visH s.bankB x y hx hy
    exact ⟨hcolor, (congrArg BitVec.toNat hdepth).trans (depthMaxHalf_toNat h)⟩
  · exact (clear_writes s).get fun blk hblk hmem => ha ⟨blk, hblk, hmem⟩

end Sys2Proof.Machine
end

section
/-! PROOF. The drawing commands (42_draw_commands.md). The walker of a model list (R190 to R197): what one turn does
with the words it meets, and DRAWMODEL as the fewest turns that end its walk. The QUAD (R200, R201): its layouts, its
fill mode, and the polygon its pipeline gives or drops. -/

namespace Sys2Proof.Machine

/-! ### Opcodes known in one context only (R114) -/

/-- The FIFO knows every opcode but END and CHAIN (R114). -/
theorem all_perm_known_fifo (o : Opcodes) : o.all.Perm (o.endModel :: o.chain :: o.known .fifo) :=
  (List.perm_middle (l₁ := [o.ptrset])).trans ((List.Perm.swap ..).cons _)

/-- A model list knows every opcode but DRAWMODEL (R114). -/
theorem all_perm_known_model (o : Opcodes) : o.all.Perm (o.drawmodel :: o.known .model) :=
  List.perm_middle (l₁ := [o.ptrset, o.endModel, o.chain])

section Contexts

variable {c : Cfg}

theorem opKnown_fifo_endModel (hc : c.Wf) : c.opKnown .fifo c.op.endModel = false := by
  have hnodup := (all_perm_known_fifo c.op).nodup hc.ops_nodup
  have hnot : c.op.endModel ∉ c.op.known .fifo :=
    fun hmem => (List.nodup_cons.1 hnodup).1 (List.mem_cons_of_mem _ hmem)
  simpa [Cfg.opKnown] using hnot

theorem opKnown_fifo_chain (hc : c.Wf) : c.opKnown .fifo c.op.chain = false := by
  have hnodup := (all_perm_known_fifo c.op).nodup hc.ops_nodup
  have hnot : c.op.chain ∉ c.op.known .fifo := (List.nodup_cons.1 (List.nodup_cons.1 hnodup).2).1
  simpa [Cfg.opKnown] using hnot

theorem opKnown_model_drawmodel (hc : c.Wf) : c.opKnown .model c.op.drawmodel = false := by
  have hnodup := (all_perm_known_model c.op).nodup hc.ops_nodup
  have hnot : c.op.drawmodel ∉ c.op.known .model := (List.nodup_cons.1 hnodup).1
  simpa [Cfg.opKnown] using hnot

/-- No word of a model list opens a DRAWMODEL (R114, R195). -/
theorem formatOf_model_ne_drawmodel (hc : c.Wf) (q : QuadSize) (w : Word) : formatOf c .model q w ≠ .drawmodel := by
  by_cases hop : opOf w = c.op.drawmodel
  · rw [formatOf_of_unknown (hop ▸ opKnown_model_drawmodel hc)]
    nofun
  · unfold formatOf
    simp only [hop, if_false]
    repeat' split
    all_goals nofun

theorem readFormat_model_inCtx {f : Format} (hf : f ≠ .drawmodel) (ws : List Word) :
    (readFormat c .model ws f).inCtx .model = true := by
  cases f with
  | drawmodel => exact absurd rfl hf
  | _ => rfl

/-- The decoder reads from a model list only what a model list can hold (R111, R114). -/
theorem decode_model_inCtx (hc : c.Wf) {q : QuadSize} {ws r : List Word} {i : Instr}
    (h : decode c .model q ws = .ok (i, r)) : i.inCtx .model = true := by
  cases ws with
  | nil => cases h
  | cons w0 ws =>
    by_cases hlen : need c .model q w0 ≤ (w0 :: ws).length
    · rw [decode_of_need_le hlen] at h
      cases h
      exact readFormat_model_inCtx (formatOf_model_ne_drawmodel hc q w0) _
    · rw [decode_of_lt_need (Nat.lt_of_not_le hlen)] at h
      cases h

end Contexts

/-! ### One turn of a walk (R192, R194) -/

section Turn

variable {s : State} {k : Walker}

theorem subAt_of_lt_need (h : k.mrem < need s.cfg .model s.pQsize (streamWord s.cfg s.bankA k.mp k.k)) :
    s.subAt k = none :=
  if_pos h

theorem subAt_of_decode (hle : need s.cfg .model s.pQsize (streamWord s.cfg s.bankA k.mp k.k) ≤ k.mrem)
    {i : Instr} {r : List Word}
    (hdec : decode s.cfg .model s.pQsize (streamWords s.cfg s.bankA k.mp k.k
      (need s.cfg .model s.pQsize (streamWord s.cfg s.bankA k.mp k.k))) = .ok (i, r)) :
    s.subAt k = some (i, need s.cfg .model s.pQsize (streamWord s.cfg s.bankA k.mp k.k)) := by
  unfold State.subAt
  simp only [if_neg (Nat.not_lt.2 hle), hdec]

/-- A sub-command at the walker's position has a word, so there are words to go. -/
theorem mrem_ne_zero_of_subAt {i : Instr} {n : Nat} (h : s.subAt k = some (i, n)) : k.mrem ≠ 0 := by
  obtain ⟨hpos, hle⟩ := subAt_some h
  omega

/-- With no sub-command to run the walk ends, whether the count is used up or runs out inside one (R192, R194). -/
theorem walkTurn_of_subAt_none (hw : s.walk = some k) (h : s.subAt k = none) :
    walkTurn s = { s with walk := none } := by
  simp only [walkTurn, hw, h, ite_self]

theorem walkStep_of_subAt_none (h : s.subAt k = none) : walkStep k s = .next { s with walk := none } := by
  simp only [walkStep, h, ite_self]

/-- A sub-command that fits the count is run. -/
theorem walkTurn_of_subAt_some (hw : s.walk = some k) {i : Instr} {n : Nat} (h : s.subAt k = some (i, n)) :
    walkTurn s = runSub i (s.atSub k i n) := by
  simp only [walkTurn, hw, h, if_neg (mrem_ne_zero_of_subAt h)]

theorem walkStep_of_subAt_some {i : Instr} {n : Nat} (h : s.subAt k = some (i, n)) :
    walkStep k s = exec i (s.atSub k i n) := by
  simp only [walkStep, h, if_neg (mrem_ne_zero_of_subAt h)]

end Turn

/-- Settles O6: the step and the turn run the same sub-command, and `exec` runs it as the walker does because the
decoder finds no DRAWMODEL in a model list. -/
theorem stepRunsListCommand : Obligations.StepRunsListCommand := by
  intro s k i r hc hw hle hdec
  have hsub := subAt_of_decode hle hdec
  have hexec := exec_runSub i (s.atSub k i (need s.cfg .model s.pQsize (streamWord s.cfg s.bankA k.mp k.k)))
    (decode_model_inCtx hc hdec)
  exact ⟨_, hexec, (step_walk hw).trans ((walkStep_of_subAt_some hsub).trans hexec), walkTurn_of_subAt_some hw hsub⟩

/-- Settles O7: there is no sub-command to run. -/
theorem truncatedSubcommandEndsWalk : Obligations.TruncatedSubcommandEndsWalk := by
  intro s k hw hlt
  have hsub := subAt_of_lt_need hlt
  exact ⟨(step_walk hw).trans (walkStep_of_subAt_none hsub), walkTurn_of_subAt_none hw hsub⟩

/-! ### END and CHAIN (R196, R197) -/

section Decode

variable {c : Cfg} {q : QuadSize} {w0 : Word}

theorem decode_endModel (hc : c.Wf) (he : c.DefaultEncoding) (h : opOf w0 = c.op.endModel) (r : List Word) :
    decode c .model q (w0 :: r) = .ok (.endModel, r) :=
  decode_of_default he (ws := [w0]) r rfl (formatOf_of_endModel hc h)

theorem decode_chain (hc : c.Wf) (he : c.DefaultEncoding) (h : opOf w0 = c.op.chain) (addr : Word) (r : List Word) :
    decode c .model q (w0 :: addr :: r) = .ok (.chain (lo16 w0) addr, r) := by
  refine (decode_of_default he (ws := [w0, addr]) r rfl (formatOf_of_chain hc h)).trans ?_
  simp [readFormat, defaultCfg, defaultFormats]

theorem decode_drawmodel (hc : c.Wf) (he : c.DefaultEncoding) (h : opOf w0 = c.op.drawmodel) (addr : Word)
    (r : List Word) : decode c .fifo q (w0 :: addr :: r) = .ok (.drawmodel (lo16 w0) addr, r) := by
  refine (decode_of_default he (ws := [w0, addr]) r rfl (formatOf_of_drawmodel hc h)).trans ?_
  simp [readFormat, defaultCfg, defaultFormats]

end Decode

/-- Below the limit a CHAIN is a jump (R197). -/
theorem chain_of_lt {s : State} {k : Walker} (hw : s.walk = some k) (hlt : k.mchain < s.cfg.maxChain) (count : Half)
    (addr : Word) : chain count addr s =
      { s with walk := some { mp := addr, k := 0, mrem := count.toNat, mchain := k.mchain + 1 } } := by
  simp only [chain, hw, if_neg (Nat.not_le.2 hlt)]

/-- At the limit a CHAIN is logged and ends the walk (R197). -/
theorem chain_of_le {s : State} {k : Walker} (hw : s.walk = some k) (hle : s.cfg.maxChain ≤ k.mchain) (count : Half)
    (addr : Word) : chain count addr s = { s with log := s.log ++ [.chainLimit addr], walk := none } := by
  simp only [chain, hw, if_pos hle, State.logEvent]

/-- Settles O30: END sets the walker only, and its opcode is known in a model list alone. -/
theorem endStopsWalk : Obligations.EndStopsWalk :=
  fun _ _ r hc hop =>
    ⟨rfl, fun he => decode_endModel hc he hop r, decode_of_unknown r (hop ▸ opKnown_fifo_endModel hc)⟩

/-- Settles O31: the two outcomes of a CHAIN are those below the limit and at it. -/
theorem chainJumpsUpToLimit : Obligations.ChainJumpsUpToLimit := by
  intro s k count addr hc hw
  refine ⟨fun w0 r hop => ⟨fun he => decode_chain hc he hop addr r, ?_⟩, fun hlt => ?_, fun heq => ?_⟩
  · exact decode_of_unknown (addr :: r) (hop ▸ opKnown_fifo_chain hc)
  · exact congrArg Host.Outcome.next (chain_of_lt hw hlt count addr)
  · exact congrArg Host.Outcome.next (chain_of_le hw heq.ge count addr)

/-! ### DRAWMODEL (R190, R192) -/

theorem walkLoop_of_walk_none {s : State} (h : s.walk = none) (n : Nat) : walkLoop n s = s := by
  cases n with
  | zero => rfl
  | succ n => simp only [walkLoop, h]

theorem walkLoop_succ_of_walk {s : State} (h : s.walk ≠ none) (n : Nat) :
    walkLoop (n + 1) s = walkLoop n (walkTurn s) := by
  obtain ⟨k, hk⟩ := Option.ne_none_iff_exists'.1 h
  simp only [walkLoop, hk]

/-- The walker's loop takes some number of turns, each in a state whose walk goes on (R192). -/
theorem walkLoop_eq_walkTurns (bound : Nat) (s : State) :
    ∃ n, walkLoop bound s = walkTurns n s ∧ ∀ m, m < n → (walkTurns m s).walk ≠ none := by
  induction bound generalizing s with
  | zero => exact ⟨0, rfl, fun m hm => absurd hm (Nat.not_lt_zero m)⟩
  | succ bound ih =>
    by_cases hw : s.walk = none
    · exact ⟨0, walkLoop_of_walk_none hw _, fun m hm => absurd hm (Nat.not_lt_zero m)⟩
    · obtain ⟨n, hloop, hgoes⟩ := ih (walkTurn s)
      refine ⟨n + 1, (walkLoop_succ_of_walk hw bound).trans hloop, fun m hm => ?_⟩
      cases m with
      | zero => exact hw
      | succ m => exact hgoes m (Nat.lt_of_succ_lt_succ hm)

/-- Settles O29: DRAWMODEL is the walker's loop, whose bound is long enough for the walk to end. -/
theorem drawmodelTakesWalkTurns : Obligations.DrawmodelTakesWalkTurns := by
  refine ⟨fun s hc w0 w1 r hop => ⟨fun he => decode_drawmodel hc he hop w1 r, ?_⟩, fun s count addr => ?_⟩
  · exact decode_of_unknown (w1 :: r) (hop ▸ opKnown_model_drawmodel hc)
  · obtain ⟨n, hloop, hgoes⟩ := walkLoop_eq_walkTurns (walkBound s.cfg)
      { s with walk := some { mp := addr, k := 0, mrem := count.toNat, mchain := 0 } }
    exact ⟨n, congrArg Host.Outcome.next hloop, hloop ▸ drawmodel_walk count addr s, hgoes⟩

/-! ### The layouts of QUAD (R122) -/

section Layout

variable {c : Cfg} {ctx : Ctx} {w0 : Word}

theorem decode_quadQ10 (hc : c.Wf) (he : c.DefaultEncoding) (h : opOf w0 = c.op.quad)
    (w1 w2 w3 w4 w5 w6 w7 w8 w9 : Word) (r : List Word) :
    decode c ctx .q10 (w0 :: w1 :: w2 :: w3 :: w4 :: w5 :: w6 :: w7 :: w8 :: w9 :: r) =
      .ok (.quadQ10
        ⟨⟨lo16 w2, hi16 w2, lo16 w3, byteOf w1 0, byteOf w3 2, byteOf w3 3⟩,
         ⟨lo16 w4, hi16 w4, lo16 w5, byteOf w1 1, byteOf w5 2, byteOf w5 3⟩,
         ⟨lo16 w6, hi16 w6, lo16 w7, byteOf w1 2, byteOf w7 2, byteOf w7 3⟩,
         ⟨lo16 w8, hi16 w8, lo16 w9, byteOf w1 3, byteOf w9 2, byteOf w9 3⟩⟩, r) := by
  refine (decode_of_default he (ws := [w0, w1, w2, w3, w4, w5, w6, w7, w8, w9]) r rfl
    (formatOf_of_quad_q10 hc h)).trans ?_
  simp [readFormat, defaultCfg, defaultFormats, Four.map, q10Fields, vertexFields, VertexFields.read, byteOf]

theorem decode_quadQ14 (hc : c.Wf) (he : c.DefaultEncoding) (h : opOf w0 = c.op.quad)
    (w1 w2 w3 w4 w5 w6 w7 w8 w9 w10 w11 w12 w13 : Word) (r : List Word) :
    decode c ctx .q14
        (w0 :: w1 :: w2 :: w3 :: w4 :: w5 :: w6 :: w7 :: w8 :: w9 :: w10 :: w11 :: w12 :: w13 :: r) =
      .ok (.quadQ14
        ⟨⟨lo16 w2, hi16 w2, lo16 w3, byteOf w4 0, byteOf w3 2, byteOf w3 3⟩,
         ⟨lo16 w5, hi16 w5, lo16 w6, byteOf w7 0, byteOf w6 2, byteOf w6 3⟩,
         ⟨lo16 w8, hi16 w8, lo16 w9, byteOf w10 0, byteOf w9 2, byteOf w9 3⟩,
         ⟨lo16 w11, hi16 w11, lo16 w12, byteOf w13 0, byteOf w12 2, byteOf w12 3⟩⟩, r) := by
  refine (decode_of_default he (ws := [w0, w1, w2, w3, w4, w5, w6, w7, w8, w9, w10, w11, w12, w13]) r rfl
    (formatOf_of_quad_q14 hc h)).trans ?_
  simp [readFormat, defaultCfg, defaultFormats, Four.map, q14Fields, vertexFields, VertexFields.read, byteOf]

end Layout

/-! ### Fill mode and polygon parameters (R37, R201, R275) -/

theorem defaultPixels_fill (g : Gen) : (defaultPixels g).fill = defaultFillCodes := by
  cases g <;> rfl

/-- By default the fill codes count the modes from 0 (R275). -/
theorem fillModeOfCode_default (n : Nat) :
    fillModeOfCode defaultFillCodes n = [.solid, .solidFixedDepth, .shaded, .textured4, .textured8][n]? :=
  match n with
  | 0 | 1 | 2 | 3 | 4 => rfl
  | _ + 5 => rfl

section Fields

variable {s : State}

theorem fillMode_default (h : s.cfg.DefaultPixels) :
    s.fillMode = [.solid, .solidFixedDepth, .shaded, .textured4, .textured8][s.fillCode]? := by
  rw [State.fillMode, h, defaultPixels_fill, fillModeOfCode_default]

theorem fillCode_default (h : s.cfg.DefaultRegFields) : s.fillCode = (s.reg s.cfg.slot.texmode).toNat % 8 := by
  rw [State.fillCode, h]
  exact BitVec.extractLsb'_toNat ..

/-- The solid colour has 16 bits in generation 1 and 24 in generation 2 (R37, R276). -/
theorem solidColour_default (h : s.cfg.DefaultRegFields) :
    s.solidColour = if s.cfg.gen = .gen1 then (lo16 (s.reg s.cfg.slot.color)).setWidth 32
      else ((s.reg s.cfg.slot.color).extractLsb' 0 24).setWidth 32 := by
  rw [State.solidColour, h]
  cases s.cfg.gen <;> rfl

/-- Under the default register fields a dispatch reads its parameters at their places of R26 and R37 (R201). -/
theorem poly_default (h : s.cfg.DefaultRegFields) (mode : FillMode) :
    s.poly mode =
      { cfg := s.cfg
        mode := mode
        visW := s.disp.visW
        visH := s.disp.visH
        rbase := (lo16 (s.reg s.cfg.slot.page)).toNat
        solid := if s.cfg.gen = .gen1 then (lo16 (s.reg s.cfg.slot.color)).setWidth 32
          else ((s.reg s.cfg.slot.color).extractLsb' 0 24).setWidth 32
        alpha := (byteOf (s.reg s.cfg.slot.alpha) 0).toNat
        texWidth := 2 ^ ((s.reg s.cfg.slot.texmode).extractLsb' 4 4).toNat
        transEn := (s.reg s.cfg.slot.texmode).getLsbD 8
        transIdx := (byteOf (s.reg s.cfg.slot.texmode) 2).toNat
        zbias := (hi16 (s.reg s.cfg.slot.zbias)).toInt
        fixedZ := lo16 (s.reg s.cfg.slot.zbias)
        pTex := s.pTex
        pPal := s.pPal
        bankA := s.bankA } := by
  have hfixedZ : s.fixedZ = lo16 (s.reg s.cfg.slot.zbias) := by
    rw [State.fixedZ, h]
    exact BitVec.setWidth_eq _
  rw [State.poly, solidColour_default h, hfixedZ, State.rbase, State.alphaFactor, State.texWidth, State.transEn,
    State.transIdx, State.zbiasVal, h]
  rfl

end Fields

/-! ### What a quad draws (R201, R275) -/

section Draw

variable {s : State} {vin : List InVertex}

theorem logFillMode_of_some {mode : FillMode} (h : s.fillMode = some mode) : logFillMode s = s := by
  simp only [logFillMode, h]

theorem logFillMode_of_none (h : s.fillMode = none) :
    logFillMode s = { s with log := s.log ++ [.unsupportedFillMode s.fillCode] } := by
  simp only [logFillMode, h, State.logEvent]

theorem drawMode_of_some {mode : FillMode} (h : s.fillMode = some mode) : s.drawMode = some mode := by
  simp only [State.drawMode, h]

theorem drawMode_of_skip (h : s.fillMode = none) (hskip : s.cfg.unsupportedFill = .skip) : s.drawMode = none := by
  simp only [State.drawMode, h, hskip]

theorem drawMode_of_solid (h : s.fillMode = none) (hsolid : s.cfg.unsupportedFill = .solid) :
    s.drawMode = some .solid := by
  simp only [State.drawMode, h, hsolid]

/-- A quad that is skipped changes nothing but the log. -/
theorem drawQuad_of_skipped (h : s.drawMode = none) : drawQuad vin s = logFillMode s := by
  simp only [drawQuad, h]

/-- A quad whose pipeline gives no polygon changes nothing but the log. -/
theorem drawQuad_of_dropped (h : s.screenOf vin = none) : drawQuad vin s = logFillMode s := by
  simp only [drawQuad, h]
  split <;> rfl

/-- Another is rasterized. -/
theorem drawQuad_of_screenOf {mode : FillMode} {scr : List ScreenVertex} (hmode : s.drawMode = some mode)
    (h : s.screenOf vin = some scr) :
    drawQuad vin s = { logFillMode s with bankB := (s.poly mode).rasterFan scr s.bankB } := by
  simp only [drawQuad, hmode, h]

end Draw

/-! ### The polygon of the pipeline (R201, R235, R241) -/

/-- A polygon outside the plane is clipped to nothing (R235). -/
theorem clipNear_of_outside {ν : Type} {inside : ν → Bool} {cut : ν → ν → ν} {vs : List ν}
    (h : ∀ v ∈ vs, inside v = false) : clipNear inside cut vs = [] := by
  refine List.flatMap_eq_nil_iff.2 fun e he => ?_
  obtain ⟨hcur, hnxt⟩ := List.of_mem_zip he
  have hnxt' : e.2 ∈ vs := by
    rcases List.mem_append.1 hnxt with htail | htake
    · exact List.mem_of_mem_tail htail
    · exact List.mem_of_mem_take htake
  simp [clipEdge, h _ hcur, h _ hnxt']

theorem inRange_eq_false_iff {c : Cfg} {v : ScreenVertex} :
    v.inRange c = false ↔ 2 ^ c.screenBits ≤ v.sx.natAbs ∨ 2 ^ c.screenBits ≤ v.sy.natAbs := by
  rw [ScreenVertex.inRange, decide_eq_false_iff_not, not_and_or, Nat.not_lt, Nat.not_lt]

section Screen

variable {ν : Type} {c : Cfg} {ok : ν → Bool} {project : ν → ScreenVertex} {poly : List ν}

theorem screenPoly_eq_none_iff :
    screenPoly c ok project poly = none ↔
      poly.length < 3 ∨ ∃ v ∈ poly, ok v = false ∨ (project v).inRange c = false := by
  unfold screenPoly
  by_cases hlen : poly.length < 3
  · simp [hlen]
  · simp only [hlen, if_false, false_or, ite_eq_right_iff, reduceCtorEq, imp_false, List.all_eq_true,
      Bool.and_eq_true, not_forall, exists_prop, not_and_or, Bool.not_eq_true]

/-- The polygon that is not dropped is the projection of every vertex. -/
theorem eq_of_screenPoly_eq_some {scr : List ScreenVertex} (h : screenPoly c ok project poly = some scr) :
    scr = poly.map project := by
  unfold screenPoly at h
  split_ifs at h
  exact (Option.some.inj h).symm

end Screen

section Pipeline

variable {s : State} {vin : List InVertex}

theorem screenOf_gen1 (h : s.cfg.gen = .gen1) :
    s.screenOf vin = screenPoly s.cfg (fun _ => true) (projectFix s.cfg)
      (clipNear (insideFix s.cfg) (cutFix s.cfg) (vin.map (transformFix s.cfg s.matFix s.trans s.light))) := by
  simp only [State.screenOf, h]

theorem screenOf_gen2 (h : s.cfg.gen = .gen2) :
    s.screenOf vin = screenPoly s.cfg (fun v => (floorArgs s.cfg v).all (fIsFinite s.cfg)) (projectFlt s.cfg)
      (clipNear (insideFlt s.cfg) (cutFlt s.cfg) (vin.map (transformFlt s.cfg s.matFlt s.trans))) := by
  simp only [State.screenOf, h]

/-- Where no camera vertex is inside the near plane, no polygon is left to draw (R201, R235). -/
theorem screenOf_of_outside
    (hfix : s.cfg.gen = .gen1 →
      ∀ v ∈ vin, insideFix s.cfg (transformFix s.cfg s.matFix s.trans s.light v) = false)
    (hflt : s.cfg.gen = .gen2 →
      ∀ v ∈ vin, insideFlt s.cfg (transformFlt s.cfg s.matFlt s.trans v) = false) :
    s.screenOf vin = none := by
  cases hg : s.cfg.gen with
  | gen1 =>
    rw [screenOf_gen1 hg, clipNear_of_outside (List.forall_mem_map.2 (hfix hg))]
    rfl
  | gen2 =>
    rw [screenOf_gen2 hg, clipNear_of_outside (List.forall_mem_map.2 (hflt hg))]
    rfl

end Pipeline

/-! ### QUAD (R200, R201) -/

theorem exec_quadQ10 (q : Quad) (s : State) : exec (.quadQ10 q) s = .next (drawQuad q.list s) := rfl

theorem exec_quadQ14 (q : Quad) (s : State) : exec (.quadQ14 q) s = .next (drawQuad q.list s) := rfl

/-- A quad of either layout that is skipped or drawn, by its fill mode and its polygon (R201, R275). -/
theorem drawQuad_by_fillMode (s : State) (vin : List InVertex) :
    (s.fillMode = none → s.cfg.unsupportedFill = .skip →
      drawQuad vin s = { s with log := s.log ++ [.unsupportedFillMode s.fillCode] }) ∧
    (s.fillMode = none → s.cfg.unsupportedFill = .solid →
      (s.screenOf vin = none → drawQuad vin s = { s with log := s.log ++ [.unsupportedFillMode s.fillCode] }) ∧
      ∀ scr, s.screenOf vin = some scr →
        drawQuad vin s = { s with
          log := s.log ++ [.unsupportedFillMode s.fillCode]
          bankB := (s.poly .solid).rasterFan scr s.bankB }) ∧
    ∀ mode, s.fillMode = some mode →
      (s.screenOf vin = none → drawQuad vin s = s) ∧
      ∀ scr, s.screenOf vin = some scr →
        drawQuad vin s = { s with bankB := (s.poly mode).rasterFan scr s.bankB } := by
  refine ⟨fun hnone hskip => ?_, fun hnone hsolid => ⟨fun hdrop => ?_, fun scr hscr => ?_⟩,
    fun mode hmode => ⟨fun hdrop => ?_, fun scr hscr => ?_⟩⟩
  · rw [drawQuad_of_skipped (drawMode_of_skip hnone hskip), logFillMode_of_none hnone]
  · rw [drawQuad_of_dropped hdrop, logFillMode_of_none hnone]
  · rw [drawQuad_of_screenOf (drawMode_of_solid hnone hsolid) hscr, logFillMode_of_none hnone]
  · rw [drawQuad_of_dropped hdrop, logFillMode_of_some hmode]
  · rw [drawQuad_of_screenOf (drawMode_of_some hmode) hscr, logFillMode_of_some hmode]

/-- Settles O33: the default layouts and fields, the quad by its fill mode, and when each generation's pipeline drops
the polygon. -/
theorem quadRunsPipeline : Obligations.QuadRunsPipeline := by
  refine ⟨fun s hc he ctx w0 w1 w2 w3 w4 w5 w6 w7 w8 w9 w10 w11 w12 w13 r hop => ⟨?_, ?_⟩, fun s hreg hpix => ?_,
    fun s q => ⟨_, exec_quadQ10 q s, exec_quadQ14 q s, drawQuad_by_fillMode s q.list⟩, fun s q cam hg hcam => ?_,
    fun s q cam hg hcam => ?_⟩
  · exact decode_quadQ10 hc he hop w1 w2 w3 w4 w5 w6 w7 w8 w9 r
  · exact decode_quadQ14 hc he hop w1 w2 w3 w4 w5 w6 w7 w8 w9 w10 w11 w12 w13 r
  · exact ⟨fillMode_default hpix, fillCode_default hreg, poly_default hreg⟩
  · rw [screenOf_gen1 hg, ← hcam]
    refine ⟨?_, fun scr => eq_of_screenPoly_eq_some⟩
    simp only [screenPoly_eq_none_iff, inRange_eq_false_iff, Bool.true_eq_false, false_or]
  · rw [screenOf_gen2 hg, ← hcam]
    refine ⟨?_, fun scr => eq_of_screenPoly_eq_some⟩
    simp only [screenPoly_eq_none_iff, inRange_eq_false_iff, List.all_eq_false, Bool.not_eq_true]

/-- Settles O35: a quad behind the plane has no polygon, so it leaves what the fill mode logs. -/
theorem quadBehindPlaneIsDropped : Obligations.QuadBehindPlaneIsDropped := by
  intro s q hfix hflt
  have hdrop : s.screenOf q.list = none :=
    screenOf_of_outside (fun hg v hv => decide_eq_false (Int.not_le.2 (hfix hg v hv))) hflt
  rw [exec_quadQ10, exec_quadQ14, drawQuad_of_dropped hdrop]
  refine ⟨fun mode hmode => ?_, fun hnone => ?_⟩
  · rw [logFillMode_of_some hmode, and_self]
  · rw [logFillMode_of_none hnone, and_self]

end Sys2Proof.Machine
end

section
/-! PROOF. The geometry pipeline (43_geometry.md): what `Transform` makes of a vertex in each generation and of the origin
(R221, R223, R225), what the near-plane clip keeps of a polygon (R235, R236, R239), and the formulas of cut and projection
(R237, R238, R240). -/

namespace Sys2Proof.Machine

/-! ### The near-plane clip (R235, R239) -/

section Clip

variable {ν : Type} {inside : ν → Bool} {cut : ν → ν → ν} {vs : List ν}

theorem clipEdge_eq (cur nxt : ν) :
    clipEdge inside cut cur nxt =
      (if inside cur = true then [cur] else []) ++ if inside cur = inside nxt then [] else [cut cur nxt] := by
  cases hcur : inside cur <;> cases hnxt : inside nxt <;> simp [clipEdge, hcur, hnxt]

/-- The first vertices of the edges are the vertices of the polygon, in order. -/
theorem map_fst_polyEdges (vs : List ν) : (polyEdges vs).map Prod.fst = vs := by
  refine List.map_fst_zip ?_
  cases vs <;> simp

theorem mem_of_mem_polyEdges {e : ν × ν} (he : e ∈ polyEdges vs) : e.1 ∈ vs ∧ e.2 ∈ vs := by
  obtain ⟨hcur, hnxt⟩ := List.of_mem_zip he
  refine ⟨hcur, ?_⟩
  rcases List.mem_append.1 hnxt with htail | htake
  · exact List.mem_of_mem_tail htail
  · exact List.mem_of_mem_take htake

/-- An edge inside the plane adds its first vertex, so a polygon inside is returned in order (R239). -/
theorem clipNear_of_inside (h : ∀ v ∈ vs, inside v = true) : clipNear inside cut vs = vs := by
  have hedge : ∀ e ∈ polyEdges vs, clipEdge inside cut e.1 e.2 = [e.1] := fun e he => by
    obtain ⟨hcur, hnxt⟩ := mem_of_mem_polyEdges he
    simp [clipEdge, h _ hcur, h _ hnxt]
  calc clipNear inside cut vs = (polyEdges vs).flatMap fun e => [e.1] := List.flatMap_congr hedge
    _ = (polyEdges vs).map Prod.fst := List.map_eq_flatMap.symm
    _ = vs := map_fst_polyEdges vs

/-- A vertex of the clipped polygon is inside the plane or the cut of an edge (R235). -/
theorem inside_or_cut_of_mem_clipNear {v : ν} (h : v ∈ clipNear inside cut vs) :
    inside v = true ∨ ∃ a b, v = cut a b := by
  obtain ⟨e, -, hv⟩ := List.mem_flatMap.1 h
  rw [clipEdge_eq, List.mem_append] at hv
  rcases hv with hcur | hcut
  · split_ifs at hcur with hin
    · rw [List.mem_singleton.1 hcur]
      exact .inl hin
    · simp at hcur
  · split_ifs at hcut
    · simp at hcut
    · exact .inr ⟨e.1, e.2, List.mem_singleton.1 hcut⟩

theorem clipNear_quad (a b c d : ν) :
    clipNear inside cut [a, b, c, d] =
      clipEdge inside cut a b ++ clipEdge inside cut b c ++ clipEdge inside cut c d ++ clipEdge inside cut d a := by
  simp [clipNear, polyEdges]

theorem length_clipEdge (cur nxt : ν) :
    (clipEdge inside cut cur nxt).length = (inside cur).toNat + (inside cur ^^ inside nxt).toNat := by
  cases hcur : inside cur <;> cases hnxt : inside nxt <;> simp [clipEdge, hcur, hnxt]

/-- The number of vertices inside and of edges that cross the plane, by which of four vertices are inside. -/
theorem inside_add_crossings_mem (p q r s : Bool) :
    p.toNat + (p ^^ q).toNat + (q.toNat + (q ^^ r).toNat) + (r.toNat + (r ^^ s).toNat) + (s.toNat + (s ^^ p).toNat) ∈
      [0, 3, 4, 5, 6] := by
  revert p q r s
  decide

end Clip

/-- Settles O37: the two laws of `clipNear`, for any plane and at each generation's near plane. -/
theorem clipKeepsOrDropsWholePolygon : Obligations.ClipKeepsOrDropsWholePolygon := by
  refine ⟨fun ν inside cut vs => ⟨clipNear_of_outside, clipNear_of_inside⟩, fun c vs => ⟨fun h => ?_, fun h => ?_⟩,
    fun c vs => ⟨fun h => clipNear_of_outside h, fun h => clipNear_of_inside h⟩⟩
  · exact clipNear_of_outside fun v hv => decide_eq_false (Int.not_le.2 (h v hv))
  · exact clipNear_of_inside fun v hv => decide_eq_true (h v hv)

/-- Settles O38: an edge adds one vertex for its first end inside and one for a crossing of the plane. -/
theorem clipOfQuadHasAtMostSix : Obligations.ClipOfQuadHasAtMostSix := by
  intro ν inside cut a b c d
  refine ⟨?_, fun edge hedge => ?_⟩
  · simp only [clipNear_quad, List.length_append, length_clipEdge]
    exact inside_add_crossings_mem (inside a) (inside b) (inside c) (inside d)
  · simp only [clipNear_quad, clipEdge_eq, hedge]

/-- Settles O39: a cut lies on the plane, and the remaining clauses are the model's formulas with the names of R237, R238
and R240 put in. -/
theorem clippedVerticesAreInFront : Obligations.ClippedVerticesAreInFront := by
  refine ⟨fun c vs v hv => ?_, fun c a b cutP hcutP => ?_, fun c a b t cutP ht hcutP => ?_, fun c v => rfl,
    fun c v ooz hooz => ?_⟩
  · rcases inside_or_cut_of_mem_clipNear hv with hin | ⟨a, b, rfl⟩
    · exact of_decide_eq_true hin
    · exact le_refl (c.nearZ : Int)
  · simp only [hcutP]
    rfl
  · simp only [hcutP, ht]
    rfl
  · rw [hooz]
    rfl

/-! ### Binary32: a zero multiplied, a zero added (R223, R226) -/

namespace F32

variable {x y : Word}

theorem expField_lt (x : Word) : expField x < 2 ^ 8 := Nat.mod_lt _ (by decide)

theorem fracField_lt (x : Word) : fracField x < 2 ^ 23 := Nat.mod_lt _ (by decide)

/-- An encoding is its sign, exponent field and fraction. -/
theorem withSign_fields (x : Word) : withSign (signBit x) (expField x * 2 ^ 23 + fracField x) = x := by
  have hlt := x.isLt
  refine BitVec.eq_of_toNat_eq ?_
  rw [withSign_toNat (expField_lt x) (fracField_lt x), signBit, BitVec.getLsbD,
    Nat.testBit_eq_decide_div_mod_eq, expField, fracField]
  simp only [decide_eq_true_eq]
  split_ifs <;> omega

theorem expField_lt_of_isFinite (h : isFinite x = true) : expField x < 255 := by
  have hlt := expField_lt x
  have hne : expField x ≠ 255 := by simpa [isFinite] using h
  omega

theorem isNaN_of_isFinite (h : isFinite x = true) : isNaN x = false := by
  simp [isNaN, (expField_lt_of_isFinite h).ne]

theorem isInf_of_isFinite (h : isFinite x = true) : isInf x = false := by
  simp [isInf, (expField_lt_of_isFinite h).ne]

theorem expField_of_magUnits_eq_zero (h : magUnits x = 0) : expField x = 0 := by
  by_contra hne
  simp [magUnits, hne] at h

theorem isFinite_of_magUnits_eq_zero (h : magUnits x = 0) : isFinite x = true := by
  simp [isFinite, expField_of_magUnits_eq_zero h]

theorem units_of_magUnits_eq_zero (h : magUnits x = 0) : units x = 0 := by simp [units, h]

theorem natAbs_units (x : Word) : (units x).natAbs = magUnits x := by
  unfold units
  split_ifs <;> simp

theorem units_neg_iff (h : magUnits x ≠ 0) : units x < 0 ↔ signBit x = true := by
  unfold units
  split_ifs with hs
  · simp [hs, Nat.pos_of_ne_zero h]
  · simp [hs]

@[simp] theorem roundMag_zero (den : Nat) : roundMag 0 den = 0 := by simp [roundMag, quantumExp, divEven]

/-- A finite magnitude is rounded to its own bits: a subnormal one in the least quantum, a normal one in its own. -/
theorem roundMag_magUnits (h : isFinite x = true) : roundMag (magUnits x) 1 = expField x * 2 ^ 23 + fracField x := by
  have hexp := expField_lt_of_isFinite h
  have hfrac := fracField_lt x
  rw [magUnits]
  split_ifs with hzero
  · have hquantum : quantumExp (fracField x) 1 = 0 := by
      rcases Nat.eq_zero_or_pos (fracField x) with hf | hf
      · simp [quantumExp, hf]
      · have hlog := (Nat.log2_lt hf.ne').2 hfrac
        rw [quantumExp, Nat.div_one]
        omega
    have hdiv : divEven (fracField x) 1 = fracField x := by simpa using divEven_mul (fracField x) Nat.one_pos
    rw [roundMag, hquantum, Nat.pow_zero, Nat.mul_one, hdiv, hzero]
    omega
  · have hlog : (2 ^ 23 + fracField x).log2 = 23 := (Nat.log2_eq_iff (by omega)).2 (by omega)
    have hround := roundMag_exact (m := 2 ^ 23 + fracField x) (n := expField x - 1) (e := expField x - 1) (by omega)
      (by omega) (by omega) (by omega) Nat.one_pos
    rw [Nat.mul_one, hlog] at hround
    rw [hround]
    omega

/-- A finite value is rounded to itself. -/
theorem ofUnits_magUnits (h : isFinite x = true) : ofUnits (signBit x) (magUnits x) 1 = x := by
  rw [ofUnits, roundMag_magUnits h, withSign_fields]

@[simp] theorem magUnits_ofUnits_zero (neg : Bool) (den : Nat) : magUnits (ofUnits neg 0 den) = 0 := by
  rw [ofUnits, roundMag_zero]
  exact magUnits_withSign (e := 0) (f := 0) (by decide) (by decide)

/-- A finite value times a zero is a zero. -/
theorem magUnits_mul_zero (hx : isFinite x = true) (hy : magUnits y = 0) : magUnits (mul x y) = 0 := by
  have hfy := isFinite_of_magUnits_eq_zero hy
  simp [mul, isNaN_of_isFinite hx, isNaN_of_isFinite hfy, isInf_of_isFinite hx, isInf_of_isFinite hfy, hy]

theorem add_of_isFinite (hx : isFinite x = true) (hy : isFinite y = true) :
    add x y = ofUnits (if units x + units y = 0 then signBit x && signBit y else decide (units x + units y < 0))
      (units x + units y).natAbs 1 := by
  simp [add, isNaN_of_isFinite hx, isNaN_of_isFinite hy, isInf_of_isFinite hx, isInf_of_isFinite hy]

/-- A zero plus a finite value is that value: the same, or a zero of either sign (R223). -/
theorem zero_add_sameValue (hx : magUnits x = 0) (hy : isFinite y = true) : sameValue (add x y) y := by
  rw [add_of_isFinite (isFinite_of_magUnits_eq_zero hx) hy, units_of_magUnits_eq_zero hx, Int.zero_add, natAbs_units]
  refine ⟨fun hne => ?_, fun hzero => ?_⟩
  · have hunits : units y ≠ 0 := by rwa [← Int.natAbs_ne_zero, natAbs_units]
    have hsign : decide (units y < 0) = signBit y := by simp [units_neg_iff hne]
    rw [if_neg hunits, hsign, ofUnits_magUnits hy]
  · rw [hzero, magUnits_ofUnits_zero]

theorem magUnits_add_zero (hx : magUnits x = 0) (hy : magUnits y = 0) : magUnits (add x y) = 0 :=
  (zero_add_sameValue hx (isFinite_of_magUnits_eq_zero hy)).2 hy

end F32

/-! ### Transform (R221, R223, R225) -/

theorem camFix_origin (c : Cfg) (r : Vec3 Half) (t : Word) : camFix c r t 0 0 0 = t.toInt := by simp [camFix]

/-- A row whose inner product is `2^n` times a coordinate, under the default rounding. -/
theorem camFix_of_row {c : Cfg} (h : c.fxRound = .standard) {r : Vec3 Half} {t : Word} {x y z i : Int}
    (hrow : r.e0.toInt * x + r.e1.toInt * y + r.e2.toInt * z = 2 ^ c.fxFrac * i) :
    camFix c r t x y z = wrap32 c (i + t.toInt) := by
  rw [camFix, hrow, fxRound_standard h, Int.mul_ediv_cancel_left _ (by positivity)]

/-- The origin under a finite row: products and sums of zeros, then the translation. -/
theorem camFlt_origin {c : Cfg} (h : c.f32 = .standard) {r : Vec3 Word} {t : Word} (hfin : finiteRow r t) :
    sameValue (camFlt c r t (fOfInt c 0) (fOfInt c 0) (fOfInt c 0)) t := by
  obtain ⟨h0, h1, h2, ht⟩ := hfin
  have horigin : F32.magUnits (F32.ofInt 0) = 0 := F32.magUnits_ofUnits_zero _ _
  simp only [camFlt, fAdd_standard h, fMul_standard h, fOfInt_standard h]
  exact F32.zero_add_sameValue (F32.magUnits_add_zero (F32.magUnits_add_zero (F32.magUnits_mul_zero h0 horigin)
    (F32.magUnits_mul_zero h1 horigin)) (F32.magUnits_mul_zero h2 horigin)) ht

/-! ### Lighting (R232) -/

theorem clampInt_eq {v lo hi : Int} (h : lo ≤ hi) : clampInt v lo hi = max lo (min v hi) := by
  unfold clampInt
  split_ifs <;> omega

theorem unpackNormal_default {c : Cfg} (h : c.DefaultEncoding) (n : Byte) :
    unpackNormal c n = ⟨(n.extractLsb' 5 3).toInt, (n.extractLsb' 2 3).toInt, (n.extractLsb' 0 2).toInt⟩ := by
  rw [unpackNormal, h.1]
  rfl

theorem lightIntensity_standard {c : Cfg} (h : c.lightIntensity = .standard) (m : Mat3 Half) (p : Vec3 Int)
    (l : Vec3 Half) (n : Byte) : lightIntensity c m p l n = defaultIntensity c m p l n := by rw [lightIntensity, h]

/-- Settles O36: the origin and the identity by the rules of a row, the general formulas by the rows of the matrix. -/
theorem transformOfOriginIsTranslation : Obligations.TransformOfOriginIsTranslation := by
  refine ⟨fun c m t l n u v => ?_, fun c m t n u v hstd => ?_, fun c t l p hfrac hround => ?_, fun c m t l p v hv => ?_,
    fun c m t p v hv => ?_, fun c m p l n r hstd henc hr => ?_⟩
  · exact ⟨camFix_origin c m.r0 t.e0, camFix_origin c m.r1 t.e1, camFix_origin c m.r2 t.e2⟩
  · exact ⟨camFlt_origin hstd, camFlt_origin hstd, camFlt_origin hstd⟩
  · refine ⟨camFix_of_row hround ?_, camFix_of_row hround ?_, camFix_of_row hround ?_⟩ <;> simp [hfrac]
  · subst hv
    refine ⟨fun i => ?_, rfl, rfl, rfl⟩
    match i with
    | 0 | 1 | 2 => rfl
  · subst hv
    refine ⟨fun i => ?_, rfl, rfl⟩
    match i with
    | 0 | 1 | 2 => rfl
  · rw [lightIntensity_standard hstd, defaultIntensity, unpackNormal_default henc, clampInt_eq (by decide), hr, hr, hr]
    rfl

end Sys2Proof.Machine
end

section
/-! PROOF. The rasterizer (44_rasterizer.md). Scan conversion: the edge rules (R262, R263), the interpolation (R266) and
the one operation of each pixel (R260, R262). The pixel operation: its depth test and its frame (R270 to R273). The
colours it writes: shading (R278), texels and their transparency (R280 to R282), the filter and the palette (R283 to
R286). -/

namespace Sys2Proof.Machine

/-! ### Floor divisions (R8) -/

theorem floorDiv_of_nonneg (a : Int) {b : Int} (hb : 0 ≤ b) : floorDiv a b = a / b := Int.fdiv_eq_ediv_of_nonneg a hb

theorem asr_eq_ediv (v : Int) (n : Nat) : asr v n = v / 2 ^ n := floorDiv_of_nonneg v (by positivity)

/-! ### Edges and the top-left rule (R262, R263) -/

section Edge

variable {s e : ScreenVertex} {w x y : Int}

theorem edgeFn_swap (s e : ScreenVertex) (x y : Int) : edgeFn e s x y = -edgeFn s e x y := by
  unfold edgeFn
  ring

/-- The area does not depend on the vertex the triangle starts from. -/
theorem edgeFn_cycle (a b c : ScreenVertex) : edgeFn a b c.sx c.sy = edgeFn c a b.sx b.sy := by
  unfold edgeFn
  ring

theorem covered_iff : covered w s e = true ↔ 0 < w ∨ w = 0 ∧ topLeft s e = true := by simp [covered]

theorem topLeft_iff : topLeft s e = true ↔ e.sy < s.sy ∨ e.sy = s.sy ∧ s.sx < e.sx := by
  simp only [topLeft, Bool.or_eq_true, Bool.and_eq_true, decide_eq_true_eq]
  omega

theorem nonneg_of_covered (h : covered w s e = true) : 0 ≤ w := by
  rcases covered_iff.1 h with hpos | ⟨hzero, -⟩ <;> omega

/-- Of an edge that is no point and the same edge run backwards, one covers the sample and the other does not (R263). -/
theorem covered_swap (hne : s.sx ≠ e.sx ∨ s.sy ≠ e.sy) (x y : Int) :
    covered (edgeFn e s x y) e s = true ↔ ¬ covered (edgeFn s e x y) s e = true := by
  rw [edgeFn_swap s e, covered_iff, covered_iff, topLeft_iff, topLeft_iff]
  omega

/-! The four directions of an edge along an axis, one for each side of a rectangle. -/

theorem edgeFn_horizontal (hy : e.sy = s.sy) : edgeFn s e x y = (e.sx - s.sx) * (y - s.sy) := by
  simp [edgeFn, hy]

theorem edgeFn_vertical (hx : e.sx = s.sx) : edgeFn s e x y = (e.sy - s.sy) * (s.sx - x) := by
  simp only [edgeFn, hx]
  ring

theorem covered_rightward (hy : e.sy = s.sy) (hx : s.sx < e.sx) :
    covered (edgeFn s e x y) s e = true ↔ s.sy ≤ y := by
  have hlen : 0 < e.sx - s.sx := by omega
  rw [covered_iff, topLeft_iff, edgeFn_horizontal hy, mul_pos_iff_of_pos_left hlen, mul_eq_zero]
  omega

theorem covered_leftward (hy : e.sy = s.sy) (hx : e.sx < s.sx) :
    covered (edgeFn s e x y) s e = true ↔ y < s.sy := by
  have hswap := covered_swap (s := e) (e := s) (.inl hx.ne) x y
  rw [hswap, covered_rightward hy.symm hx]
  omega

theorem covered_upward (hx : e.sx = s.sx) (hy : e.sy < s.sy) :
    covered (edgeFn s e x y) s e = true ↔ s.sx ≤ x := by
  have hneg : edgeFn s e x y = (s.sy - e.sy) * (x - s.sx) := by
    rw [edgeFn_vertical hx]
    ring
  have hlen : 0 < s.sy - e.sy := by omega
  rw [covered_iff, topLeft_iff, hneg, mul_pos_iff_of_pos_left hlen, mul_eq_zero]
  omega

theorem covered_downward (hx : e.sx = s.sx) (hy : s.sy < e.sy) :
    covered (edgeFn s e x y) s e = true ↔ x < s.sx := by
  have hswap := covered_swap (s := e) (e := s) (.inr hy.ne') x y
  rw [hswap, covered_upward hx.symm hy]
  omega

end Edge

/-- Settles O40: where the edge function is not zero one side is negative, and where it is zero the edge is a top or left
edge in one direction only. -/
theorem sharedEdgeCoversOnce : Obligations.SharedEdgeCoversOnce := by
  refine fun a b px py => ⟨edgeFn_swap a b px py, ?_⟩
  rw [edgeFn_swap a b, covered_iff, covered_iff, topLeft_iff, topLeft_iff]
  omega

/-! ### A rectangle as a fan of two triangles (R260, R263) -/

theorem triangleCovers_iff {a b c : ScreenVertex} {x y : Int} :
    triangleCovers a b c x y = true ↔ covered (edgeFn b c x y) b c = true ∧ covered (edgeFn c a x y) c a = true ∧
      covered (edgeFn a b x y) a b = true := by
  simp only [triangleCovers, Bool.and_eq_true, and_assoc]

section Rectangle

variable {a b c d : ScreenVertex} {x y : Int}

/-- A sample on the upper right of the falling diagonal, left of the right side and not above the top side, lies in the
rectangle. -/
theorem between_of_upper_right (hx : a.sx < c.sx) (hy : a.sy < c.sy) (hdiag : 0 ≤ edgeFn c a x y) (hright : x < c.sx)
    (htop : a.sy ≤ y) : a.sx ≤ x ∧ y < c.sy := by
  unfold edgeFn at hdiag
  constructor <;> by_contra hout <;> nlinarith

/-- A sample on the lower left of the diagonal, above the bottom side and not left of the left side, too. -/
theorem between_of_lower_left (hx : a.sx < c.sx) (hy : a.sy < c.sy) (hdiag : 0 ≤ edgeFn a c x y) (hbottom : y < c.sy)
    (hleft : a.sx ≤ x) : x < c.sx ∧ a.sy ≤ y := by
  unfold edgeFn at hdiag
  constructor <;> by_contra hout <;> nlinarith

/-- The two triangles of the fan of a rectangle cover its samples, right and bottom sides excluded: a sample lies on one
side of the diagonal, and there two of the four sides imply the others (R263). -/
theorem fan_covers_rectangle (hab : b.sy = a.sy) (hbc : c.sx = b.sx) (hcd : d.sy = c.sy) (hda : d.sx = a.sx)
    (hx : a.sx < c.sx) (hy : a.sy < c.sy) (x y : Int) :
    triangleCovers a b c x y = true ∨ triangleCovers a c d x y = true ↔
      a.sx ≤ x ∧ x < c.sx ∧ a.sy ≤ y ∧ y < c.sy := by
  have hdiag := covered_swap (s := a) (e := c) (.inl hx.ne) x y
  rw [triangleCovers_iff, triangleCovers_iff, covered_rightward hab (by omega), covered_downward hbc (by omega),
    covered_leftward hcd (by omega), covered_upward hda.symm (by omega), hda, ← hbc, hdiag]
  by_cases hlower : covered (edgeFn a c x y) a c = true
  · have := between_of_lower_left hx hy (nonneg_of_covered hlower) (x := x) (y := y)
    simp only [hlower]
    grind
  · have := between_of_upper_right hx hy (nonneg_of_covered (hdiag.2 hlower)) (x := x) (y := y)
    simp only [hlower]
    grind

end Rectangle

/-- Settles O41: corners and samples are scaled alike, and the two triangles share the diagonal. -/
theorem rectangleCoversItsPixels : Obligations.RectangleCoversItsPixels := by
  intro k x0 y0 x1 y1 px py a b c d hx hy hax hay hbx hby hcx hcy hdx hdy
  have hscale : (0 : Int) < 2 ^ k := by positivity
  have hwidth : a.sx < c.sx := by rw [hax, hcx]; exact mul_lt_mul_of_pos_right hx hscale
  have hheight : a.sy < c.sy := by rw [hay, hcy]; exact mul_lt_mul_of_pos_right hy hscale
  refine ⟨?_, ?_, ?_, fun ⟨hupper, hlower⟩ => ?_⟩
  · rw [edgeFn_horizontal (hby.trans hay.symm), hbx, ← hcx]
    exact mul_pos (by omega) (by omega)
  · rw [edgeFn_cycle, edgeFn_vertical (hax.trans hdx.symm), hdy, ← hcy, hdx, ← hax]
    exact mul_pos_of_neg_of_neg (by omega) (by omega)
  · rw [fan_covers_rectangle (hby.trans hay.symm) (hcx.trans hbx.symm) (hdy.trans hcy.symm) (hdx.trans hax.symm) hwidth
      hheight, hax, hay, hcx, hcy, mul_le_mul_iff_left₀ hscale, mul_lt_mul_iff_left₀ hscale,
      mul_le_mul_iff_left₀ hscale, mul_lt_mul_iff_left₀ hscale]
  · obtain ⟨-, hdiag, -⟩ := triangleCovers_iff.1 hupper
    obtain ⟨-, -, hdiag'⟩ := triangleCovers_iff.1 hlower
    exact (sharedEdgeCoversOnce a c _ _).2 ⟨hdiag', hdiag⟩

/-! ### Interpolation (R266) -/

/-- The three edge functions at a sample add up to the area (R262). -/
theorem edgeFn_sum (a b c : ScreenVertex) (x y : Int) :
    edgeFn b c x y + edgeFn c a x y + edgeFn a b x y = edgeFn a b c.sx c.sy := by
  unfold edgeFn
  ring

/-- A weighted mean with weights that are not negative lies between the bounds of its values. -/
theorem interp_mem_bounds {w0 w1 w2 area lo hi p0 p1 p2 : Int} (h0 : 0 ≤ w0) (h1 : 0 ≤ w1) (h2 : 0 ≤ w2)
    (hsum : w0 + w1 + w2 = area) (hpos : 0 < area) (hlo : lo ≤ p0 ∧ lo ≤ p1 ∧ lo ≤ p2)
    (hhi : p0 ≤ hi ∧ p1 ≤ hi ∧ p2 ≤ hi) :
    lo ≤ interp w0 w1 w2 area p0 p1 p2 ∧ interp w0 w1 w2 area p0 p1 p2 ≤ hi := by
  obtain ⟨hlo0, hlo1, hlo2⟩ := hlo
  obtain ⟨hhi0, hhi1, hhi2⟩ := hhi
  rw [interp, floorDiv_of_nonneg _ hpos.le]
  constructor
  · refine Int.le_ediv_of_mul_le hpos ?_
    calc lo * area = w0 * lo + w1 * lo + w2 * lo := by rw [← hsum]; ring
      _ ≤ w0 * p0 + w1 * p1 + w2 * p2 := by gcongr
  · refine Int.ediv_le_of_le_mul hpos ?_
    calc w0 * p0 + w1 * p1 + w2 * p2 ≤ w0 * hi + w1 * hi + w2 * hi := by gcongr
      _ = hi * area := by rw [← hsum]; ring

/-- Settles O42: at a covered sample no edge function is negative, so they are the weights of a mean. -/
theorem interpolationStaysBetween : Obligations.InterpolationStaysBetween := by
  intro a b c px py lo hi p0 p1 p2 harea hcov hlo0 hlo1 hlo2 hhi0 hhi1 hhi2
  obtain ⟨h0, h1, h2⟩ := triangleCovers_iff.1 hcov
  exact ⟨edgeFn_sum a b c px py,
    interp_mem_bounds (nonneg_of_covered h0) (nonneg_of_covered h1) (nonneg_of_covered h2) (edgeFn_sum a b c px py)
      harea ⟨hlo0, hlo1, hlo2⟩ ⟨hhi0, hhi1, hhi2⟩⟩


/-! ### A loop whose turns each have a part of the state of their own -/

section Once

variable {σ β : Type} {g : σ → β}

/-- A part `g` of the state that turn `x` alone changes, and computes from itself, is after the loop what turn `x` makes
of it. -/
theorem foldl_range_once {f : σ → Nat → σ} {n x : Nat} (hx : x < n) (hkeep : ∀ m x', x' < n → x' ≠ x → g (f m x') = g m)
    (hcongr : ∀ m m', g m = g m' → g (f m x) = g (f m' x)) (m : σ) : g ((List.range n).foldl f m) = g (f m x) := by
  induction n with
  | zero => exact absurd hx x.not_lt_zero
  | succ n ih =>
    rw [List.range_succ, List.foldl_append]
    rcases Nat.lt_succ_iff_lt_or_eq.1 hx with hlt | rfl
    · exact (hkeep _ n n.lt_succ_self hlt.ne').trans (ih hlt fun m x' hx' => hkeep m x' (hx'.trans n.lt_succ_self))
    · refine hcongr _ _ (foldl_range_induct (P := fun m' => g m' = g m) rfl fun m' x' hx' hm' => ?_)
      exact (hkeep m' x' (hx'.trans x.lt_succ_self) hx'.ne).trans hm'

/-- The same of the turn at `(x, y)` of a rectangle's loop. -/
theorem forRect_once {w h x y : Nat} {f : σ → Nat → Nat → σ} (hx : x < w) (hy : y < h)
    (hkeep : ∀ m x' y', x' < w → y' < h → ¬ (x' = x ∧ y' = y) → g (f m x' y') = g m)
    (hcongr : ∀ m m', g m = g m' → g (f m x y) = g (f m' x y)) (m : σ) : g (forRect w h f m) = g (f m x y) := by
  have hrow : ∀ m, g ((List.range w).foldl (fun m x => f m x y) m) = g (f m x y) :=
    foldl_range_once hx (fun m x' hx' hne => hkeep m x' y hx' hy fun h => hne h.1) hcongr
  refine (foldl_range_once hy (fun m y' hy' hne => ?_) (fun m m' hm => ?_) m).trans (hrow m)
  · exact foldl_range_induct (P := fun m' => g m' = g m) rfl
      fun m' x' hx' hm' => (hkeep m' x' y' hx' hy' fun h => hne h.2).trans hm'
  · rw [hrow, hrow, hcongr m m' hm]

end Once

/-! ### A pixel operation reads and writes its own pixel (R270, R272) -/

section Pixel

variable {c : Cfg} {m m' : Memory} {blk a : Nat}

/-- What the bank lists under the colour and depth bytes of a pixel. -/
def pixelBytes (c : Cfg) (blk : Nat) (m : Memory) : List (Option Byte) := (pixelAddrs c blk).map m.get

theorem pixelBytes_eq_iff : pixelBytes c blk m' = pixelBytes c blk m ↔ ∀ a ∈ pixelAddrs c blk, m'.get a = m.get a :=
  List.map_inj_left

theorem pixelBytes_setPixel_ne (h : c.Wf) {blk' : Nat} (hne : blk' ≠ blk) (m : Memory) (v : Color) (d : Half) :
    pixelBytes c blk' (setPixel c m blk v d) = pixelBytes c blk' m :=
  pixelBytes_eq_iff.2 fun _ ha => setPixel_get_ne m v d (pixelAddrs_disjoint h hne ha)

theorem put_get_congr (h : m'.get a = m.get a) (k : Nat) (v : Byte) : (m'.put k v).get a = (m.put k v).get a := by
  rw [Cells.get_put, Cells.get_put, h]

/-- A pixel write does not read the bank: where two memories agree on a byte, they agree on it after the write. -/
theorem setPixel_get_congr (h : m'.get a = m.get a) (v : Color) (d : Half) :
    (setPixel c m' blk v d).get a = (setPixel c m blk v d).get a := by
  have hcolor : (setPixColor c m' blk v).get a = (setPixColor c m blk v).get a := by
    unfold setPixColor
    cases c.gen with
    | gen1 => exact put_get_congr (put_get_congr h _ _) _ _
    | gen2 => exact put_get_congr (put_get_congr (put_get_congr (put_get_congr h _ _) _ _) _ _) _ _
  exact put_get_congr (put_get_congr hcolor _ _) _ _

theorem pixColor_eq_of_pixelBytes (h : pixelBytes c blk m' = pixelBytes c blk m) :
    pixColor c m' blk = pixColor c m blk :=
  pixColor_congr fun _ ha => pixelBytes_eq_iff.1 h _ (List.mem_append_left _ ha)

theorem pixDepth_eq_of_pixelBytes (h : pixelBytes c blk m' = pixelBytes c blk m) :
    pixDepth c m' blk = pixDepth c m blk :=
  pixDepth_congr fun _ ha => pixelBytes_eq_iff.1 h _ (List.mem_append_right _ ha)

end Pixel

section PixelOp

variable {p : Poly} {m m' : Memory} {blk : Nat} {z u v i : Int}

theorem pixelOp_of_fixedDepth (h : p.mode = .solidFixedDepth) :
    p.pixelOp blk z u v i m = setPixel p.cfg m blk p.solid p.fixedZ := by
  rw [Poly.pixelOp, h]

/-- Every other mode tests the depth before it asks for the colour (R270, R273). -/
theorem pixelOp_of_tested (h : p.mode ≠ .solidFixedDepth) :
    p.pixelOp blk z u v i m =
      if (p.depth z).toNat ≤ (pixDepth p.cfg m blk).toNat then
        (p.colour (pixColor p.cfg m blk) u v i).elim m fun col => setPixel p.cfg m blk col (p.depth z)
      else m := by
  unfold Poly.pixelOp
  generalize p.colour (pixColor p.cfg m blk) u v i = col
  cases hmode : p.mode with
  | solidFixedDepth => exact absurd hmode h
  | _ => cases col <;> rfl

theorem pixelOp_of_behind (h : p.mode ≠ .solidFixedDepth) (hlt : (pixDepth p.cfg m blk).toNat < (p.depth z).toNat) :
    p.pixelOp blk z u v i m = m := by
  rw [pixelOp_of_tested h, if_neg (by omega)]

theorem pixelOp_of_transparent (h : p.mode ≠ .solidFixedDepth) (hcol : p.colour (pixColor p.cfg m blk) u v i = none) :
    p.pixelOp blk z u v i m = m := by
  rw [pixelOp_of_tested h, hcol, Option.elim_none, ite_self]

theorem pixelOp_of_passed (h : p.mode ≠ .solidFixedDepth) {col : Color}
    (hcol : p.colour (pixColor p.cfg m blk) u v i = some col)
    (hle : (p.depth z).toNat ≤ (pixDepth p.cfg m blk).toNat) :
    p.pixelOp blk z u v i m = setPixel p.cfg m blk col (p.depth z) := by
  rw [pixelOp_of_tested h, if_pos hle, hcol, Option.elim_some]

theorem pixelOp_get_ne {a : Nat} (ha : a ∉ pixelAddrs p.cfg blk) : (p.pixelOp blk z u v i m).get a = m.get a := by
  rcases pixelOp_cases p blk z u v i m with e | ⟨col, d, e⟩ <;> rw [e]
  exact setPixel_get_ne m col d ha

/-- What a pixel operation makes of its pixel depends on that pixel alone. -/
theorem pixelBytes_pixelOp_congr (h : pixelBytes p.cfg blk m' = pixelBytes p.cfg blk m) :
    pixelBytes p.cfg blk (p.pixelOp blk z u v i m') = pixelBytes p.cfg blk (p.pixelOp blk z u v i m) := by
  have hwrite (col : Color) (d : Half) :
      pixelBytes p.cfg blk (setPixel p.cfg m' blk col d) = pixelBytes p.cfg blk (setPixel p.cfg m blk col d) :=
    pixelBytes_eq_iff.2 fun a ha => setPixel_get_congr (pixelBytes_eq_iff.1 h a ha) col d
  by_cases hmode : p.mode = .solidFixedDepth
  · rw [pixelOp_of_fixedDepth hmode, pixelOp_of_fixedDepth hmode, hwrite]
  · rw [pixelOp_of_tested hmode, pixelOp_of_tested hmode, pixColor_eq_of_pixelBytes h, pixDepth_eq_of_pixelBytes h]
    cases p.colour (pixColor p.cfg m blk) u v i with
    | none => simpa only [Option.elim_none, ite_self] using h
    | some col =>
      split
      · exact hwrite col (p.depth z)
      · exact h

end PixelOp

/-! ### Triangles and fans (R260, R262) -/

section Triangle

variable {p : Poly} {a b c : ScreenVertex} {area : Int}

theorem trianglePixel_eq (p : Poly) (a b c : ScreenVertex) (area : Int) (m : Memory) (px py : Nat) {x y : Int}
    (hx : x = px * 2 ^ p.cfg.subpix) (hy : y = py * 2 ^ p.cfg.subpix) :
    p.trianglePixel a b c area m px py =
      if triangleCovers a b c x y = true then
        p.pixelOp (pixelBlock p.cfg p.rbase px py)
          (interp (edgeFn b c x y) (edgeFn c a x y) (edgeFn a b x y) area a.zs b.zs c.zs)
          (interp (edgeFn b c x y) (edgeFn c a x y) (edgeFn a b x y) area a.us b.us c.us)
          (interp (edgeFn b c x y) (edgeFn c a x y) (edgeFn a b x y) area a.vs b.vs c.vs)
          (interp (edgeFn b c x y) (edgeFn c a x y) (edgeFn a b x y) area a.is b.is c.is) m
      else m := by
  subst hx hy
  rfl

theorem pixelBytes_trianglePixel_congr {px py : Nat} {m m' : Memory}
    (h : pixelBytes p.cfg (pixelBlock p.cfg p.rbase px py) m = pixelBytes p.cfg (pixelBlock p.cfg p.rbase px py) m') :
    pixelBytes p.cfg (pixelBlock p.cfg p.rbase px py) (p.trianglePixel a b c area m px py) =
      pixelBytes p.cfg (pixelBlock p.cfg p.rbase px py) (p.trianglePixel a b c area m' px py) := by
  rw [trianglePixel_eq p a b c area m px py rfl rfl, trianglePixel_eq p a b c area m' px py rfl rfl]
  split
  · exact pixelBytes_pixelOp_congr h
  · exact h

theorem pixelBytes_trianglePixel_ne (hc : p.cfg.Wf) {px py blk : Nat} (hne : blk ≠ pixelBlock p.cfg p.rbase px py)
    (m : Memory) : pixelBytes p.cfg blk (p.trianglePixel a b c area m px py) = pixelBytes p.cfg blk m := by
  rcases trianglePixel_cases p a b c area m px py with e | ⟨col, d, e⟩ <;> rw [e]
  exact pixelBytes_setPixel_ne hc hne m col d

/-- Where the visible rectangle does not wrap onto itself, each pixel has a block of its own (R84), and so its bytes
after the triangle are those after its one operation (R262). -/
theorem pixelBytes_triangle (hc : p.cfg.Wf) (hw : p.visW ≤ p.cfg.bW) (hh : p.visH ≤ p.cfg.bH) {px py : Nat}
    (hx : px < p.visW) (hy : py < p.visH) (m : Memory) :
    pixelBytes p.cfg (pixelBlock p.cfg p.rbase px py) (p.triangle a b c area m) =
      pixelBytes p.cfg (pixelBlock p.cfg p.rbase px py) (p.trianglePixel a b c area m px py) := by
  refine forRect_once hx hy (fun m x' y' hx' hy' hne => ?_) (fun _ _ => pixelBytes_trianglePixel_congr) m
  refine pixelBytes_trianglePixel_ne hc (fun e => hne ?_) m
  exact pixelBlock_inj hc hw hh hx' hx hy' hy e.symm

/-- The fan from `a` takes the neighbours of the list in order. -/
theorem fanFrom_eq_foldl (p : Poly) (a d : ScreenVertex) (l : List ScreenVertex) (m : Memory) :
    p.fanFrom a l m =
      (List.range (l.length - 1)).foldl (fun m i => p.rasterTri a (l.getD i d) (l.getD (i + 1) d) m) m := by
  induction l generalizing m with
  | nil => rfl
  | cons b l ih =>
    cases l with
    | nil => rfl
    | cons c r =>
      simp only [Poly.fanFrom, ih, List.length_cons, Nat.add_sub_cancel, List.range_succ_eq_map, List.foldl_cons,
        List.foldl_map]
      rfl

theorem rasterFan_eq_foldl (p : Poly) (scr : List ScreenVertex) (d : ScreenVertex) (m : Memory) :
    p.rasterFan scr m =
      (List.range (scr.length - 2)).foldl
        (fun m i => p.rasterTri (scr.getD 0 d) (scr.getD (i + 1) d) (scr.getD (i + 2) d) m) m := by
  cases scr with
  | nil => rfl
  | cons a r => exact fanFrom_eq_foldl p a d r m

theorem rasterTri_eq (p : Poly) (a b c : ScreenVertex) (m : Memory) (harea : area = edgeFn a b c.sx c.sy) :
    p.rasterTri a b c m =
      if area = 0 then m else if area < 0 then p.triangle a c b (-area) m else p.triangle a b c area m := by
  rw [harea, Poly.rasterTri]

end Triangle

/-- Settles O43: the fan by its list, a triangle by the sign of its area, a pixel by the loop in which only its own turn
touches it. -/
theorem triangleDrawsEachPixelOnce : Obligations.TriangleDrawsEachPixelOnce := by
  refine ⟨rasterFan_eq_foldl, fun p a b c area m harea => ?_, fun p v0 v1 v2 area m px py hc hw hh hx hy => ?_,
    fun p v0 v1 v2 area x y w0 w1 w2 m px py hx hy hw0 hw1 hw2 => ?_⟩
  · rw [rasterTri_eq p a b c m harea]
    refine ⟨fun hzero => ?_, fun hneg => ?_, fun hpos => ?_⟩
    · rw [if_pos hzero]
    · rw [if_neg hneg.ne, if_pos hneg]
    · rw [if_neg hpos.ne', if_neg hpos.le.not_gt]
  · exact pixelBytes_eq_iff.1 (pixelBytes_triangle hc hw hh hx hy m)
  · subst hw0 hw1 hw2
    exact trianglePixel_eq p v0 v1 v2 area m px py hx hy

/-! ### The depth test (R271, R273) -/

theorem zbiasVal_default {s : State} (h : s.cfg.DefaultRegFields) :
    s.zbiasVal = (hi16 (s.reg s.cfg.slot.zbias)).toInt := by
  rw [State.zbiasVal, h]
  rfl

/-- A clamped depth has 15 bits, so nothing of it is lost (R271). -/
theorem depth_toNat {p : Poly} (hc : p.cfg.Wf) (z : Int) :
    ((p.depth z).toNat : Int) = max 0 (min (z / 2 ^ p.cfg.zshift + p.zbias) p.cfg.depthMax) := by
  have hmax := hc.depthMax_le
  rw [Poly.depth, asr_eq_ediv, clampInt_eq (by omega), BitVec.toNat_ofInt]
  omega

/-- Settles O45. -/
theorem depthIsClamped : Obligations.DepthIsClamped := by
  intro s mode z hc hreg
  rw [depth_toNat (p := s.poly mode) hc z, ← zbiasVal_default hreg]
  rfl

theorem applyIntensity_standard {c : Cfg} (h : c.applyIntensity = .standard) (v : Color) (i : Int) :
    applyIntensity c v i = v := by rw [applyIntensity, h]

theorem colour_of_textured {p : Poly} (h : p.mode = .textured4 ∨ p.mode = .textured8) (old : Color) (u v i : Int) :
    p.colour old u v i = (p.texture u v).map fun col => applyIntensity p.cfg col i := by
  unfold Poly.colour
  rcases h with h | h <;> rw [h]

/-- Settles O44: each outcome of the test is a pixel write, read back, or no change. -/
theorem depthTestDecidesWrite : Obligations.DepthTestDecidesWrite := by
  intro p blk z u v i m hc
  refine ⟨fun hmode => ⟨pixelOp_of_behind hmode, fun col hcol hle => ?_⟩, fun hmode => ?_, fun a => pixelOp_get_ne,
    fun old => ⟨fun hmode => ?_, fun hmode => ?_, fun hmode => ⟨colour_of_textured hmode old u v i, fun hstd => ?_⟩⟩⟩
  · rw [pixelOp_of_passed hmode hcol hle]
    exact setPixel_read hc m blk col (p.depth z)
  · rw [pixelOp_of_fixedDepth hmode]
    exact setPixel_read hc m blk p.solid p.fixedZ
  · rw [Poly.colour, hmode]
  · rw [Poly.colour, hmode]
  · simp only [colour_of_textured hmode, applyIntensity_standard hstd, Option.map_id_fun', id]

/-- Settles O34: a quad is a sequence of pixel writes to visible blocks, and an event in the log. -/
theorem quadFrame : Obligations.QuadFrame := by
  intro s q
  obtain ⟨e, he⟩ := drawQuad_eq q.list s
  refine ⟨drawQuad q.list s, exec_quadQ10 q s, exec_quadQ14 q s, ?_, fun a ha => ?_⟩
  · rw [he]
  · exact (drawQuad_writes q.list s).get fun blk hblk hmem => ha ⟨blk, hblk, hmem⟩


/-! ### Colours by their channels (R35, R278) -/

theorem vec3_ext_get {α : Type} {v w : Vec3 α} (h : ∀ k, v.get k = w.get k) : v = w := by
  obtain ⟨v0, v1, v2⟩ := v
  obtain ⟨w0, w1, w2⟩ := w
  obtain ⟨rfl, rfl, rfl⟩ : v0 = w0 ∧ v1 = w1 ∧ v2 = w2 := ⟨h 0, h 1, h 2⟩
  rfl

@[simp] theorem vec3_get_map {α β : Type} (f : α → β) (v : Vec3 α) (k : Fin 3) : (v.map f).get k = f (v.get k) :=
  match k with
  | 0 | 1 | 2 => rfl

@[simp] theorem vec3_get_all {α : Type} (x : α) (k : Fin 3) : (Vec3.all x).get k = x :=
  match k with
  | 0 | 1 | 2 => rfl

section Colours

variable {c : Cfg}

theorem get_channels (c : Cfg) (v : Color) (k : Fin 3) :
    (channels c v).get k = (v.extractLsb' (c.pix.channelLo.get k) (channelWidth c.gen)).toNat := vec3_get_map ..

theorem channels_lt (c : Cfg) (v : Color) (k : Fin 3) : (channels c v).get k < 2 ^ channelWidth c.gen := by
  rw [get_channels]
  exact BitVec.isLt _

/-- A packed colour reads back channels that are in range. -/
theorem channels_packColour_of_lt (h : c.Wf) {ch : Vec3 Nat} (hlt : ∀ k, ch.get k < 2 ^ channelWidth c.gen) :
    channels c (packColour c ch) = ch := by
  rw [channels_packColour h]
  exact vec3_ext_get fun k => (vec3_get_map ..).trans (Nat.mod_eq_of_lt (hlt k))

theorem placeChannel_mod (c : Cfg) (lo ch : Nat) :
    placeChannel c lo (ch % 2 ^ channelWidth c.gen) = placeChannel c lo ch := by
  have hmod : BitVec.ofNat (channelWidth c.gen) (ch % 2 ^ channelWidth c.gen) = BitVec.ofNat (channelWidth c.gen) ch :=
    BitVec.eq_of_toNat_eq (Nat.mod_mod ..)
  rw [placeChannel, hmod, ← placeChannel]

/-- A packed colour is made again of its own channels. -/
theorem packColour_channels_packColour (h : c.Wf) (ch : Vec3 Nat) :
    packColour c (channels c (packColour c ch)) = packColour c ch := by
  rw [channels_packColour h]
  simp only [packColour, Vec3.map, placeChannel_mod]

/-- Every channel of the colour with full channels is all ones. -/
theorem extract_full (h : c.Wf) (k : Fin 3) :
    (packColour c (.all (2 ^ channelWidth c.gen - 1))).extractLsb' (c.pix.channelLo.get k) (channelWidth c.gen) =
      BitVec.allOnes (channelWidth c.gen) := by
  have hfull : ∀ k, (Vec3.all (2 ^ channelWidth c.gen - 1)).get k < 2 ^ channelWidth c.gen := fun k => by
    rw [vec3_get_all]
    exact Nat.sub_one_lt (Nat.two_pow_pos _).ne'
  refine BitVec.eq_of_toNat_eq ?_
  rw [← get_channels, channels_packColour_of_lt h hfull, vec3_get_all, BitVec.toNat_allOnes]

/-- The bits that are no colour have no bit in common with a channel. -/
theorem extract_nonColourBits (h : c.Wf) (v : Color) (k : Fin 3) :
    (nonColourBits c v).extractLsb' (c.pix.channelLo.get k) (channelWidth c.gen) = 0 := by
  have hapart : nonColourBits c v &&& packColour c (.all (2 ^ channelWidth c.gen - 1)) = 0 := by
    rw [nonColourBits, BitVec.and_assoc, BitVec.and_comm (~~~_), BitVec.and_not_self]
    exact BitVec.and_zero
  rw [← BitVec.and_allOnes (x := (nonColourBits c v).extractLsb' _ _), ← extract_full h k,
    ← BitVec.extractLsb'_and, hapart]
  exact BitVec.extractLsb'_zero

theorem channels_nonColourBits_or (h : c.Wf) (v w : Color) : channels c (nonColourBits c v ||| w) = channels c w :=
  vec3_ext_get fun k => by
    rw [get_channels, get_channels, extract_or, extract_nonColourBits h]
    simp

theorem nonColourBits_or (c : Cfg) (v w : Color) :
    nonColourBits c (v ||| w) = nonColourBits c v ||| nonColourBits c w := BitVec.and_or_distrib_right

theorem nonColourBits_nonColourBits (c : Cfg) (v : Color) :
    nonColourBits c (nonColourBits c v) = nonColourBits c v := by
  rw [nonColourBits, nonColourBits, BitVec.and_assoc, BitVec.and_self]

theorem shade_black (c : Cfg) (old : Color) : shade c c.pix.alphaBlack old = 0 := if_pos rfl

theorem shade_of_ne {a : Nat} (h : a ≠ c.pix.alphaBlack) (old : Color) :
    shade c a old =
      nonColourBits c old ||| packColour c ((channels c old).map fun ch => ch * a / 2 ^ c.pix.alphaFrac) := if_neg h

/-- A channel scaled by a factor below one stays in range (R278). -/
theorem scale_lt {ch a k n : Nat} (hch : ch < n) (ha : a < 2 ^ k) : ch * a / 2 ^ k < n :=
  (Nat.div_le_of_le_mul (by rw [Nat.mul_comm]; exact Nat.mul_le_mul_right _ ha.le)).trans_lt hch

theorem channels_shade (h : c.Wf) {a : Nat} (ha : a < 2 ^ c.pix.alphaFrac) (hne : a ≠ c.pix.alphaBlack) (old : Color) :
    channels c (shade c a old) = (channels c old).map fun ch => ch * a / 2 ^ c.pix.alphaFrac := by
  rw [shade_of_ne hne, channels_nonColourBits_or h, channels_packColour_of_lt h]
  intro k
  rw [vec3_get_map]
  exact scale_lt (channels_lt c old k) ha

theorem nonColourBits_shade {a : Nat} (hne : a ≠ c.pix.alphaBlack) (old : Color) :
    nonColourBits c (shade c a old) = nonColourBits c old := by
  rw [shade_of_ne hne, nonColourBits_or, nonColourBits_nonColourBits, nonColourBits_packColour]
  exact BitVec.or_zero

/-- Colours depend on the generation and the pixel formats of a configuration alone. -/
theorem channels_default (h : c.DefaultPixels) : channels c = channels (defaultCfg c.gen) := by
  unfold channels
  rw [h]
  rfl

theorem packColour_default (h : c.DefaultPixels) : packColour c = packColour (defaultCfg c.gen) := by
  unfold packColour placeChannel
  rw [h]
  rfl

theorem nonColourBits_default (h : c.DefaultPixels) (v : Color) :
    nonColourBits c v = v &&& if c.gen = .gen1 then 0xFFFF8000 else 0xFF000000 := by
  rw [nonColourBits, packColour_default h]
  congr 1
  cases c.gen <;> decide

theorem alphaBlack_default (h : c.DefaultPixels) : c.pix.alphaBlack = 0 := by
  rw [h]
  cases c.gen <;> rfl

end Colours

/-- Settles O47: the parts of a shaded colour are kept apart, the scaled channels and the bits that are no colour. -/
theorem shadeScalesChannels : Obligations.ShadeScalesChannels := by
  refine fun c a old h ha => ⟨shade_black c old, fun hne => ⟨channels_shade h ha hne old, nonColourBits_shade hne old⟩,
    fun hpix => ⟨?_, nonColourBits_default hpix old⟩⟩
  rw [← alphaBlack_default hpix]
  exact shade_black c old

/-! ### Texels (R280 to R282) -/

section Texel

variable {p : Poly} {u v t one : Int}

theorem texel_of_textured8 (h : p.mode = .textured8) (ht : t = v * p.texWidth + u) :
    p.texel u v = (p.texByte t).toNat := by
  rw [Poly.texel, h, ht]

theorem texel_of_textured4 (h : p.mode = .textured4) (ht : t = v * p.texWidth + u) :
    p.texel u v = texelNibble (decide (t % 2 = 0)) (p.texByte (t / 2)) p.cfg.pix.nibbles := by
  rw [Poly.texel, h, ht, ← floorDiv_of_nonneg _ zero_le_two]

theorem texelNibble_lowFirst (even : Bool) (byte : Byte) :
    texelNibble even byte .lowFirst = if even = true then byte.toNat % 16 else byte.toNat / 16 := by
  have hhigh : byte.toNat / 16 % 16 = byte.toNat / 16 := Nat.mod_eq_of_lt (Nat.div_lt_of_lt_mul byte.isLt)
  cases even <;> simp [texelNibble, BitVec.extractLsb'_toNat, Nat.shiftRight_eq_div_pow, hhigh]

/-- The 4-bit format has no index of 16 or more (R282). -/
theorem texelNibble_lt (even : Bool) (byte : Byte) (order : NibbleOrder) : texelNibble even byte order < 16 := by
  cases order <;> cases even <;> exact BitVec.isLt _

/-- The byte of a texture whose stream offset is `k` (R81, R281). -/
theorem texByte_eq {o : Int} {k : Nat} (h : (k : Int) = o % (p.cfg.aW * p.cfg.aH * p.cfg.aBytes : Nat)) :
    p.texByte o =
      memRead8 p.cfg .bankA p.bankA (advance p.cfg .bankA p.pTex (k / p.cfg.aBytes)) (k % p.cfg.aBytes) := by
  simp only [Poly.texByte, ← h, Int.toNat_natCast]

/-- A texture is none where its top-left texel is transparent, and else the filter of four texels (R280, R282). -/
theorem texture_eq (hone : one = 2 ^ p.cfg.pix.uvFrac) (u v : Int) :
    p.texture u v =
      if p.transEn = true ∧ p.texel (u / one) (v / one) = p.transIdx then none
      else some (bilinear p.cfg (p.pal (p.texel (u / one) (v / one))) (p.pal (p.texel (u / one + 1) (v / one)))
        (p.pal (p.texel (u / one) (v / one + 1))) (p.pal (p.texel (u / one + 1) (v / one + 1)))
        (u % one).toNat (v % one).toNat) := by
  subst hone
  rw [← floorDiv_of_nonneg u (by positivity), ← floorDiv_of_nonneg v (by positivity)]
  rfl

theorem texture_eq_none_iff (hone : one = 2 ^ p.cfg.pix.uvFrac) :
    p.texture u v = none ↔ p.transEn = true ∧ p.texel (u / one) (v / one) = p.transIdx := by
  rw [texture_eq hone, ite_eq_left_iff, imp_iff_not_or, not_not, or_iff_left (Option.some_ne_none _)]

theorem texture_of_opaque (hone : one = 2 ^ p.cfg.pix.uvFrac)
    (h : ¬ (p.transEn = true ∧ p.texel (u / one) (v / one) = p.transIdx)) :
    p.texture u v =
      some (bilinear p.cfg (p.pal (p.texel (u / one) (v / one))) (p.pal (p.texel (u / one + 1) (v / one)))
        (p.pal (p.texel (u / one) (v / one + 1))) (p.pal (p.texel (u / one + 1) (v / one + 1)))
        (u % one).toNat (v % one).toNat) := by
  rw [texture_eq hone, if_neg h]

end Texel

/-- Settles O46: a transparent texture gives no colour, so no pixel is written. -/
theorem transparentTexelLeavesPixel : Obligations.TransparentTexelLeavesPixel := by
  refine ⟨fun p blk z u v i m one hmode hone => ⟨fun hen hidx => ?_, texture_eq_none_iff hone, fun h4 hidx hnone => ?_⟩,
    fun p u v t ht => ⟨fun h8 => texel_of_textured8 h8 ht, fun h4 hlow => ?_, fun o k => texByte_eq⟩⟩
  · have hcol : p.colour (pixColor p.cfg m blk) u v i = none := by
      rw [colour_of_textured hmode, (texture_eq_none_iff hone).2 ⟨hen, hidx⟩, Option.map_none]
    exact pixelOp_of_transparent (by rcases hmode with h | h <;> rw [h] <;> decide) hcol
  · obtain ⟨-, heq⟩ := (texture_eq_none_iff hone).1 hnone
    rw [texel_of_textured4 h4 rfl] at heq
    exact absurd heq ((texelNibble_lt ..).trans_le hidx).ne
  · rw [texel_of_textured4 h4 ht, hlow, texelNibble_lowFirst]
    simp only [decide_eq_true_eq]

/-! ### The filter and the palette (R283 to R286) -/

section Filter

variable {c : Cfg} {one uf vf n : Nat}

/-- At a texel centre the filter gives the top-left channel (R286). -/
theorem bilinearChannel_centre (hone : 0 < one) (c00 c01 c10 c11 : Nat) :
    bilinearChannel one c00 c01 c10 c11 0 0 = c00 := by
  simp only [bilinearChannel, Nat.sub_zero, Nat.mul_zero, Nat.add_zero, Nat.mul_assoc]
  exact Nat.mul_div_cancel _ (Nat.mul_pos hone hone)

/-- The mean of two values by weights that make up a whole is at most their bound. -/
theorem mean_le {a b w n : Nat} (ha : a ≤ n) (hb : b ≤ n) (hw : w ≤ one) : a * (one - w) + b * w ≤ n * one :=
  calc a * (one - w) + b * w ≤ n * (one - w) + n * w := by gcongr
    _ = n * one := by rw [← Nat.mul_add, Nat.sub_add_cancel hw]

/-- A filtered channel stays in range (R284). -/
theorem bilinearChannel_lt {c00 c01 c10 c11 : Nat} (h00 : c00 < n) (h01 : c01 < n) (h10 : c10 < n)
    (h11 : c11 < n) (hu : uf ≤ one) (hv : vf ≤ one) : bilinearChannel one c00 c01 c10 c11 uf vf < n := by
  have hsum : (c00 * (one - uf) + c01 * uf) * (one - vf) + (c10 * (one - uf) + c11 * uf) * vf ≤ (n - 1) * one * one :=
    mean_le (mean_le (by omega) (by omega) hu) (mean_le (by omega) (by omega) hu) hv
  have : bilinearChannel one c00 c01 c10 c11 uf vf ≤ n - 1 := by
    refine Nat.div_le_of_le_mul ?_
    rwa [Nat.mul_comm (one * one), ← Nat.mul_assoc]
  omega

theorem channels_bilinear (h : c.Wf) (hone : one = 2 ^ c.pix.uvFrac) (hu : uf ≤ one) (hv : vf ≤ one)
    (c00 c01 c10 c11 : Color) (k : Fin 3) :
    (channels c (bilinear c c00 c01 c10 c11 uf vf)).get k =
      bilinearChannel one ((channels c c00).get k) ((channels c c01).get k) ((channels c c10).get k)
        ((channels c c11).get k) uf vf := by
  have hlt (k : Fin 3) : bilinearChannel one ((channels c c00).get k) ((channels c c01).get k) ((channels c c10).get k)
      ((channels c c11).get k) uf vf < 2 ^ channelWidth c.gen :=
    bilinearChannel_lt (channels_lt ..) (channels_lt ..) (channels_lt ..) (channels_lt ..) hu hv
  rw [bilinear, channels_packColour_of_lt h]
  · rw [← hone]
    match k with
    | 0 | 1 | 2 => rfl
  · rw [← hone]
    exact fun k => match k with
      | 0 => hlt 0
      | 1 => hlt 1
      | 2 => hlt 2

/-- At a texel centre the filter packs the top-left channels again (R286). -/
theorem bilinear_centre (c : Cfg) (c00 c01 c10 c11 : Color) :
    bilinear c c00 c01 c10 c11 0 0 = packColour c (channels c c00) := by
  simp only [bilinear, bilinearChannel_centre (Nat.two_pow_pos _)]

theorem nonColourBits_bilinear (c : Cfg) (c00 c01 c10 c11 : Color) (uf vf : Nat) :
    nonColourBits c (bilinear c c00 c01 c10 c11 uf vf) = 0 := nonColourBits_packColour ..

/-- A texture at whole coordinates is the palette colour of its texel (R286). -/
theorem texture_centre {p : Poly} {u v one : Int} (hc : p.cfg.Wf) (hone : one = 2 ^ p.cfg.pix.uvFrac)
    (h : ¬ (p.transEn = true ∧ p.texel u v = p.transIdx)) :
    p.texture (u * one) (v * one) = some (p.pal (p.texel u v)) := by
  have hne : one ≠ 0 := by rw [hone]; positivity
  rw [← Int.mul_ediv_cancel u hne, ← Int.mul_ediv_cancel v hne] at h
  rw [texture_of_opaque hone h, Int.mul_emod_left, Int.mul_emod_left, Int.toNat_zero, bilinear_centre,
    Int.mul_ediv_cancel u hne, Int.mul_ediv_cancel v hne, Poly.pal, packColour_channels_packColour hc]

end Filter

/-- The fields of a palette entry at bits 10, 5 and 0, put back in their places, are its low 15 bits. -/
theorem place_fields_or (e : Half) :
    place (e.extractLsb' 10 5) 10 ||| place (e.extractLsb' 5 5) 5 ||| place (e.extractLsb' 0 5) 0 =
      (e &&& 0x7FFF).setWidth 32 := by
  have hmask : (0x7FFF : Half) = (BitVec.allOnes 15).setWidth 16 := by decide
  apply BitVec.eq_of_getLsbD_eq
  intro i hi
  simp only [hmask, BitVec.getLsbD_or, getLsbD_place, BitVec.getLsbD_extractLsb', BitVec.getLsbD_setWidth,
    BitVec.getLsbD_and, BitVec.getLsbD_allOnes]
  grind

section Palette

variable {p : Poly}

/-- By default red, green and blue of a palette entry stand at bits 10, 5 and 0 (R283). -/
theorem paletteChannels_default {c : Cfg} (h : c.DefaultPixels) (e : Half) :
    paletteChannels c e = ⟨(e.extractLsb' 10 5).toNat, (e.extractLsb' 5 5).toNat, (e.extractLsb' 0 5).toNat⟩ := by
  rw [paletteChannels, h]
  cases c.gen <;> rfl

/-- In generation 1 a palette colour is its entry without bit 15, by default (R283). -/
theorem pal_gen1 (h : p.cfg.DefaultPixels) (hg : p.cfg.gen = .gen1) (i : Nat) :
    p.pal i = (p.palEntry i &&& 0x7FFF).setWidth 32 := by
  have hid : paletteChannel p.cfg = fun ch => ch := funext fun ch => by rw [paletteChannel, hg]
  rw [Poly.pal, paletteChannels_default h, hid, packColour_default h, hg, ← place_fields_or]
  simp only [packColour, placeChannel, Vec3.map, defaultCfg, defaultPixels, channelWidth, BitVec.ofNat_toNat,
    BitVec.setWidth_eq]

theorem widen5_standard {c : Cfg} (h : c.pix.widen = .standard) (ch : BitVec 5) :
    widen5 c ch.toNat = ch.toNat * 8 + ch.toNat / 4 := by
  rw [widen5, h]
  revert ch
  decide

theorem widen_default {c : Cfg} (h : c.DefaultPixels) : c.pix.widen = .standard := by
  rw [h]
  cases c.gen <;> rfl

/-- In generation 2 its channels are those of the entry, widened (R283). -/
theorem channels_pal_gen2 (h : p.cfg.DefaultPixels) (hg : p.cfg.gen = .gen2) (i : Nat) :
    channels p.cfg (p.pal i) =
      Vec3.map (fun ch : BitVec 5 => ch.toNat * 8 + ch.toNat / 4)
        ⟨(p.palEntry i).extractLsb' 10 5, (p.palEntry i).extractLsb' 5 5, (p.palEntry i).extractLsb' 0 5⟩ := by
  have hwiden (ch : BitVec 5) : paletteChannel p.cfg ch.toNat = ch.toNat * 8 + ch.toNat / 4 := by
    rw [paletteChannel, hg]
    exact widen5_standard (widen_default h) ch
  rw [Poly.pal, paletteChannels_default h, channels_default h, packColour_default h, hg]
  simp only [Vec3.map, hwiden]
  refine channels_packColour_of_lt (defaultCfg_wf .gen2) fun k => ?_
  have hch (ch : BitVec 5) : ch.toNat * 8 + ch.toNat / 4 < 2 ^ channelWidth .gen2 := by
    have := ch.isLt
    rw [channelWidth]
    omega
  match k with
  | 0 => exact hch _
  | 1 => exact hch _
  | 2 => exact hch _

end Palette

/-- Settles O48: the weighted sum of each channel, the texture by its four texels, the palette of each generation. -/
theorem bilinearAtCentreIsTexel : Obligations.BilinearAtCentreIsTexel := by
  refine ⟨fun c c00 c01 c10 c11 hc => ⟨?_, fun uf vf one hone hu hv =>
      ⟨nonColourBits_bilinear c c00 c01 c10 c11 uf vf, channels_bilinear hc hone hu.le hv.le c00 c01 c10 c11⟩⟩,
    fun p u v one hone hc => texture_centre hc hone, fun p u v one => texture_of_opaque, fun p i e h he => ?_⟩
  · exact vec3_ext_get fun k => (channels_bilinear hc rfl (Nat.zero_le _) (Nat.zero_le _) c00 c01 c10 c11 k).trans
      (bilinearChannel_centre (Nat.two_pow_pos _) ..)
  · subst he
    exact ⟨fun hg => pal_gen1 h hg i, fun hg => channels_pal_gen2 h hg i⟩

end Sys2Proof.Machine
end

section
/-! PROOF. The display (45_scanout.md): what a scanout copies (R311), what a write of a timing slot copies, takes and
keeps (R314 to R316), and the page flip (R317). -/

namespace Sys2Proof.Machine

/-! ### Pixels of the bitmap (R32, R311, R316) -/

section Pixels

variable (s : State) {x y : Nat}

/-- A scanout copies the visible pixels of its rows and leaves every other pixel (R311). -/
theorem scanout_outPixel (y0 y1 : Nat) (isPartial : Bool) (hw : s.disp.visW ≤ 65535) (hx : x ≤ 65535) :
    (scanout y0 y1 isPartial s).outPixel y x =
      if y0 ≤ y ∧ y < y1 ∧ x < s.disp.visW then pixColor s.cfg s.bankB (pixelBlock s.cfg s.dbase x y)
      else s.outPixel y x := by
  have hcopied := copyRows_get s.cfg s.bankB s.dbase s.disp.visW y0 y1 s.out.pixels hw (y := y) (Nat.lt_succ_of_le hx)
  simp only [State.outPixel, scanout, hcopied]
  by_cases hin : y0 ≤ y ∧ y < y1 ∧ x < s.disp.visW
  · rw [if_pos hin, if_pos hin, Option.getD_some]
  · rw [if_neg hin, if_neg hin]

/-- A reconfiguration whose window holds a pixel did not bring it into the bitmap (R316). -/
theorem pixelBirth_of_inside {w h : Nat} (hx : x < w) (hy : y < h) (windows : List (Nat × Nat)) :
    pixelBirth y x ((w, h) :: windows) = pixelBirth y x windows := if_pos ⟨hx, hy⟩

/-- A new size keeps the pixels inside it, the written and the unwritten ones (R316). -/
theorem outPixel_resize (o : Output) {w h : Nat} (hw : w ≤ 65535) (hx : x < w) (hy : y < h) :
    ({ s with out := o.resize w h } : State).outPixel y x = ({ s with out := o } : State).outPixel y x := by
  have hx' : x < 65536 := by omega
  have hkept : Cells.get (o.resize w h).pixels (outKey y x) = o.pixels.get (outKey y x) := by
    rw [Output.resize, Cells.get_filter o.pixels fun k => decide (k % 65536 < w ∧ k / 65536 < h), outKey_mod hx',
      outKey_div hx', if_pos (decide_eq_true ⟨hx, hy⟩)]
  have hbirth : pixelBirth y x (o.resize w h).windows = pixelBirth y x o.windows := pixelBirth_of_inside hx hy o.windows
  simp only [State.outPixel, hkept, hbirth]

end Pixels

/-- Settles O56: the scanout is its copy and its event, and the copy is known pixel by pixel. -/
theorem scanoutCopiesRows : Obligations.ScanoutCopiesRows :=
  fun s y0 y1 isPartial hw => ⟨rfl, fun _ _ hx => scanout_outPixel s y0 y1 isPartial hw hx⟩

/-! ### The timing slots (R314, R315, R316) -/

section Retime

variable {s : State}

theorem timing_slot_active {slot : SlotNo} (hslot : slot ∈ [s.cfg.slot.tTotal, s.cfg.slot.tHvis, s.cfg.slot.tVvis]) :
    slot ∈ s.cfg.slot.active := List.mem_of_mem_drop (i := 8) hslot

theorem rowsDue_iff : s.rowsDue = true ↔ s.disp.valid = true ∧ s.scanRow < s.rowsPassed := by
  rw [State.rowsDue, Bool.and_eq_true, decide_eq_true_eq, State.rowsPassed]

/-- The partial scanout copies the rows due, if there are any, and logs that it did (R314). -/
theorem retimeScanout_eq (s : State) :
    retimeScanout s = { s with
      scanRow := if s.rowsDue then s.rowsPassed else s.scanRow
      out := if s.rowsDue then (scanout s.scanRow s.rowsPassed true s).out else s.out
      log := if s.rowsDue then s.log ++ [.scanout s.scanRow s.rowsPassed true] else s.log } := by
  by_cases hdue : s.rowsDue = true
  · rw [retimeScanout, if_pos (rowsDue_iff.1 hdue)]
    simp only [if_pos hdue]
    rfl
  · rw [retimeScanout, if_neg (mt rowsDue_iff.2 hdue)]
    simp only [if_neg hdue]

/-- The display region lies where the page-select slot says, whatever the other slots hold (R26). -/
theorem dbase_setReg {slot : SlotNo} (hpage : s.cfg.slot.page ≠ slot) (v : Word) :
    (s.setReg slot v).dbase = s.dbase := by
  rw [State.dbase, setReg_cfg, reg_setReg_ne s v hpage, State.dbase]

/-- The copy is made under the geometry in force, not the one the slots now hold: the store does not change it
(R314). -/
theorem retimeScanout_setReg {slot : SlotNo} (hpage : s.cfg.slot.page ≠ slot) (v : Word) :
    retimeScanout (s.setReg slot v) = (retimeScanout s).setReg slot v := by
  have hout : (scanout s.scanRow s.rowsPassed true (s.setReg slot v)).out =
      (scanout s.scanRow s.rowsPassed true s).out := by
    simp only [scanout, dbase_setReg hpage, setReg_cfg, setReg_bankB, setReg_disp, setReg_out]
  calc retimeScanout (s.setReg slot v)
      _ = { s.setReg slot v with
            scanRow := if s.rowsDue then s.rowsPassed else s.scanRow
            out := if s.rowsDue then (scanout s.scanRow s.rowsPassed true (s.setReg slot v)).out else s.out
            log := if s.rowsDue then s.log ++ [.scanout s.scanRow s.rowsPassed true] else s.log } :=
          retimeScanout_eq (s.setReg slot v)
      _ = (retimeScanout s).setReg slot v := by
          rw [hout, retimeScanout_eq s]
          rfl

/-- A configuration that is not valid is not taken (R315). -/
theorem retime_of_not_acceptable (h : s.timing.acceptable = false) : retime s = retimeScanout s := by
  simp [retime, h]

/-- A valid configuration is taken after the partial scanout (R314). -/
theorem retime_of_acceptable (h : s.timing.acceptable = true) : retime s = reconfigure s.timing (retimeScanout s) := by
  simp [retime, h]

end Retime

/-- Settles O58: the store retimes; the partial scanout is the one of the state before the store, and the configuration
is taken or not. -/
theorem timingWriteRetimes : Obligations.TimingWriteRetimes := by
  intro s slot v d passed rows o l hc hslot hd hpassed hrows ho hl
  have hpage : s.cfg.slot.page ≠ slot := fun e => page_not_active hc (e ▸ timing_slot_active hslot)
  have hexec : exec (.regw32 slot v) s = .next (retime (s.setReg slot v)) :=
    congrArg _ (sideEffect_timing (s := s.setReg slot v) hc hslot)
  have hcopied : retimeScanout (s.setReg slot v) = { s.setReg slot v with scanRow := rows, out := o, log := l } := by
    subst hpassed hrows ho hl
    rw [retimeScanout_setReg hpage, retimeScanout_eq s]
    rfl
  rw [hexec]
  refine ⟨fun hbad => ?_, fun hgood => ⟨?_, fun y x hx hy => ?_⟩⟩
  · rw [retime_of_not_acceptable (hd ▸ hbad), hcopied]
  · rw [retime_of_acceptable (hd ▸ hgood), hcopied]
    subst hd
    rfl
  · have hw : d.visW ≤ 65535 := hd ▸ timing_visW_le (s := s.setReg slot v) hc
    exact outPixel_resize s o hw hx hy

/-! ### The page flip (R317) -/

/-- By default the base row of the render region is the low half of the page-select slot (R26). -/
theorem rbase_default {s : State} (h : s.cfg.DefaultRegFields) : s.rbase = (lo16 (s.reg s.cfg.slot.page)).toNat := by
  rw [State.rbase, h]
  rfl

/-- By default the base row of the display region is the high half of the page-select slot (R26). -/
theorem dbase_default {s : State} (h : s.cfg.DefaultRegFields) : s.dbase = (hi16 (s.reg s.cfg.slot.page)).toNat := by
  rw [State.dbase, h]
  rfl

/-- Settles O59: either writer is a store into the page-select slot, which has no side effect. -/
theorem pageWriteMovesRegions : Obligations.PageWriteMovesRegions := by
  intro s v hc hdefault
  have hpage : (s.setReg s.cfg.slot.page v).reg s.cfg.slot.page = v := reg_setReg_same s s.cfg.slot.page v
  refine ⟨s.setReg s.cfg.slot.page v, congrArg _ (ptrset_rt hc v), ?_, ?_, ?_, rfl⟩
  · exact congrArg _ (sideEffect_passive (s.setReg s.cfg.slot.page v) (page_not_active hc))
  · exact (rbase_default (s := s.setReg s.cfg.slot.page v) hdefault).trans (by rw [setReg_cfg, hpage])
  · exact (dbase_default (s := s.setReg s.cfg.slot.page v) hdefault).trans (by rw [setReg_cfg, hpage])

end Sys2Proof.Machine
end

section
/-! PROOF. The interrupt line (60_exceptions.md R335): a status of the control slot, so a store into that slot decides it,
by whichever half or writer. -/

namespace Sys2Proof.Machine

section Line

variable {s : State}

/-- The control slot has no side effect: its fields are read where they are used (R25, R142). -/
theorem ctrl_not_active (h : s.cfg.Wf) : s.cfg.slot.ctrl ∉ s.cfg.slot.active := by
  have hctrl : s.cfg.slot.ctrl ∈ s.cfg.slot.all.take 6 := by simp [Slots.all]
  have hactive : s.cfg.slot.active ⊆ s.cfg.slot.all.drop 6 := by simp [Slots.all, Slots.active]
  exact fun hin => List.disjoint_take_drop h.slots_nodup le_rfl hctrl (hactive hin)

/-- The host's store into a slot with no function runs no side effect either (R142). -/
theorem hostSideEffect_passive {slot : SlotNo} (h : slot ∉ s.cfg.slot.active) : hostSideEffect slot s = .next s := by
  have hport : slot ≠ s.cfg.slot.fifo := fun e => h (e ▸ List.mem_cons_self)
  rw [hostSideEffect_ne hport, sideEffect_passive s h]

/-- Bit 25 of a word is bit 9 of its high half. -/
theorem hi16_getLsbD_nine (w : Word) : (hi16 w).getLsbD 9 = w.getLsbD 25 := by
  simp [hi16]

/-- Bit 9 of a word is bit 9 of its low half. -/
theorem lo16_getLsbD_nine (w : Word) : (lo16 w).getLsbD 9 = w.getLsbD 9 := by
  simp [lo16]

/-- By default the interrupt line is bit 25 of the control slot (R25, R335). -/
theorem irqFifo_default (h : s.cfg.DefaultRegFields) : s.irqFifo = (s.reg s.cfg.slot.ctrl).getLsbD 25 := by
  rw [State.irqFifo, h]
  rfl

/-- A store into the control slot sets the line. -/
theorem irqFifo_setReg_ctrl (h : s.cfg.DefaultRegFields) (v : Word) :
    (s.setReg s.cfg.slot.ctrl v).irqFifo = v.getLsbD 25 := by
  rw [irqFifo_default (s := s.setReg s.cfg.slot.ctrl v) h, setReg_cfg, reg_setReg_same]

/-- The line lies in the high half of the control slot: what is stored as the low half does not matter. -/
theorem irqFifo_setReg_ctrl_halves (h : s.cfg.DefaultRegFields) (hi lo : Half) :
    (s.setReg s.cfg.slot.ctrl (joinHalves hi lo)).irqFifo = hi.getLsbD 9 := by
  rw [irqFifo_setReg_ctrl h, ← hi16_getLsbD_nine, hi16_joinHalves]

/-- A store of the low half keeps the line. -/
theorem irqFifo_setReg_ctrl_low (h : s.cfg.DefaultRegFields) (lo : Half) :
    (s.setReg s.cfg.slot.ctrl (joinHalves (hi16 (s.reg s.cfg.slot.ctrl)) lo)).irqFifo = s.irqFifo := by
  rw [irqFifo_setReg_ctrl_halves h, hi16_getLsbD_nine, irqFifo_default h]

/-- The host's write by its effective width: a half store, of which the high half decides the line, or a full one. -/
theorem step_regWrite_ctrl_irqFifo (hc : s.cfg.Wf) (h : s.cfg.DefaultRegFields) {high : Bool} {v : Word} {w : Width}
    {rest : List HostOp} (hwalk : s.walk = none) (hin : s.inputs = .regWrite s.cfg.slot.ctrl high v w :: rest) :
    ∃ t, step s = .next t ∧ t.irqFifo =
      (if s.cfg.gen = .gen1 ∧ s.halfMode = true ∧ w = .w16 then (if high then v.getLsbD 9 else s.irqFifo)
       else v.getLsbD 25) := by
  obtain ⟨hhigh, hlow, hfull, -⟩ := hostWriteByWidth s s.cfg.slot.ctrl high v w rest hwalk hin
  have hquiet : ∀ x, hostSideEffect s.cfg.slot.ctrl { s.setReg s.cfg.slot.ctrl x with inputs := rest } =
      .next { s.setReg s.cfg.slot.ctrl x with inputs := rest } := fun _ => hostSideEffect_passive (ctrl_not_active hc)
  by_cases hhalf : s.cfg.gen = .gen1 ∧ s.halfMode = true ∧ w = .w16
  · rw [if_pos hhalf]
    cases high with
    | true => exact ⟨_, hhigh hhalf rfl, (irqFifo_setReg_ctrl_halves h _ _).trans (lo16_getLsbD_nine v)⟩
    | false => exact ⟨_, (hlow hhalf rfl).trans (hquiet _), irqFifo_setReg_ctrl_low h _⟩
  · rw [if_neg hhalf]
    exact ⟨_, (hfull hhalf).trans (hquiet _), irqFifo_setReg_ctrl h v⟩

end Line

/-- Settles O55: every writer stores into the control slot and, since that slot has no side effect, does no more. -/
theorem interruptLineFollowsEnable : Obligations.InterruptLineFollowsEnable := by
  intro s v d hc h
  have hpassive : s.cfg.slot.ctrl ∉ s.cfg.slot.active := ctrl_not_active hc
  obtain ⟨-, -, hfull, -⟩ := regw32WritesSlot s s.cfg.slot.ctrl v hc
  obtain ⟨-, hhigh, -, hlow⟩ := regw16WritesHalf s s.cfg.slot.ctrl d hc
  exact ⟨⟨_, hfull (.inl hpassive), irqFifo_setReg_ctrl h v⟩,
    ⟨_, hhigh, irqFifo_setReg_ctrl_halves h d _⟩,
    ⟨_, hlow (.inl hpassive), irqFifo_setReg_ctrl_low h d⟩,
    fun _ _ _ hwalk hin => step_regWrite_ctrl_irqFifo hc h hwalk hin⟩

end Sys2Proof.Machine
end


section
/-! PROOF. Before a valid timing (70_reset_and_hazards.md R360): no pixel is visible, so a drawing command, which writes
visible pixels only, writes none, and the display line does nothing. -/

namespace Sys2Proof.Machine

/-- Pixel writes that may reach no block leave the memory as it was. -/
theorem PixelWrites.eq_of_none {c : Cfg} {V : Nat → Prop} {m m' : Memory} (h : PixelWrites c V m m')
    (hV : ∀ blk, ¬ V blk) : m' = m := by
  cases h with
  | refl => rfl
  | write v d _ hb => exact absurd hb (hV _)

section Invalid

variable {s : State}

/-- Without a valid geometry the visible rectangle is empty (R31). -/
theorem not_visibleBlock_of_invalid (h : s.disp.valid = false) (blk : Nat) : ¬ s.visibleBlock blk := by
  rintro ⟨x, y, hx, -, -⟩
  have hw : s.disp.visW = 0 := by simp [Disp.visW, h]
  omega

/-- CLEAR draws nothing without a valid geometry, and what it draws is all it changes (R175, R360). -/
theorem clear_of_invalid (h : s.disp.valid = false) : clear s = s := by
  have hbank : (clear s).bankB = s.bankB := (clear_writes s).eq_of_none (not_visibleBlock_of_invalid h)
  calc clear s
      _ = { s with bankB := (clear s).bankB } := rfl
      _ = s := by rw [hbank]

/-- A QUAD draws nothing without a valid geometry; it may still log its fill mode (R201, R275, R360). -/
theorem drawQuad_bankB_of_invalid (h : s.disp.valid = false) (vin : List InVertex) :
    (drawQuad vin s).bankB = s.bankB :=
  (drawQuad_writes vin s).eq_of_none (not_visibleBlock_of_invalid h)

end Invalid

/-- Settles O28: no block is visible, and the drawing commands write visible blocks only. -/
theorem nothingVisibleBeforeTiming : Obligations.NothingVisibleBeforeTiming := fun s q h =>
  ⟨congrArg _ (clear_of_invalid h), hLine_of_invalid h,
    ⟨_, exec_quadQ10 q s, drawQuad_bankB_of_invalid h q.list⟩,
    ⟨_, exec_quadQ14 q s, drawQuad_bankB_of_invalid h q.list⟩⟩

end Sys2Proof.Machine
end
